-- ==== Sys2Proof/Word.lean ====
section
/-! DEFINITION. The word types of the CORE: bytes (rule R7), 16-byte blocks carried as 128-bit values
(rule R9), 4-byte key-schedule words (rule R121) and 64-bit lengths (rule R22). Byte `j` of a value sits
at bits `[8j+7:8j]` (rule R9); the functions that say so stand in Machine/Bytes.lean. -/

namespace Sys2Proof

/-- A byte is 8 bits (rule R7); bit 0 is the least significant (rule R8). -/
abbrev Byte := BitVec 8

/-- A 16-byte block on a 128-bit register or port (rule R9). -/
abbrev Block := BitVec 128

/-- One 4-byte word of the AES key schedule (rule R121). -/
abbrev KeyWord := BitVec 32

/-- Room for the longest key, 32 bytes (rule R32 ENCKEY, rule R124 `key`). -/
abbrev KeyBits := BitVec 256

/-- A length register: unsigned, 64 bits (rule R22). -/
abbrev Length := BitVec 64

end Sys2Proof
end

