-- ==== Sys2Proof/Config.lean ====
section
/-! DEFINITION. What is fixed for one CORE: the address spaces and their sizes (rule R50), the parameters of
rule R6, and the one free value of the model (rule R42). -/

namespace Sys2Proof

/-- The six address spaces of rule R50. They are disjoint: no byte belongs to two of them. -/
inductive Space where
  /-- 32 bytes, the key. -/
  | keybuf
  /-- 12 bytes, the nonce. -/
  | noncebuf
  /-- The associated data. -/
  | aadmem
  /-- ENCRYPT: the plaintext. DECRYPT: `ciphertext || tag`. -/
  | inmem
  /-- The result. -/
  | outmem
  /-- Internal: ciphertext or candidate plaintext of the running command (rule R37). -/
  | work
  deriving DecidableEq, Repr

namespace Config

/-- `MAX_INPUT_BYTES` of rule R6, 2^36 − 31: the named parameter at the default the spec gives it. -/
def maxInputBytes : Nat := 2 ^ 36 - 31

/-- `BUF_BYTES` of rule R6 and rule R50: "at least `MAX_INPUT_BYTES` + 16 ...; a model may take it as 2^64".
DESIGN CHOICE (log 5): 2^64. -/
def bufBytes : Nat := 2 ^ 64

/-- The size of each space in bytes (rule R50). -/
def spaceSize : Space → Nat
  | .keybuf => 32
  | .noncebuf => 12
  | .aadmem => bufBytes
  | .inmem => bufBytes
  | .outmem => bufBytes
  | .work => bufBytes

/-- FREE VALUE (rule R42, log 1): what a byte of a host-visible buffer holds that nothing has written since
reset number `epoch`. Rule R42: "any value (a draw), not ... zero": nothing constrains it, and no
statement may rest on what it is. -/
opaque unwrittenByte (epoch : Nat) (sp : Space) (addr : Nat) : Byte

/-- What an unlisted address of a space reads as. WORK is all zero after reset (rule R41); the other five
spaces are unspecified (rule R42), so an unlisted byte of theirs has no value of its own and a read draws
`unwrittenByte`. -/
def unlisted : Space → Option Byte
  | .work => some 0
  | .keybuf => none
  | .noncebuf => none
  | .aadmem => none
  | .inmem => none
  | .outmem => none

end Config
end Sys2Proof
end

