-- ==== Sys2Proof/Syntax.lean ====
section
/-! DEFINITION. The twelve operations of rule R81, one constructor per row of spec/opcode_table.json. No
operation has an operand field (rule R83: "every operand is implicit in the operation"), so no
constructor has an argument. -/

namespace Sys2Proof

inductive Instr where
  /-- 0x01 ENCRYPT, host command (rule R251). -/
  | encrypt
  /-- 0x02 DECRYPT, host command (rule R252). -/
  | decrypt
  /-- 0x10 AES.ENC128 (rule R125). -/
  | aesEnc128
  /-- 0x11 AES.ENC256 (rule R126). -/
  | aesEnc256
  /-- 0x20 PV.INIT (rule R150). -/
  | pvInit
  /-- 0x21 PV.ABSORB (rule R151). -/
  | pvAbsorb
  /-- 0x22 PV.READ (rule R152). -/
  | pvRead
  /-- 0x30 KDF.DERIVE128 (rule R176). -/
  | kdfDerive128
  /-- 0x31 KDF.DERIVE256 (rule R177). -/
  | kdfDerive256
  /-- 0x40 CTR.INIT (rule R193). -/
  | ctrInit
  /-- 0x41 CTR.NEXT (rule R194). -/
  | ctrNext
  /-- 0x42 CTR.XOR (rule R196). -/
  | ctrXor
  deriving DecidableEq, Repr

end Sys2Proof
end

