-- ==== Sys2Proof/Machine/HostSteps.lean ====
section
/-! DEFINITION. The moves of the agents outside the datapath (rule R16), as plain data: the host's steps in the
notation of rule R96, the reset event of rule R320, and the request of one unit operation (rule R80).
State holds a list of them, which the step reads. -/

namespace Sys2Proof.Machine

/-- The numbered host-interface registers HR1 to HR6 of rule R21. HR0 (CMD) is "not a storage register: a
write is an event" and has moves of its own below. -/
inductive HostReg where
  /-- HR1, RW. -/
  | keylen
  /-- HR2, RW. -/
  | noncelen
  /-- HR3, RW. -/
  | aadlen
  /-- HR4, RW. -/
  | msglen
  /-- HR5, RO: host writes are ignored. -/
  | status
  /-- HR6, RO: host writes are ignored. -/
  | outlen
  deriving DecidableEq, Repr

/-- One step of the host (rule R96), or the reset event. -/
inductive HostMove where
  /-- `CMD`: write the 8-bit register HR0 (rule R221). -/
  | writeCmd (v : BitVec 8)
  /-- Read HR0: WO, "host reads return 0" (rule R21). -/
  | readCmd
  /-- `WRREG name, value` (rule R21). -/
  | writeReg (r : HostReg) (v : BitVec 64)
  /-- `RDREG name`. -/
  | readReg (r : HostReg)
  /-- `WRBUF space, addr, bytes`: HostWrite of rule R53. -/
  | writeBuf (sp : Space) (addr : BitVec 64) (v : List Byte)
  /-- `RDBUF space, addr, n`: HostRead of rule R53. -/
  | readBuf (sp : Space) (addr : BitVec 64) (n : Nat)
  /-- The reset event of rule R320; a power-down is one too (rule R308). -/
  | reset
  deriving DecidableEq, Repr

/-- What the host's last read returned. -/
inductive HostResult where
  /-- No read yet. -/
  | nothing
  /-- A register's value, zero-extended to 64 bits. -/
  | value (v : BitVec 64)
  /-- The bytes of a buffer, in index order. -/
  | bytes (b : List Byte)
  deriving DecidableEq, Repr

/-- One entry of the list of things still to happen. -/
inductive Issue where
  /-- A move of the host or the reset event. -/
  | host (m : HostMove)
  /-- The request of one unit operation alone, by its 8-bit code (rules R80, R81; D5: it "lets a model and
  its tests address a unit alone"). -/
  | unit (code : BitVec 8)
  deriving DecidableEq, Repr

end Sys2Proof.Machine
end

