-- ==== Sys2Proof/WellFormed.lean ====
section
/-! DEFINITION. What is a well-formed operation and a well-formed host step. An operation has no operand field
(rule R83), so every term of Instr is well formed; the checks with something to refuse are those on
the host's steps: the access exists (rule R53) and lies inside its space (rule R53). -/

namespace Sys2Proof

/-- Rule R83: nothing is encoded besides UNIT and OP, so no constructor carries an operand that could be
ill formed. The match names every constructor, so that a new one must answer here. -/
def Instr.wellFormed : Instr → Bool
  | .encrypt | .decrypt => true
  | .aesEnc128 | .aesEnc256 => true
  | .pvInit | .pvAbsorb | .pvRead => true
  | .kdfDerive128 | .kdfDerive256 => true
  | .ctrInit | .ctrNext | .ctrXor => true

namespace Machine

/-- HostWrite exists for KEYBUF, NONCEBUF, AADMEM and INMEM (rules R50, R53). -/
def hostWritable : Space → Bool
  | .keybuf | .noncebuf | .aadmem | .inmem => true
  | .outmem | .work => false

/-- HostRead exists for every space but WORK (rules R50, R53). -/
def hostReadable : Space → Bool
  | .keybuf | .noncebuf | .aadmem | .inmem | .outmem => true
  | .work => false

/-- "need `addr+n` not above the size of the space" (rule R53), in unbounded integers (rule R11). -/
def insideSpace (sp : Space) (addr : BitVec 64) (n : Nat) : Bool :=
  decide (addr.toNat + n ≤ Config.spaceSize sp)

/-- The codes that have a meaning when written to CMD (rules R80, R90). -/
def hostCommandCode (v : BitVec 8) : Bool := v == 0x01#8 || v == 0x02#8

/-- The host steps the spec gives a meaning (rules R53, R92). -/
def HostMove.wellFormed : HostMove → Bool
  | .writeCmd v => hostCommandCode v
  | .readCmd => true
  | .writeReg _ _ => true
  | .readReg _ => true
  | .writeBuf sp addr v => hostWritable sp && insideSpace sp addr v.length
  | .readBuf sp addr n => hostReadable sp && insideSpace sp addr n
  | .reset => true

end Machine
end Sys2Proof
end

