-- ==== Sys2Proof/Decode.lean ====
section
/-! DEFINITION. The operation codes of rules R80 and R81: one format, 8 bits, UNIT in bits 7 to 4 and OP in bits 3
to 0, one length. The decoder is total on any bytes and rejects by name; the encoder follows it. -/

namespace Sys2Proof

/-- Why bytes are no operation. -/
inductive DecodeError where
  /-- There is no byte to read. -/
  | noByte
  /-- UNIT is 5 to 15: reserved (rule R80). -/
  | reservedUnit (unit : BitVec 4)
  /-- The unit exists and the table of rule R81 gives it no such OP (rules R81, R92). -/
  | reservedOp (unit op : BitVec 4)
  deriving DecidableEq, Repr

/-- Bits [7:4] of a code (rule R80). -/
def unitField (c : BitVec 8) : BitVec 4 := c.extractLsb' 4 4

/-- Bits [3:0] of a code (rule R80). -/
def opField (c : BitVec 8) : BitVec 4 := c.extractLsb' 0 4

/-- UNIT = 0, the orchestrator: host commands (rules R80, R81). -/
def decodeHostOp (op : BitVec 4) : Except DecodeError Instr :=
  match op.toNat with
  | 1 => .ok .encrypt
  | 2 => .ok .decrypt
  | _ => .error (.reservedOp 0 op)

/-- UNIT = 1, the AES core (rule R81). -/
def decodeAesOp (op : BitVec 4) : Except DecodeError Instr :=
  match op.toNat with
  | 0 => .ok .aesEnc128
  | 1 => .ok .aesEnc256
  | _ => .error (.reservedOp 1 op)

/-- UNIT = 2, POLYVAL (rule R81). -/
def decodePvOp (op : BitVec 4) : Except DecodeError Instr :=
  match op.toNat with
  | 0 => .ok .pvInit
  | 1 => .ok .pvAbsorb
  | 2 => .ok .pvRead
  | _ => .error (.reservedOp 2 op)

/-- UNIT = 3, subkey derivation (rule R81). -/
def decodeKdfOp (op : BitVec 4) : Except DecodeError Instr :=
  match op.toNat with
  | 0 => .ok .kdfDerive128
  | 1 => .ok .kdfDerive256
  | _ => .error (.reservedOp 3 op)

/-- UNIT = 4, CTR (rule R81). -/
def decodeCtrOp (op : BitVec 4) : Except DecodeError Instr :=
  match op.toNat with
  | 0 => .ok .ctrInit
  | 1 => .ok .ctrNext
  | 2 => .ok .ctrXor
  | _ => .error (.reservedOp 4 op)

/-- One code (rules R80, R81). -/
def decodeCode (c : BitVec 8) : Except DecodeError Instr :=
  match (unitField c).toNat with
  | 0 => decodeHostOp (opField c)
  | 1 => decodeAesOp (opField c)
  | 2 => decodePvOp (opField c)
  | 3 => decodeKdfOp (opField c)
  | 4 => decodeCtrOp (opField c)
  | _ => .error (.reservedUnit (unitField c))

/-- The operation at the head of a byte string, with the bytes after it. There is one length, one byte
(rule R80). -/
def decode : List Byte → Except DecodeError (Instr × List Byte)
  | [] => .error .noByte
  | c :: rest =>
    match decodeCode c with
    | .ok i => .ok (i, rest)
    | .error e => .error e

/-- Format H of rule R90: "the only codes that have a meaning when written to CMD" (rule R80). -/
def hostIssuable : Instr → Bool
  | .encrypt | .decrypt => true
  | .aesEnc128 | .aesEnc256 => false
  | .pvInit | .pvAbsorb | .pvRead => false
  | .kdfDerive128 | .kdfDerive256 => false
  | .ctrInit | .ctrNext | .ctrXor => false

/-- The decoder of the CMD register (rule R90): "code 0x01 → ENCRYPT; 0x02 → DECRYPT; anything else →
reserved". -/
def decodeCmd (v : BitVec 8) : Option Instr :=
  match decodeCode v with
  | .ok i => if hostIssuable i then some i else none
  | .error _ => none

/-- The decoder of a unit request (rule R80: UNIT = 1 to 4). -/
def decodeUnitCode (c : BitVec 8) : Option Instr :=
  match decodeCode c with
  | .ok i => if hostIssuable i then none else some i
  | .error _ => none

/-- The UNIT of each operation (rule R81). -/
def Instr.unitCode : Instr → BitVec 4
  | .encrypt | .decrypt => 0
  | .aesEnc128 | .aesEnc256 => 1
  | .pvInit | .pvAbsorb | .pvRead => 2
  | .kdfDerive128 | .kdfDerive256 => 3
  | .ctrInit | .ctrNext | .ctrXor => 4

/-- The OP of each operation within its unit (rule R81). -/
def Instr.opCode : Instr → BitVec 4
  | .encrypt => 1
  | .decrypt => 2
  | .aesEnc128 => 0
  | .aesEnc256 => 1
  | .pvInit => 0
  | .pvAbsorb => 1
  | .pvRead => 2
  | .kdfDerive128 => 0
  | .kdfDerive256 => 1
  | .ctrInit => 0
  | .ctrNext => 1
  | .ctrXor => 2

/-- The 8-bit code of an operation (rule R80). -/
def encodeCode (i : Instr) : BitVec 8 := i.unitCode ++ i.opCode

/-- The bytes of an operation. -/
def encode (i : Instr) : List Byte := [encodeCode i]

/-- The bytes of a word of `n` bytes as the table numbers its bits: byte `k` is bits `8k+7` to `8k`. -/
def tableBytes : Nat → Nat → List Byte
  | 0, _ => []
  | n + 1, w => BitVec.ofNat 8 w :: tableBytes n (w / 256)

/-- What the decoder reads from a table row's word; a code is one byte and nothing may follow it. -/
def decodeTableWord (nbits w : Nat) : Option Instr :=
  match decode (tableBytes (nbits / 8) w) with
  | .ok (i, []) => some i
  | .ok (_, _ :: _) => none
  | .error _ => none

end Sys2Proof
end

