-- ==== Sys2Proof/Machine/Bytes.lean ====
section
/-! DEFINITION. Bytes of a value, byte strings and the integers in them (rules R7 to R11). One byte order for the
whole model: byte `j` of a value is bits `[8j+7:8j]` (rule R9). -/

namespace Sys2Proof.Machine

/-- Byte `j` of a value (rule R9). -/
def byteAt {w : Nat} (v : BitVec w) (j : Nat) : Byte := v.extractLsb' (8 * j) 8

/-- `le_int(b)` (rule R10): the little-endian integer of a byte string. -/
def leInt : List Byte → Nat
  | [] => 0
  | b :: bs => b.toNat + 256 * leInt bs

/-- `bits(b)` (rule R9): the value whose byte `j` is `b[j]`; bytes beyond the string are 0. -/
def bits (w : Nat) (b : List Byte) : BitVec w := BitVec.ofNat w (leInt b)

/-- The first `n` bytes of a value in index order: the inverse of `bits` (rule R9). -/
def bytesOf {w : Nat} (n : Nat) (v : BitVec w) : List Byte := (List.range n).map (byteAt v)

/-- `bytes16(v)` (rule R9). -/
def bytes16 (v : Block) : List Byte := bytesOf 16 v

/-- The `n`-byte little-endian string of `v`, modulo 2^(8n): `LE32` is `n` = 4, `LE64` is `n` = 8 (rule
R10). -/
def leBytes (n v : Nat) : List Byte := (List.range n).map fun j => BitVec.ofNat 8 (v >>> (8 * j))

/-- `zeros(n)` (rule R7). -/
def zeros (n : Nat) : List Byte := List.replicate n 0

/-- `pad16(b)` (rule R11). -/
def pad16 (b : List Byte) : List Byte := b ++ zeros ((16 - b.length % 16) % 16)

/-- `ceil(L/16)`: how many blocks a string of `L` bytes has (rule R57). -/
def blockCount (L : Nat) : Nat := (L + 15) / 16

/-- How many bytes block `i` of a string of `L` bytes has: `min(16, L − 16i)` (rules R57, R232). -/
def blockLen (L i : Nat) : Nat := min 16 (L - 16 * i)

/-- The block whose byte `k` is `f k`. -/
def blockOf (f : Nat → Byte) : Block := bits 128 ((List.range 16).map f)

/-- Bytewise xor of data with the leading bytes of a block (rules R11, R196). -/
def xorBytes (d : List Byte) (k : Block) : List Byte := List.zipWith (· ^^^ ·) d (bytes16 k)

end Sys2Proof.Machine
end

