-- ==== Sys2Proof/Machine/State.lean ====
section
/-! DEFINITION. The state of one CORE instance (rule R20) as plain data, the reasons a step can stop, and the state
after reset (rules R41, R42). -/

namespace Sys2Proof.Machine

/-- The sequencer states of rule R27. Values 6 and 7 of the 3-bit register "never occur". -/
inductive Phase where
  /-- 0: no command running. -/
  | idle
  /-- 1: validation and key derivation (rule R223). -/
  | init
  /-- 2 (rule R232). -/
  | hash
  /-- 3 (rule R240). -/
  | deriveTag
  /-- 4 (rule R244). -/
  | keystream
  /-- 5 (rule R250). -/
  | finalize
  deriving DecidableEq, Repr

/-- The five error kinds of rule R280. -/
inductive ErrorKind where
  /-- Key not 16 or 32 bytes (rule R282). -/
  | invalidKeySize
  /-- Nonce not 12 bytes (rule R284). -/
  | invalidNonceSize
  /-- Combined AAD and message over `MAX_INPUT_BYTES` (rule R283). -/
  | inputTooLarge
  /-- DECRYPT input shorter than the tag (rule R285). -/
  | malformedCiphertext
  /-- Tag mismatch on DECRYPT (rule R286). -/
  | authenticationFailure
  deriving DecidableEq, Repr

/-- One address space: (index, byte) pairs in the canonical form of `Memory.wf` (Machine/Ops.lean). -/
abbrev Memory := List Host.Cell

/-- Everything the spec gives one CORE instance (rule R20), then the model's own fields: the operand values
of a unit operation issued alone, what is still to happen, and what the host last read. -/
structure State where
  /-- HR1 KEYLEN (rules R21, R22). -/
  keylen : Length
  /-- HR2 NONCELEN. -/
  noncelen : Length
  /-- HR3 AADLEN. -/
  aadlen : Length
  /-- HR4 MSGLEN. -/
  msglen : Length
  /-- HR5 STATUS: the whole 32-bit word (rule R24); its fields are read in Machine/Flags.lean. -/
  status : BitVec 32
  /-- HR6 OUTLEN (rule R26). -/
  outlen : Length
  /-- PHASE (rule R27). -/
  phase : Phase
  /-- DIR (rule R29): false = 0 = ENCRYPT, true = 1 = DECRYPT. -/
  dir : Bool
  /-- KSZ (rule R29): false = 0 = 16-byte key, true = 1 = 32-byte key. -/
  ksz : Bool
  /-- L_AAD (rule R29). -/
  lAad : Length
  /-- L_MSG (rule R29). -/
  lMsg : Length
  /-- ERRL (rule R29): pending error code, 0 = none. -/
  errl : BitVec 4
  /-- AUTHKEY (rule R32). -/
  authkey : Block
  /-- ENCKEY (rule R32). -/
  enckey : KeyBits
  /-- H, the POLYVAL hash key (rule R32). -/
  polyH : Block
  /-- S, the POLYVAL accumulator (rules R32, R33). -/
  polyS : Block
  /-- TAG, the computed tag (rule R32). -/
  tag : Block
  /-- RTAG, the received tag (rule R32). -/
  rtag : Block
  /-- CB, the counter block encrypted next (rule R32). -/
  cb : Block
  /-- KS, the current keystream block (rule R32). -/
  ks : Block
  /-- KEYBUF (rule R50). -/
  keybuf : Memory
  /-- NONCEBUF (rule R50). -/
  noncebuf : Memory
  /-- AADMEM (rule R50). -/
  aadmem : Memory
  /-- INMEM (rule R50). -/
  inmem : Memory
  /-- OUTMEM (rule R50). -/
  outmem : Memory
  /-- WORK (rules R37, R50). -/
  work : Memory
  /-- MODEL'S OWN (log 2): the `key` of an AES request (rule R124). -/
  aesKey : KeyBits
  /-- MODEL'S OWN (log 2): the `in` of an AES request. -/
  aesIn : Block
  /-- MODEL'S OWN (log 2): the `out` of an AES response. -/
  aesOut : Block
  /-- MODEL'S OWN (log 2): the `blk` of an absorb request (rule R157). -/
  pvIn : Block
  /-- MODEL'S OWN (log 2): the response of a read request (rule R157). -/
  pvOut : Block
  /-- MODEL'S OWN (log 2): the `t` of a CTR init request (rule R200). -/
  ctrSeed : Block
  /-- MODEL'S OWN (log 2): the `d` of a CTR xor request; byte `k` < `r` counts. -/
  ctrIn : Block
  /-- MODEL'S OWN (log 2): the `r` of a CTR xor request, 0 to 16. -/
  ctrLen : Fin 17
  /-- MODEL'S OWN (log 2): the response of a CTR xor request; bytes from `r` on are 0. -/
  ctrOut : Block
  /-- MODEL'S OWN (log 3): the host's steps and unit requests still to happen, the next one first. -/
  pending : List Issue
  /-- MODEL'S OWN (log 3): what the host's last read returned. -/
  hostRead : HostResult
  /-- MODEL'S OWN (log 1): how many reset events have happened, the index of the free buffer bytes. -/
  epoch : Nat
  deriving DecidableEq, Repr

/-- Why the machine stops with a fault. -/
inductive Fault where
  /-- A host buffer access whose bytes do not all lie inside the space: rule R53 "need `addr+n` not above the
  size of the space". Raised by HostWrite and HostRead. Safe: the model stops. -/
  | outsideSpace (sp : Space)
  deriving DecidableEq, Repr

/-- Why the model gives a step no meaning. -/
inductive Refusal where
  /-- An operation with no meaning yet, by its mnemonic. Raised by exec's arms alone. Safe: the model stops. -/
  | notModelled (mnemonic : String)
  /-- A CMD write of a value other than 0x01 and 0x02: rule R92 "a model should treat a reserved CMD write as
  `refuse`". Raised by the CMD write. Safe: the model stops. -/
  | reservedCommand (code : BitVec 8)
  /-- A unit request whose code is no unit operation of rule R81. Raised by the unit request. Safe: the
  model stops. -/
  | reservedUnitCode (code : BitVec 8)
  /-- A host access while STATUS.BUSY = 1: rule R31 "a model must treat such an access as `refuse`". Raised by
  every host access and by a command. Safe: the model stops. -/
  | accessWhileBusy
  /-- A host write to OUTMEM or any host access to WORK: rule R53 "does not exist (`refuse`)". Raised by
  HostWrite and HostRead. Safe: the model stops. -/
  | noSuchAccess (sp : Space)
  deriving DecidableEq, Repr

/-- The state right after reset (rule R41): every register 0, PHASE = IDLE, WORK zero; the five host-visible
buffers list nothing, so that each of their bytes is a free value (rule R42). The model's own fields are
0 or empty (DESIGN CHOICE, logs 1 to 3). -/
def State.reset : State where
  keylen := 0
  noncelen := 0
  aadlen := 0
  msglen := 0
  status := 0
  outlen := 0
  phase := .idle
  dir := false
  ksz := false
  lAad := 0
  lMsg := 0
  errl := 0
  authkey := 0
  enckey := 0
  polyH := 0
  polyS := 0
  tag := 0
  rtag := 0
  cb := 0
  ks := 0
  keybuf := []
  noncebuf := []
  aadmem := []
  inmem := []
  outmem := []
  work := []
  aesKey := 0
  aesIn := 0
  aesOut := 0
  pvIn := 0
  pvOut := 0
  ctrSeed := 0
  ctrIn := 0
  ctrLen := 0
  ctrOut := 0
  pending := []
  hostRead := .nothing
  epoch := 0

end Sys2Proof.Machine
end

