-- ==== Sys2Proof/Machine/Flags.lean ====
section
/-! DEFINITION. The only flags of the CORE (rule R30): STATUS and its fields (rule R24), the error codes (rule
R281), and the numbers of PHASE (rule R27). -/

namespace Sys2Proof.Machine

/-- STATUS.BUSY, bit 0 (rule R24). -/
def statusBusy (v : BitVec 32) : Bool := v.getLsbD 0

/-- STATUS.DONE, bit 1. -/
def statusDone (v : BitVec 32) : Bool := v.getLsbD 1

/-- STATUS.ERROR, bit 2. -/
def statusError (v : BitVec 32) : Bool := v.getLsbD 2

/-- STATUS.ERRCODE, bits 7 to 4. -/
def statusErrcode (v : BitVec 32) : BitVec 4 := v.extractLsb' 4 4

/-- STATUS at CMD acceptance (rule R221): BUSY alone. -/
def statusAccepted : BitVec 32 := 0x00000001#32

/-- STATUS after a success (rule R250): DONE alone. -/
def statusSuccess : BitVec 32 := 0x00000002#32

/-- STATUS after an error (rule R250): `0x0000_0006 or (ERRL << 4)`. -/
def statusFailure (errl : BitVec 4) : BitVec 32 := 0x00000006#32 ||| errl.setWidth 32 <<< 4

/-- The error codes of rule R281. -/
def ErrorKind.code : ErrorKind → BitVec 4
  | .invalidKeySize => 1
  | .invalidNonceSize => 2
  | .inputTooLarge => 3
  | .malformedCiphertext => 4
  | .authenticationFailure => 5

/-- The values of the 3-bit register PHASE (rule R27). -/
def Phase.code : Phase → BitVec 3
  | .idle => 0
  | .init => 1
  | .hash => 2
  | .deriveTag => 3
  | .keystream => 4
  | .finalize => 5

/-- STATUS.BUSY of a state: while it is 1 the host takes no step (rule R31). -/
def State.busy (s : State) : Bool := statusBusy s.status

end Sys2Proof.Machine
end

