-- ==== Sys2Proof/Machine/Ops.lean ====
section
/-! DEFINITION. The named operations over memory and registers: the canonical list of an address space, MemRead
and MemWrite of rule R12, and the one operation that takes an error (rule R292). -/

namespace Sys2Proof.Machine

/-! ### One address space -/

/-- The byte listed at an index, if any. -/
def Memory.get? (a : Nat) : Memory → Option Byte
  | [] => none
  | (b, v) :: m => if b = a then some v else Memory.get? a m

/-- List a byte at an index, keeping the indices strictly rising. -/
def Memory.insert (a : Nat) (v : Byte) : Memory → Memory
  | [] => [(a, v)]
  | (b, w) :: m =>
    if a < b then (a, v) :: (b, w) :: m
    else if a = b then (a, v) :: m
    else (b, w) :: Memory.insert a v m

/-- Take an index out of the list. -/
def Memory.remove (a : Nat) (m : Memory) : Memory := m.filter fun c => c.1 ≠ a

/-- Write one byte of a space: the value an unlisted index reads as is never listed. -/
def Memory.write (sp : Space) (a : Nat) (v : Byte) (m : Memory) : Memory :=
  if Config.unlisted sp = some v then Memory.remove a m else Memory.insert a v m

/-- Write a byte string at consecutive indices. -/
def Memory.writeBytes (sp : Space) : Nat → List Byte → Memory → Memory
  | _, [], m => m
  | a, v :: vs, m => Memory.writeBytes sp (a + 1) vs (Memory.write sp a v m)

/-- The canonical form: indices strictly rising, all inside the space, and no entry equal to what an
unlisted index reads as. -/
def Memory.wf (sp : Space) (m : Memory) : Bool :=
  decide (m.Pairwise fun c d => c.1 < d.1) &&
    m.all fun c => decide (c.1 < Config.spaceSize sp) && decide (Config.unlisted sp ≠ some c.2)

/-! ### The spaces of a state -/

/-- The contents of a space. -/
def State.mem (sp : Space) (s : State) : Memory :=
  match sp with
  | .keybuf => s.keybuf
  | .noncebuf => s.noncebuf
  | .aadmem => s.aadmem
  | .inmem => s.inmem
  | .outmem => s.outmem
  | .work => s.work

/-- Replace the contents of a space. -/
def State.setMem (sp : Space) (m : Memory) (s : State) : State :=
  match sp with
  | .keybuf => { s with keybuf := m }
  | .noncebuf => { s with noncebuf := m }
  | .aadmem => { s with aadmem := m }
  | .inmem => { s with inmem := m }
  | .outmem => { s with outmem := m }
  | .work => { s with work := m }

/-- What an index that lists nothing reads as after `epoch` resets: 0 in WORK (rule R41), a free value
elsewhere (rule R42). -/
def unlistedByte (epoch : Nat) (sp : Space) (a : Nat) : Byte :=
  (Config.unlisted sp).getD (Config.unwrittenByte epoch sp a)

/-- The byte a space holds at an index: THE read of one byte. -/
def State.peek (sp : Space) (a : Nat) (s : State) : Byte :=
  (Memory.get? a (s.mem sp)).getD (unlistedByte s.epoch sp a)

/-- `MemRead(space, addr, n)` (rule R12). -/
def State.memRead (sp : Space) (addr n : Nat) (s : State) : List Byte :=
  (List.range n).map fun i => s.peek sp (addr + i)

/-- `MemWrite(space, addr, n, v)` (rule R12). -/
def State.memWrite (sp : Space) (addr : Nat) (v : List Byte) (s : State) : State :=
  s.setMem sp (Memory.writeBytes sp addr v (s.mem sp))

/-! ### Register writes, each under a name of its own -/

/-- Write PHASE (rule R34). -/
def State.setPhase (p : Phase) (s : State) : State := { s with phase := p }

/-- Write OUTLEN and STATUS together, as FINALIZE does (rule R250). -/
def State.setResult (n : Length) (v : BitVec 32) (s : State) : State :=
  { s with outlen := n, status := v }

/-- Write AUTHKEY and ENCKEY (rule R35). -/
def State.setKeys (a : Block) (e : KeyBits) (s : State) : State :=
  { s with authkey := a, enckey := e }

/-- Write the accumulator S (rule R33). -/
def State.setPolyS (v : Block) (s : State) : State := { s with polyS := v }

/-- Write TAG (rule R240). -/
def State.setTag (v : Block) (s : State) : State := { s with tag := v }

/-- Write RTAG (rule R223). -/
def State.setRtag (v : Block) (s : State) : State := { s with rtag := v }

/-- Write CB (rule R193). -/
def State.setCb (v : Block) (s : State) : State := { s with cb := v }

/-- Write KS and CB together, as CTR.NEXT does (rule R194). -/
def State.setCtr (k c : Block) (s : State) : State := { s with ks := k, cb := c }

/-- The response of an AES request (rule R124). -/
def State.setAesOut (v : Block) (s : State) : State := { s with aesOut := v }

/-- The response of a POLYVAL read request (rule R157). -/
def State.setPvOut (v : Block) (s : State) : State := { s with pvOut := v }

/-- The response of a CTR xor request (rule R200). -/
def State.setCtrOut (v : Block) (s : State) : State := { s with ctrOut := v }

/-- What a host read returns. -/
def State.setHostRead (r : HostResult) (s : State) : State := { s with hostRead := r }

/-- What is still to happen. -/
def State.setPending (l : List Issue) (s : State) : State := { s with pending := l }

/-! ### Taking an error -/

/-- `raise K` (rule R292): the CORE's exception entry. "Nothing is saved anywhere, no mode or mask changes,
no stack exists, and control goes to no vector: the only destination is FINALIZE." There is no return
operation (rule R295): FINALIZE itself brings the CORE back to IDLE. -/
def raise (k : ErrorKind) (s : State) : State :=
  { s with errl := k.code, phase := .finalize }

end Sys2Proof.Machine
end

