-- ==== Sys2Proof/Machine/Operands.lean ====
section
/-! DEFINITION. Every operand form of the CORE: no operand is encoded (rule R83), so these are the operands read
from the buffers and the five data blocks assembled from parts (rules R84 to R89). -/

namespace Sys2Proof.Machine

/-- The long-term key: KEYBUF[0..16) or KEYBUF[0..32) by KSZ (rules R52, R176, R177). -/
@[irreducible] def keyOperand (ksz : Bool) (s : State) : KeyBits :=
  bits 256 (s.memRead .keybuf 0 (if ksz then 32 else 16))

/-- The nonce: NONCEBUF[0..12) (rule R52). -/
@[irreducible] def nonceOperand (s : State) : List Byte := s.memRead .noncebuf 0 12

/-- Derivation block `i`: `LE32(i) || nonce` (rule R84). -/
@[irreducible] def derivationBlock (i : Nat) (nonce : List Byte) : Block := bits 128 (leBytes 4 i ++ nonce)

/-- The length block: `LE64(8 * L_AAD) || LE64(8 * L_MSG)` (rules R85, R233). -/
@[irreducible] def lengthBlock (lAad lMsg : Nat) : Block :=
  bits 128 (leBytes 8 (8 * lAad) ++ leBytes 8 (8 * lMsg))

/-- The tag input S' (rules R86, R240 to R242): the nonce xored into bytes 0 to 11, bytes 12 to 14 as they
are, and bit 7 of byte 15 cleared. -/
@[irreducible] def tagInput (p : Block) (nonce : List Byte) : Block :=
  blockOf fun j =>
    if j < 12 then byteAt p j ^^^ nonce.getD j 0
    else if j = 15 then byteAt p 15 &&& 0x7f#8
    else byteAt p j

/-- The starting counter block: bit 127 of the seed tag set (rules R87, R193). -/
@[irreducible] def counterStart (t : Block) : Block := t ||| BitVec.twoPow 128 127

/-- The counter advance: `+ 1 mod 2^32` on bytes 0 to 3, little-endian; bytes 4 to 15 unchanged (rules R194,
R195). -/
@[irreducible] def counterStep (cb : Block) : Block := cb.extractLsb' 32 96 ++ (cb.extractLsb' 0 32 + 1#32)

/-- Block `i` of the `L` bytes of a space, zero-padded to 16 bytes (rules R57, R60, R232). -/
def hashBlock (sp : Space) (L i : Nat) (s : State) : Block :=
  bits 128 (s.memRead sp (16 * i) (blockLen L i) ++ zeros (16 - blockLen L i))

/-- The padded blocks of the first `L` bytes of a space, in ascending order (rules R57, R154). -/
def hashBlocks (sp : Space) (L : Nat) (s : State) : List Block :=
  (List.range (blockCount L)).map fun i => hashBlock sp L i s

end Sys2Proof.Machine
end

