-- ==== Sys2Proof/Machine/Aes.lean ====
section
/-! DEFINITION. The AES core: the S-box and byte arithmetic (rules R114 to R116), the four transformations
(rules R117 to R120), the key expansion (rule R121), the cipher (rule R122), and the meanings of
AES.ENC128 and AES.ENC256 (rules R125, R126). -/

namespace Sys2Proof.Machine

/-- The S-box table as rule R116 prints it: entry `16*row + col` is byte `col` of row `row`, the leftmost
first. -/
def sboxRows : List Nat :=
  [0x637c777bf26b6fc53001672bfed7ab76,
   0xca82c97dfa5947f0add4a2af9ca472c0,
   0xb7fd9326363ff7cc34a5e5f171d83115,
   0x04c723c31896059a071280e2eb27b275,
   0x09832c1a1b6e5aa0523bd6b329e32f84,
   0x53d100ed20fcb15b6acbbe394a4c58cf,
   0xd0efaafb434d338545f9027f503c9fa8,
   0x51a3408f929d38f5bcb6da2110fff3d2,
   0xcd0c13ec5f974417c4a77e3d645d1973,
   0x60814fdc222a908846eeb814de5e0bdb,
   0xe0323a0a4906245cc2d3ac629195e479,
   0xe7c8376d8dd54ea96c56f4ea657aae08,
   0xba78252e1ca6b4c6e8dd741f4bbd8b8a,
   0x703eb5664803f60e613557b986c11d9e,
   0xe1f8981169d98e949b1e87e9ce5528df,
   0x8ca1890dbfe6426841992d0fb054bb16]

/-- `SBOX[a]` (rule R116): row = high nibble, column = low nibble. -/
def sbox (a : Byte) : Byte :=
  BitVec.ofNat 8 (sboxRows.getD (a.toNat / 16) 0 >>> (8 * (15 - a.toNat % 16)))

/-- Multiplication by x in the field of rule R114. -/
def xtime (a : Byte) : Byte := if a.getLsbD 7 then (a <<< 1) ^^^ 0x1b#8 else a <<< 1

/-- `gmul(a, 2)` (rule R114). -/
def gmul2 (a : Byte) : Byte := xtime a

/-- `gmul(a, 3)` (rule R114). -/
def gmul3 (a : Byte) : Byte := xtime a ^^^ a

/-- Step `n` of the general product of the field of rule R114. -/
def gmulLoop (b : Byte) : (n i : Nat) → (r t : Byte) → Byte
  | 0, _, r, _ => r
  | n + 1, i, r, t => gmulLoop b n (i + 1) (if b.getLsbD i then r ^^^ t else r) (xtime t)

/-- The product of two bytes in the field of rule R114, in which rule R115's inverses are taken. -/
def gmul (a b : Byte) : Byte := gmulLoop b 8 0 0 a

/-- SubBytes (rule R117). -/
def subBytes (b : Block) : Block := blockOf fun k => sbox (byteAt b k)

/-- ShiftRows (rule R118): `b'[r + 4c] = b[r + 4((c + r) mod 4)]`, with `k = r + 4c`. -/
def shiftRows (b : Block) : Block :=
  blockOf fun k => byteAt b (k % 4 + 4 * ((k / 4 + k % 4) % 4))

/-- One byte of MixColumns (rule R119): `a0` is the byte of the same row, `a1`, `a2`, `a3` those of the next
rows down the column, cyclically. -/
def mixByte (a0 a1 a2 a3 : Byte) : Byte := gmul2 a0 ^^^ gmul3 a1 ^^^ a2 ^^^ a3

/-- MixColumns (rule R119): row `r` of a column is `mixByte` of the column read cyclically from row `r`. -/
def mixColumns (b : Block) : Block :=
  blockOf fun k =>
    mixByte (byteAt b (4 * (k / 4) + k % 4)) (byteAt b (4 * (k / 4) + (k + 1) % 4))
      (byteAt b (4 * (k / 4) + (k + 2) % 4)) (byteAt b (4 * (k / 4) + (k + 3) % 4))

/-- AddRoundKey (rule R120). -/
def addRoundKey (b rk : Block) : Block := b ^^^ rk

/-- RotWord (rule R121): `(t[1], t[2], t[3], t[0])`. -/
def rotWord (t : KeyWord) : KeyWord := bits 32 ((List.range 4).map fun j => byteAt t ((j + 1) % 4))

/-- SubWord (rule R121): the S-box on each byte. -/
def subWord (t : KeyWord) : KeyWord := bits 32 ((List.range 4).map fun j => sbox (byteAt t j))

/-- `RCON[1..10]` (rule R121). -/
def rcon (i : Nat) : Byte :=
  [0x01#8, 0x02#8, 0x04#8, 0x08#8, 0x10#8, 0x20#8, 0x40#8, 0x80#8, 0x1b#8, 0x36#8].getD (i - 1) 0

/-- The value `t` that word `i` xors with word `i − Nk`, from word `i − 1` (rule R121). -/
def keyTemp (nk i : Nat) (t : KeyWord) : KeyWord :=
  if i % nk = 0 then subWord (rotWord t) ^^^ (rcon (i / nk)).setWidth 32
  else if nk = 8 ∧ i % nk = 4 then subWord t
  else t

/-- The loop of rule R121 from word `i` on, `n` words, the words so far listed newest first. -/
def expandLoop (nk : Nat) : (n i : Nat) → List KeyWord → List KeyWord
  | 0, _, ws => ws
  | n + 1, i, ws =>
    expandLoop nk n (i + 1) ((ws.getD (nk - 1) 0 ^^^ keyTemp nk i (ws.getD 0 0)) :: ws)

/-- Rounds for a key of `Nk` words: `Nr` = `Nk` + 6 (rule R121). -/
def roundsOf (nk : Nat) : Nat := nk + 6

/-- The expanded key `w[0..4*(Nr+1))` (rule R121); word `i` of the key is its bytes `4i` to `4i+3`. -/
@[irreducible] def expandKey (nk : Nat) (key : KeyBits) : List KeyWord :=
  (expandLoop nk (4 * (roundsOf nk + 1) - nk) nk
    ((List.range nk).map fun i => key.extractLsb' (32 * i) 32).reverse).reverse

/-- Round key `r`: `w[4r] || w[4r+1] || w[4r+2] || w[4r+3]` (rule R121). -/
def roundKey (w : List KeyWord) (r : Nat) : Block :=
  w.getD (4 * r + 3) 0 ++ w.getD (4 * r + 2) 0 ++ w.getD (4 * r + 1) 0 ++ w.getD (4 * r) 0

/-- A round other than the last (rule R122). -/
def aesRound (rk st : Block) : Block := addRoundKey (mixColumns (shiftRows (subBytes st))) rk

/-- The last round: no MixColumns (rule R122). -/
def aesLastRound (rk st : Block) : Block := addRoundKey (shiftRows (subBytes st)) rk

/-- Rounds `1` to `n` of rule R122 from a state. -/
def aesRounds (w : List KeyWord) (n : Nat) (st : Block) : Block :=
  (List.range n).foldl (fun st r => aesRound (roundKey w (r + 1)) st) st

/-- `AES_Encrypt` with round keys from `w` and `Nr` rounds (rule R122). -/
@[irreducible] def aesCipher (w : List KeyWord) (nr : Nat) (blk : Block) : Block :=
  aesLastRound (roundKey w nr) (aesRounds w (nr - 1) (addRoundKey blk (roundKey w 0)))

/-- `AES.ENC128(key, in)` (rule R125): `Nk` = 4, `Nr` = 10; bytes 16 to 31 of the port are ignored (rule
R124). -/
def aesEnc128 (key : KeyBits) (blk : Block) : Block := aesCipher (expandKey 4 key) (roundsOf 4) blk

/-- `AES.ENC256(key, in)` (rule R126): `Nk` = 8, `Nr` = 14. -/
def aesEnc256 (key : KeyBits) (blk : Block) : Block := aesCipher (expandKey 8 key) (roundsOf 8) blk

/-- `block_encrypt(key, in)` (rule R127): inside a command the choice is made by KSZ (rule R91). -/
@[irreducible] def blockEncrypt (ksz : Bool) (key : KeyBits) (blk : Block) : Block :=
  if ksz then aesEnc256 key blk else aesEnc128 key blk

/-- AES.ENC128 (rule R125): `out <- AES_Encrypt(key, in)`; no flag, no error (rule R111). -/
def execAesEnc128 (s : State) : Host.Outcome State Fault Refusal :=
  .next (s.setAesOut (aesEnc128 s.aesKey s.aesIn))

/-- AES.ENC256 (rule R126): `out <- AES_Encrypt(key, in)`; no flag, no error (rule R111). -/
def execAesEnc256 (s : State) : Host.Outcome State Fault Refusal :=
  .next (s.setAesOut (aesEnc256 s.aesKey s.aesIn))

end Sys2Proof.Machine
end

