-- ==== Sys2Proof/Machine/Ctr.lean ====
section
/-! DEFINITION. The CTR-mode counter and keystream manager: rules R190 to R197 and the meanings of CTR.INIT,
CTR.NEXT and CTR.XOR. -/

namespace Sys2Proof.Machine

/-- `CB <- bits(t) or 2^127` (rule R193). -/
def ctrInit (t : Block) (s : State) : State := s.setCb (counterStart t)

/-- `KS <- block_encrypt(ENCKEY by KSZ, CB)`, then the counter of CB advances (rule R194). -/
def ctrNext (s : State) : State :=
  s.setCtr (blockEncrypt s.ksz s.enckey s.cb) (counterStep s.cb)

/-- `d'[k] = d[k] xor bytes16(KS)[k]` (rule R196). -/
def ctrXor (d : List Byte) (s : State) : List Byte := xorBytes d s.ks

/-- One turn of the keystream pass (rule R197): block `j` of an `L`-byte message, INMEM to WORK. -/
def keystreamBlock (L j : Nat) (s : State) : State :=
  (ctrNext s).memWrite .work (16 * j)
    (ctrXor (s.memRead .inmem (16 * j) (blockLen L j)) (ctrNext s))

/-- `keystream_pass(t, INMEM, L)` (rule R197). -/
def keystreamPass (t : Block) (L : Nat) (s : State) : State :=
  (List.range (blockCount L)).foldl (fun s j => keystreamBlock L j s) (ctrInit t s)

/-- CTR.INIT (rule R193): any of the 2^128 seeds is accepted; no flag, no error. -/
def execCtrInit (s : State) : Host.Outcome State Fault Refusal := .next (ctrInit s.ctrSeed s)

/-- CTR.NEXT (rule R194): the wrap of the counter sets no flag and raises no error. -/
def execCtrNext (s : State) : Host.Outcome State Fault Refusal := .next (ctrNext s)

/-- CTR.XOR (rule R196) of the `r` bytes of the request; the keystream bytes from `r` on are discarded. -/
def execCtrXor (s : State) : Host.Outcome State Fault Refusal :=
  .next (s.setCtrOut (bits 128 (ctrXor (bytesOf s.ctrLen.val s.ctrIn) s)))

end Sys2Proof.Machine
end

