-- ==== Sys2Proof/Machine/Kdf.lean ====
section
/-! DEFINITION. The subkey derivation controller: rules R170 to R177 and the meanings of KDF.DERIVE128 and
KDF.DERIVE256. -/

namespace Sys2Proof.Machine

/-- Subkey half `i`: bytes 0 to 7 of the AES output for derivation block `i` under the long-term key (rules
R89, R172). -/
def subkeyHalf (ksz : Bool) (key : KeyBits) (nonce : List Byte) (i : Nat) : List Byte :=
  bytesOf 8 (blockEncrypt ksz key (derivationBlock i nonce))

/-- The concatenation of subkey halves `i`, `i+1`, ..., `n` of them (rules R89, R171). -/
def subkeyHalves (ksz : Bool) (key : KeyBits) (nonce : List Byte) (i n : Nat) : List Byte :=
  (List.range n).flatMap fun j => subkeyHalf ksz key nonce (i + j)

/-- `auth_key`: the first two halves, for both key sizes (rules R89, R176, R177). -/
@[irreducible] def deriveAuthKey (ksz : Bool) (key : KeyBits) (nonce : List Byte) : Block :=
  bits 128 (subkeyHalves ksz key nonce 0 2)

/-- `enc_key`: the remaining two halves for a 16-byte key (bytes 16 to 31 are then 0) or four for a 32-byte
key (rules R89, R176, R177). -/
@[irreducible] def deriveEncKey (ksz : Bool) (key : KeyBits) (nonce : List Byte) : KeyBits :=
  bits 256 (subkeyHalves ksz key nonce 2 (if ksz then 4 else 2))

/-- `KDF.DERIVE128` as the orchestrator issues it (rule R176). -/
def kdfDerive128 (s : State) : State :=
  s.setKeys (deriveAuthKey false (keyOperand false s) (nonceOperand s))
    (deriveEncKey false (keyOperand false s) (nonceOperand s))

/-- `KDF.DERIVE256` as the orchestrator issues it (rule R177). -/
def kdfDerive256 (s : State) : State :=
  s.setKeys (deriveAuthKey true (keyOperand true s) (nonceOperand s))
    (deriveEncKey true (keyOperand true s) (nonceOperand s))

/-- KDF.DERIVE128 (rule R176): no flag, no error (rule R174). -/
def execKdfDerive128 (s : State) : Host.Outcome State Fault Refusal := .next (kdfDerive128 s)

/-- KDF.DERIVE256 (rule R177): no flag, no error (rule R174). -/
def execKdfDerive256 (s : State) : Host.Outcome State Fault Refusal := .next (kdfDerive256 s)

end Sys2Proof.Machine
end

