-- ==== Sys2Proof/Machine/Polyval.lean ====
section
/-! DEFINITION. The POLYVAL unit: the field of rules R141 to R147 on 128-bit values, where bit `k` is the
coefficient of x^k, and the meanings of PV.INIT, PV.ABSORB and PV.READ (rules R150 to R152). -/

namespace Sys2Proof.Machine

/-- `R128` = x^128 mod P = 2^127 + 2^126 + 2^121 + 1 (rule R143). -/
def polyR128 : Block := 0xc2000000000000000000000000000001#128

/-- `RHALF` = P >> 1 = 2^127 + 2^126 + 2^125 + 2^120 (rule R144). -/
def polyRHalf : Block := 0xe1000000000000000000000000000000#128

/-- `XINV128` = x^-128 mod P = 2^127 + 2^124 + 2^121 + 2^114 + 1 (rule R146). -/
def polyXInv128 : Block := 0x92040000000000000000000000000001#128

/-- Multiplication by x (rule R143). -/
def mulx (a : Block) : Block := if a.getLsbD 127 then (a <<< 1) ^^^ polyR128 else a <<< 1

/-- Division by x (rule R144). -/
def divx (a : Block) : Block := if a.getLsbD 0 then (a >>> 1) ^^^ polyRHalf else a >>> 1

/-- The loop of rule R145 from bit `i` on, `n` bits, with its locals `r` and `t`. -/
def fmulLoop (b : Block) : (n i : Nat) → (r t : Block) → Block
  | 0, _, r, _ => r
  | n + 1, i, r, t => fmulLoop b n (i + 1) (if b.getLsbD i then r ^^^ t else r) (mulx t)

/-- The plain field product (rule R145). It is NOT the operation the unit performs. -/
@[irreducible] def fmul (a b : Block) : Block := fmulLoop b 128 0 0 a

/-- The POLYVAL product `a * b * x^-128` (rule R146, 90_conflicts.md C2). -/
@[irreducible] def dot (a b : Block) : Block := fmul (fmul a b) polyXInv128

/-- The loop of the bit-serial form of rule R147. -/
def dotLoop (a b : Block) : (n i : Nat) → (r : Block) → Block
  | 0, _, r => r
  | n + 1, i, r => dotLoop a b n (i + 1) (divx (if b.getLsbD i then r ^^^ a else r))

/-- The bit-serial form of `dot` (rule R147), "which is how a hardware multiplier would do it". -/
@[irreducible] def dotSerial (a b : Block) : Block := dotLoop a b 128 0 0

/-- `H <- AUTHKEY; S <- 0` (rule R150). -/
def pvInit (s : State) : State := { s with polyH := s.authkey, polyS := 0 }

/-- `S <- dot(S xor bits(blk), H)` (rule R151). -/
def pvAbsorb (blk : Block) (s : State) : State :=
  s.setPolyS (dot (s.polyS ^^^ blk) s.polyH)

/-- The hash the unit delivers: `bytes16(S)` on a 128-bit port (rules R9, R152). -/
def pvRead (s : State) : Block := s.polyS

/-- PV.INIT (rule R150). -/
def execPvInit (s : State) : Host.Outcome State Fault Refusal := .next (pvInit s)

/-- PV.ABSORB (rule R151) of the request's block. -/
def execPvAbsorb (s : State) : Host.Outcome State Fault Refusal := .next (pvAbsorb s.pvIn s)

/-- PV.READ (rule R152): "S is not changed". -/
def execPvRead (s : State) : Host.Outcome State Fault Refusal := .next (s.setPvOut (pvRead s))

end Sys2Proof.Machine
end

