-- ==== Sys2Proof/Machine/Orchestrator.lean ====
section
/-! DEFINITION. The AEAD composition orchestrator: CMD acceptance (rule R221), the five phases (rules R223, R232,
R240, R244, R250), the sequencer (rule R231), and the meanings of ENCRYPT and DECRYPT (rules R251, R252)
as one atomic step each (rule R31). -/

namespace Sys2Proof.Machine

/-- An accepted CMD write (rule R221). OUTMEM is not touched. -/
def acceptCommand (decrypt : Bool) (s : State) : State :=
  { s with
    status := statusAccepted
    outlen := 0
    dir := decrypt
    errl := 0
    phase := .init }

/-! ### INIT -/

/-- The length of the message proper: MSGLEN on ENCRYPT, MSGLEN − 16 on DECRYPT (rules R29, R223). -/
def bodyLength (s : State) : Nat := if s.dir then s.msglen.toNat - 16 else s.msglen.toNat

/-- The first of the four checks of rule R223 that fails, in its order (rule R290, `ERR_PRIORITY`). The sum is
one of mathematical integers (rule R226). -/
def initError (s : State) : Option ErrorKind :=
  if s.dir && decide (s.msglen.toNat < 16) then some .malformedCiphertext
  else if s.noncelen.toNat ≠ 12 then some .invalidNonceSize
  else if s.keylen.toNat ≠ 16 ∧ s.keylen.toNat ≠ 32 then some .invalidKeySize
  else if bodyLength s + s.aadlen.toNat > Config.maxInputBytes then some .inputTooLarge
  else none

/-- The latches of INIT after the checks (rules R29, R223, R225). -/
def latchLengths (s : State) : State :=
  { s with
    ksz := decide (s.keylen.toNat = 32)
    lAad := s.aadlen
    lMsg := BitVec.ofNat 64 (bodyLength s) }

/-- `if DIR = 1: RTAG <- bits(MemRead(INMEM, mlen - 16, 16))` (rules R223, R230). -/
def latchReceivedTag (s : State) : State :=
  if s.dir then s.setRtag (bits 128 (s.memRead .inmem (s.msglen.toNat - 16) 16)) else s

/-- `if KSZ = 0: KDF.DERIVE128 else KDF.DERIVE256` (rules R91, R227). -/
def issueDerive (s : State) : State := if s.ksz then kdfDerive256 s else kdfDerive128 s

/-- INIT (rule R223). -/
def initPhase (s : State) : State :=
  match initError s with
  | some k => raise k s
  | none =>
    (issueDerive (latchReceivedTag (latchLengths s))).setPhase (if s.dir then .keystream else .hash)

/-! ### HASH -/

/-- Absorb blocks in order. -/
def absorbBlocks (bs : List Block) (s : State) : State := bs.foldl (fun s b => pvAbsorb b s) s

/-- What is hashed: the plaintext INMEM on ENCRYPT, the candidate plaintext WORK on DECRYPT (rule R234). -/
def messageSpace (s : State) : Space := if s.dir then .work else .inmem

/-- The input blocks of a command in order (rules R154, R232): AAD, message, length block. -/
def hashInput (s : State) : List Block :=
  hashBlocks .aadmem s.lAad.toNat s ++ hashBlocks (messageSpace s) s.lMsg.toNat s
    ++ [lengthBlock s.lAad.toNat s.lMsg.toNat]

/-- HASH (rule R232). -/
def hashPhase (s : State) : State :=
  (absorbBlocks (hashInput s) (pvInit s)).setPhase .deriveTag

/-! ### DERIVE_TAG -/

/-- `TAG <- bits( block_encrypt(ENCKEY, sp) )` (rules R240, R243). -/
def computeTag (s : State) : State :=
  s.setTag (blockEncrypt s.ksz s.enckey (tagInput (pvRead s) (nonceOperand s)))

/-- DERIVE_TAG (rule R240). On DECRYPT all 128 bits are compared (rule R245). -/
def deriveTagPhase (s : State) : State :=
  if s.dir then
    if (computeTag s).tag ^^^ (computeTag s).rtag ≠ 0 then
      raise .authenticationFailure (computeTag s)
    else (computeTag s).setPhase .finalize
  else (computeTag s).setPhase .keystream

/-! ### KEYSTREAM -/

/-- KEYSTREAM (rule R244): seeded by TAG on ENCRYPT and by RTAG on DECRYPT. -/
def keystreamPhase (s : State) : State :=
  (keystreamPass (if s.dir then s.rtag else s.tag) s.lMsg.toNat s).setPhase
    (if s.dir then .hash else .finalize)

/-! ### FINALIZE -/

/-- The success branch of rule R250: the only place OUTMEM is written. -/
def releaseOutput (s : State) : State :=
  let body := s.memWrite .outmem 0 (s.memRead .work 0 s.lMsg.toNat)
  if s.dir then body.setResult s.lMsg statusSuccess
  else (body.memWrite .outmem s.lMsg.toNat (bytes16 s.tag)).setResult (s.lMsg + 16) statusSuccess

/-- The error branch of rule R250: OUTMEM is not written at all. -/
def withholdOutput (s : State) : State :=
  s.setResult 0 (statusFailure s.errl)

/-- Zeroization (rules R44, R250). All of WORK is cleared: outside a command WORK is zero (rule R326), so the
bytes that are not zero are bytes the command wrote (DEDUCED, log 6). -/
def zeroize (s : State) : State :=
  { s with
    work := []
    dir := false
    ksz := false
    lAad := 0
    lMsg := 0
    errl := 0
    authkey := 0
    enckey := 0
    polyH := 0
    polyS := 0
    tag := 0
    rtag := 0
    cb := 0
    ks := 0 }

/-- FINALIZE (rule R250). -/
def finalizePhase (s : State) : State :=
  (zeroize (if s.errl = 0 then releaseOutput s else withholdOutput s)).setPhase .idle

/-! ### The sequencer -/

/-- One step of the orchestrator (rules R220, R231): the phase PHASE names. In IDLE it takes no step of its
own and waits for a CMD write (rule R43). -/
def phaseStep (s : State) : State :=
  match s.phase with
  | .idle => s
  | .init => initPhase s
  | .hash => hashPhase s
  | .deriveTag => deriveTagPhase s
  | .keystream => keystreamPhase s
  | .finalize => finalizePhase s

/-- `n` steps of the orchestrator. -/
def runPhases : Nat → State → State
  | 0, s => s
  | n + 1, s => runPhases n (phaseStep s)

/-- A whole command (rules R220, R231): acceptance, then the phases. No command has more than five, and one
that has fewer is back in IDLE, where the sequencer waits. -/
def runCommand (decrypt : Bool) (s : State) : State := runPhases 5 (acceptCommand decrypt s)

/-- ENCRYPT (rule R251), possible only while BUSY = 0 (rules R31, R221). -/
def execEncrypt (s : State) : Host.Outcome State Fault Refusal :=
  if s.busy then .refused .accessWhileBusy else .next (runCommand false s)

/-- DECRYPT (rule R252), possible only while BUSY = 0 (rules R31, R221). -/
def execDecrypt (s : State) : Host.Outcome State Fault Refusal :=
  if s.busy then .refused .accessWhileBusy else .next (runCommand true s)

end Sys2Proof.Machine
end

