-- ==== Sys2Proof/Machine/Dispatch.lean ====
section
/-! DEFINITION. exec: one arm per operation of the table. -/

namespace Sys2Proof.Machine

def exec (i : Instr) (s : State) : Host.Outcome State Fault Refusal :=
  match i with
  | .encrypt => Sys2Proof.Machine.execEncrypt s
  | .decrypt => Sys2Proof.Machine.execDecrypt s
  | .aesEnc128 => Sys2Proof.Machine.execAesEnc128 s
  | .aesEnc256 => Sys2Proof.Machine.execAesEnc256 s
  | .pvInit => Sys2Proof.Machine.execPvInit s
  | .pvAbsorb => Sys2Proof.Machine.execPvAbsorb s
  | .pvRead => Sys2Proof.Machine.execPvRead s
  | .kdfDerive128 => Sys2Proof.Machine.execKdfDerive128 s
  | .kdfDerive256 => Sys2Proof.Machine.execKdfDerive256 s
  | .ctrInit => Sys2Proof.Machine.execCtrInit s
  | .ctrNext => Sys2Proof.Machine.execCtrNext s
  | .ctrXor => Sys2Proof.Machine.execCtrXor s

end Sys2Proof.Machine
end

