-- ==== Sys2Proof/Machine/HostAccess.lean ====
section
/-! DEFINITION. The moves of the host (rules R21, R53, R92), the reset event (rule R320), the request of one unit
operation, and which agent takes the next step (rules R16, R31). -/

namespace Sys2Proof.Machine

/-- The value of a host-interface register, zero-extended to 64 bits (rule R21). Reading has no side effect
(rule R25). -/
def hostRegValue (r : HostReg) (s : State) : BitVec 64 :=
  match r with
  | .keylen => s.keylen
  | .noncelen => s.noncelen
  | .aadlen => s.aadlen
  | .msglen => s.msglen
  | .status => s.status.setWidth 64
  | .outlen => s.outlen

/-- A host register write: any value is legal in the four RW registers (rule R22), writes to STATUS and OUTLEN
are ignored (rule R21, RO). -/
def setHostReg (r : HostReg) (v : BitVec 64) (s : State) : State :=
  match r with
  | .keylen => { s with keylen := v }
  | .noncelen => { s with noncelen := v }
  | .aadlen => { s with aadlen := v }
  | .msglen => { s with msglen := v }
  | .status => s
  | .outlen => s

/-- HostWrite (rule R53). -/
def hostWrite (sp : Space) (addr : BitVec 64) (v : List Byte) (s : State) :
    Host.Outcome State Fault Refusal :=
  if hostWritable sp then
    if insideSpace sp addr v.length then .next (s.memWrite sp addr.toNat v)
    else .fault (.outsideSpace sp)
  else .refused (.noSuchAccess sp)

/-- HostRead (rule R53). -/
def hostReadBuf (sp : Space) (addr : BitVec 64) (n : Nat) (s : State) :
    Host.Outcome State Fault Refusal :=
  if hostReadable sp then
    if insideSpace sp addr n then .next (s.setHostRead (.bytes (s.memRead sp addr.toNat n)))
    else .fault (.outsideSpace sp)
  else .refused (.noSuchAccess sp)

/-- A write of `v` to HR0 (rules R90, R92, R221): a command, or a reserved value, which the model refuses
(93_implementation_defined.md U1). -/
def hostWriteCmd (v : BitVec 8) (s : State) : Host.Outcome State Fault Refusal :=
  match decodeCmd v with
  | some i => exec i s
  | none => .refused (.reservedCommand v)

/-- The reset event (rules R320, R321): every register of the CORE takes its reset value, WORK is zero, and
every byte of the five host-visible buffers is unspecified again (rule R42). What is still to happen and
what the host has read are not the CORE's. -/
def resetEvent (s : State) : State :=
  { State.reset with pending := s.pending, hostRead := s.hostRead, epoch := s.epoch + 1 }

/-- One host move. Every access but the reset event needs BUSY = 0 (rules R31, R53). -/
def hostMove (m : HostMove) (s : State) : Host.Outcome State Fault Refusal :=
  match m with
  | .reset => .next (resetEvent s)
  | .writeCmd v => if s.busy then .refused .accessWhileBusy else hostWriteCmd v s
  | .readCmd => if s.busy then .refused .accessWhileBusy else .next (s.setHostRead (.value 0))
  | .writeReg r v => if s.busy then .refused .accessWhileBusy else .next (setHostReg r v s)
  | .readReg r =>
    if s.busy then .refused .accessWhileBusy
    else .next (s.setHostRead (.value (hostRegValue r s)))
  | .writeBuf sp addr v =>
    if s.busy then .refused .accessWhileBusy else hostWrite sp addr v s
  | .readBuf sp addr n =>
    if s.busy then .refused .accessWhileBusy else hostReadBuf sp addr n s

/-- The request of one unit operation alone, by its code (rules R80, R81). -/
def unitRequest (c : BitVec 8) (s : State) : Host.Outcome State Fault Refusal :=
  match decodeUnitCode c with
  | some i => exec i s
  | none => .refused (.reservedUnitCode c)

/-- Where a code comes from (rule R80): UNIT = 0 is a CMD write of the host, any other a unit request. -/
def issueOf (c : BitVec 8) : Issue :=
  if unitField c = 0 then .host (.writeCmd c) else .unit c

/-- The step of whichever agent is next. A unit request or the reset event is taken at once; the host has no
other enabled move while a command is in its phases (rule R31), so the orchestrator steps first; and in
IDLE with nothing to happen the CORE waits (rule R43). -/
def advance (s : State) : Host.Outcome State Fault Refusal :=
  match s.pending with
  | [] => .next (phaseStep s)
  | .unit c :: rest => unitRequest c (s.setPending rest)
  | .host m :: rest =>
    if m = .reset ∨ s.phase = .idle then hostMove m (s.setPending rest)
    else .next (phaseStep s)

end Sys2Proof.Machine
end

