-- ==== Sys2Proof/Machine/Step.lean ====
section
/-! DEFINITION. The step of the machine, and where it finds the next operation. -/

namespace Sys2Proof.Machine

/-- One step at the level of rule R17: one host access, one unit request, one orchestrator phase, or one whole
command (rule R31 lets a command be one step). -/
def step (s : State) : Host.Outcome State Fault Refusal := advance s

/-- `s` with the operation of a table word put first among the things to happen: as the CMD write of a host
command, as the request of a unit operation (rule R80). The next step runs it: a unit operation in any
state, a host command in IDLE. Codes have one length, so `nbits` (8) decides nothing. -/
def State.withFetchWord (s : State) (_nbits w : Nat) : State :=
  s.setPending (issueOf (BitVec.ofNat 8 w) :: s.pending)

end Sys2Proof.Machine
end

