-- ==== Sys2Proof/Machine/Composition.lean ====
section
/-! DEFINITION. The two commands "as a function of [their] inputs" (rules R251, R252), on byte strings and with no
machine state: what the phases of Machine/Orchestrator.lean are stated to compute. The unit functions
(AES, `dot`, the derivation, the data blocks) are shared; the loops, buffers and phases are not. -/

namespace Sys2Proof.Machine

/-- Block `i` of a byte string: `b[16i .. min(16i+16, len(b)))` (rule R57). -/
def stringBlock (b : List Byte) (i : Nat) : List Byte := (b.drop (16 * i)).take 16

/-- The blocks of `pad16(b)` as 128-bit values (rules R57, R60, R154). -/
def paddedBlocks (b : List Byte) : List Block :=
  (List.range (blockCount b.length)).map fun i => bits 128 (pad16 (stringBlock b i))

/-- `polyval(h, X_1, ..., X_n)` (rules R140, R153). -/
def polyval (h : Block) (xs : List Block) : Block := xs.foldl (fun p x => dot (p ^^^ x) h) 0

/-- `tag` of rule R251 for a key, a nonce, a plaintext and an AAD. -/
def messageTag (ksz : Bool) (key : KeyBits) (nonce pt aad : List Byte) : Block :=
  blockEncrypt ksz (deriveEncKey ksz key nonce)
    (tagInput
      (polyval (deriveAuthKey ksz key nonce)
        (paddedBlocks aad ++ paddedBlocks pt ++ [lengthBlock aad.length pt.length]))
      nonce)

/-- Counter block `j` from a seed tag, byte by byte (rule R87). -/
def counterBlock (t : Block) (j : Nat) : Block :=
  bits 128
    (leBytes 4 ((leInt (bytesOf 4 t) + j) % 2 ^ 32)
      ++ (List.range 11).map (fun k => byteAt t (4 + k)) ++ [byteAt t 15 ||| 0x80#8])

/-- Byte `a` of the keystream `block_encrypt(enc_key, cb_0) || block_encrypt(enc_key, cb_1) || ...` (rule
R251). -/
def keystreamByte (ksz : Bool) (encKey : KeyBits) (t : Block) (a : Nat) : Byte :=
  byteAt (blockEncrypt ksz encKey (counterBlock t (a / 16))) (a % 16)

/-- A string xored with the keystream of a seed tag, truncated to its length (rules R61, R251). -/
def applyKeystream (ksz : Bool) (encKey : KeyBits) (t : Block) (d : List Byte) : List Byte :=
  d.mapIdx fun a x => x ^^^ keystreamByte ksz encKey t a

/-- `ct || tag` of rule R251. -/
def sealMessage (ksz : Bool) (key : KeyBits) (nonce pt aad : List Byte) : List Byte :=
  applyKeystream ksz (deriveEncKey ksz key nonce) (messageTag ksz key nonce pt aad) pt
    ++ bytes16 (messageTag ksz key nonce pt aad)

/-- The received tag, "the last 16 bytes" of the input (rule R230). -/
def receivedTag (input : List Byte) : Block := bits 128 (input.drop (input.length - 16))

/-- The candidate plaintext `cand` of rule R252. -/
def candidatePlaintext (ksz : Bool) (key : KeyBits) (nonce input : List Byte) : List Byte :=
  applyKeystream ksz (deriveEncKey ksz key nonce) (receivedTag input)
    (input.take (input.length - 16))

/-- The plaintext of rule R252 when the recomputed tag equals the received one, nothing otherwise. -/
def openMessage (ksz : Bool) (key : KeyBits) (nonce input aad : List Byte) : Option (List Byte) :=
  if messageTag ksz key nonce (candidatePlaintext ksz key nonce input) aad = receivedTag input then
    some (candidatePlaintext ksz key nonce input)
  else none

end Sys2Proof.Machine
end

