-- ==== Sys2Proof/Safety.lean ====
section
/-! DEFINITION. The terms the statements use: when a command is accepted and passes INIT, the state every command
ends in, what the host can observe, and the invariants of the machine. -/

namespace Sys2Proof.Machine

/-! ### The inputs of a command -/

/-- KSZ as INIT will latch it (rule R225). -/
def State.keyIs32 (s : State) : Bool := decide (s.keylen.toNat = 32)

/-- The key operand of the command the host has set up (rules R52, R91). -/
def State.inputKey (s : State) : KeyBits := keyOperand s.keyIs32 s

/-- The associated data: AADMEM[0..AADLEN). -/
def State.inputAad (s : State) : List Byte := s.memRead .aadmem 0 s.aadlen.toNat

/-- INMEM[0..MSGLEN): the plaintext on ENCRYPT, `ciphertext || tag` on DECRYPT. -/
def State.inputMsg (s : State) : List Byte := s.memRead .inmem 0 s.msglen.toNat

/-- The conditions under which an ENCRYPT is accepted and raises nothing (rules R221, R224 to R226). -/
structure EncryptRuns (s : State) : Prop where
  idle : s.busy = false
  nonce : s.noncelen.toNat = 12
  key : s.keylen.toNat = 16 ∨ s.keylen.toNat = 32
  size : s.msglen.toNat + s.aadlen.toNat ≤ Config.maxInputBytes

/-- The conditions under which a DECRYPT is accepted and INIT raises nothing (rules R221, R224 to R226, R230). -/
structure DecryptRuns (s : State) : Prop where
  idle : s.busy = false
  hasTag : 16 ≤ s.msglen.toNat
  nonce : s.noncelen.toNat = 12
  key : s.keylen.toNat = 16 ∨ s.keylen.toNat = 32
  size : s.msglen.toNat - 16 + s.aadlen.toNat ≤ Config.maxInputBytes

/-! ### The end of a command -/

/-- The state every command ends in (rule R326): PHASE = IDLE, every internal register and WORK zero, and STATUS
and OUTLEN as given; everything else as in `s`. -/
def endCommand (n : Length) (v : BitVec 32) (s : State) : State :=
  { zeroize s with outlen := n, status := v, phase := .idle }

/-- Every internal register and every byte of WORK is zero and PHASE is IDLE (rules R41, R44, R326). -/
def State.internalsZero (s : State) : Prop := { zeroize s with phase := .idle } = s

/-! ### What the host can observe -/

/-- What a host can reach of a CORE, with everything internal (rule R32, WORK of rule R37, PHASE, the latches) and
the operand values of lone unit operations blanked. -/
def State.hostView (s : State) : State :=
  { zeroize s with
    phase := .idle
    aesKey := 0
    aesIn := 0
    aesOut := 0
    pvIn := 0
    pvOut := 0
    ctrSeed := 0
    ctrIn := 0
    ctrLen := 0
    ctrOut := 0 }

/-- The observation of rule R18: STATUS, OUTLEN and OUTMEM[0..OUTLEN). -/
def State.observation (s : State) : BitVec 32 × Length × List Byte :=
  (s.status, s.outlen, s.memRead .outmem 0 s.outlen.toNat)

/-- The outcome of a step as the host sees it. -/
def viewOutcome : Host.Outcome State Fault Refusal → Host.Outcome State Fault Refusal
  | .next t => .next t.hostView
  | .fault f => .fault f
  | .refused r => .refused r

/-! ### Invariants -/

/-- "The only values STATUS ever holds" (rule R24). -/
def legalStatus : List (BitVec 32) := [0x00, 0x01, 0x02, 0x16, 0x26, 0x36, 0x46, 0x56]

/-- The machine invariant: every space in its canonical form, STATUS one of the values of rule R24 and BUSY
exactly while a command is in its phases, ERRL a code of rule R281 or 0, the latched lengths within the
size check of rule R226. -/
structure Inv (s : State) : Prop where
  memories : ∀ sp, Memory.wf sp (s.mem sp) = true
  status : s.status ∈ legalStatus
  busy : s.busy = true ↔ s.phase ≠ .idle
  errl : s.errl.toNat ≤ 5
  lengths : s.lMsg.toNat + s.lAad.toNat ≤ Config.maxInputBytes

/-- No unit operation is to be issued alone: all that is still to happen are the host's own moves (rule R80: unit
operations are "never written by the host"). -/
def State.hostOnly (s : State) : Prop := ∀ i ∈ s.pending, ∃ m, i = .host m

/-- Whenever PHASE is IDLE the internal state is that of reset (rules R45, R326). -/
structure CleanWhenIdle (s : State) : Prop where
  hostOnly : s.hostOnly
  clean : s.phase = .idle → s.internalsZero

end Sys2Proof.Machine
end

