-- ==== Sys2Proof/Certificates/Slice0/Obligations.lean ====
section
/-! DEFINITION. The statements about the model, each a Prop, from the spec's numbered rules. -/

open Sys2Proof Sys2Proof.Machine

/-! ### Codes (30_encoding.md) -/

/-- The twelve codes of the table of rule R81, read by the decoder. -/
def Obligations.CodesDecodeAsTheTableSays : Prop :=
  decodeTableWord 8 0x01 = some .encrypt ∧ decodeTableWord 8 0x02 = some .decrypt ∧
  decodeTableWord 8 0x10 = some .aesEnc128 ∧ decodeTableWord 8 0x11 = some .aesEnc256 ∧
  decodeTableWord 8 0x20 = some .pvInit ∧ decodeTableWord 8 0x21 = some .pvAbsorb ∧
  decodeTableWord 8 0x22 = some .pvRead ∧ decodeTableWord 8 0x30 = some .kdfDerive128 ∧
  decodeTableWord 8 0x31 = some .kdfDerive256 ∧ decodeTableWord 8 0x40 = some .ctrInit ∧
  decodeTableWord 8 0x41 = some .ctrNext ∧ decodeTableWord 8 0x42 = some .ctrXor

/-- Decoding undoes encoding for every operation, whatever bytes follow, and every code that decodes is the code of
what it decodes to (rules R80, R81). -/
def Obligations.DecodeAndEncodeAgree : Prop :=
  (∀ (i : Instr) (rest : List Byte),
    i.wellFormed = true → decode (encode i ++ rest) = .ok (i, rest)) ∧
  (∀ (c : BitVec 8) (i : Instr), decodeCode c = .ok i → encodeCode i = c)

/-- The decoder of the CMD register (rule R90): 0x01, 0x02, and nothing else; a write of any other value, the unit codes
among them, is refused (the model's treatment of rule R92, log 4). -/
def Obligations.CmdKnowsTwoCodesAndRefusesTheRest : Prop :=
  (∀ v : BitVec 8,
    decodeCmd v = if v = 0x01#8 then some .encrypt else if v = 0x02#8 then some .decrypt else none) ∧
  (∀ (s : State) (v : BitVec 8), s.busy = false → v ≠ 0x01#8 → v ≠ 0x02#8 →
    hostMove (.writeCmd v) s = .refused (.reservedCommand v))

/-! ### The step -/

/-- A step runs the operation that the next thing to happen decodes to, a unit request in any state, a CMD write
while no command runs; and every move of the host listed next (rules R53, R96) is what the step does while PHASE is
IDLE, the reset event in every phase. The entry is taken off the list first (the list of things to happen, and a
unit request issued alone, are the model's own: log 3). -/
def Obligations.StepRunsTheDecodedOperation : Prop :=
  (∀ (s : State) (c : BitVec 8) (rest : List Issue) (i : Instr),
    s.pending = .unit c :: rest → decodeUnitCode c = some i →
      step s = exec i { s with pending := rest }) ∧
  (∀ (s : State) (v : BitVec 8) (rest : List Issue) (i : Instr),
    s.pending = .host (.writeCmd v) :: rest → s.phase = .idle → s.busy = false →
      decodeCmd v = some i → step s = exec i { s with pending := rest }) ∧
  (∀ (s : State) (m : HostMove) (rest : List Issue),
    s.pending = .host m :: rest → s.phase = .idle ∨ m = .reset →
      step s = hostMove m { s with pending := rest })

/-- A table word placed by withFetchWord is what the next step runs, on the state it was placed in (the CORE fetches
nothing, rule R27; the list it is placed in is the model's own: log 3). -/
def Obligations.FetchedWordRunsNext : Prop :=
  (∀ (s : State) (i : Instr), hostIssuable i = false →
    step (s.withFetchWord 8 (encodeCode i).toNat) = exec i s) ∧
  (∀ (s : State) (i : Instr), s.phase = .idle → s.busy = false →
    step (s.withFetchWord 8 (encodeCode i).toNat) = exec i s)

/-- Which agent steps next (rules R16, R31, R43): a command in its phases goes on and the host waits; an idle CORE
with nothing to happen stays as it is. That the waiting host's move stays listed is the model's own (log 3). -/
def Obligations.OrchestratorStepsBeforeTheHost : Prop :=
  (∀ (s : State) (m : HostMove) (rest : List Issue), s.phase ≠ .idle → m ≠ .reset →
    s.pending = .host m :: rest → step s = .next (phaseStep s)) ∧
  (∀ s : State, s.phase ≠ .idle → s.pending = [] → step s = .next (phaseStep s)) ∧
  (∀ s : State, s.phase = .idle → s.pending = [] → step s = .next s)

/-- Rule R31's two realisations agree: five steps of the machine from the accepted CMD write give the state that the
command as one step gives (the model takes a command as one step: log 7). -/
def Obligations.CommandEqualsItsPhaseSteps : Prop :=
  (∀ s : State, s.busy = false → s.pending = [] →
    Host.Core.run Sys2Proof.core 5 (acceptCommand false s) = exec .encrypt s) ∧
  (∀ s : State, s.busy = false → s.pending = [] →
    Host.Core.run Sys2Proof.core 5 (acceptCommand true s) = exec .decrypt s)

/-! ### Reset and the invariants -/

/-- Every register at the value rule R41 gives, WORK all zero. -/
def Obligations.ResetValues : Prop :=
  State.reset.keylen = 0 ∧ State.reset.noncelen = 0 ∧ State.reset.aadlen = 0 ∧
  State.reset.msglen = 0 ∧ State.reset.status = 0x00000000#32 ∧ State.reset.outlen = 0 ∧
  State.reset.phase = .idle ∧ State.reset.dir = false ∧ State.reset.ksz = false ∧
  State.reset.lAad = 0 ∧ State.reset.lMsg = 0 ∧ State.reset.errl = 0 ∧
  State.reset.authkey = 0 ∧ State.reset.enckey = 0 ∧ State.reset.polyH = 0 ∧
  State.reset.polyS = 0 ∧ State.reset.tag = 0 ∧ State.reset.rtag = 0 ∧ State.reset.cb = 0 ∧
  State.reset.ks = 0 ∧ ∀ a, State.reset.peek .work a = 0

/-- The reset event in any state, a command running or not (rules R320, R321): every register at its reset value, WORK
zero, and every byte of the five host-visible buffers a free value that nothing ties to what it held. The count of
resets that indexes the free values and the zero in the request fields are the model's own (logs 1, 2); the
event in the middle of a command is the addition rule R321 allows (log 15). -/
def Obligations.ResetEventFromAnyState : Prop :=
  ∀ (s : State) (rest : List Issue), s.pending = .host .reset :: rest →
    ∃ t, step s = .next t ∧
      { t with
        pending := State.reset.pending
        hostRead := State.reset.hostRead
        epoch := State.reset.epoch } = State.reset ∧
      (∀ a, t.peek .work a = 0) ∧
      ∀ (sp : Space) (a : Nat), sp ≠ .work → t.peek sp a = Config.unwrittenByte (s.epoch + 1) sp a

/-- The state after reset meets both invariants. -/
def Obligations.ResetMeetsTheInvariants : Prop :=
  Inv State.reset ∧ CleanWhenIdle State.reset

/-- The machine invariant is kept by every step: canonical memories, STATUS one of the values of rule R24, BUSY
exactly while PHASE is not IDLE, ERRL at most 5, the latched lengths within the size check. -/
def Obligations.EveryStepKeepsTheInvariant : Prop :=
  ∀ s t : State, Inv s → step s = .next t → Inv t

/-- As long as only the host's moves are to happen, PHASE = IDLE means that every internal register and WORK are zero
(rules R45, R326), and every step keeps it so. -/
def Obligations.IdleStaysCleanAtEveryStep : Prop :=
  ∀ s t : State, CleanWhenIdle s → step s = .next t → CleanWhenIdle t

/-! ### Host access (10_state.md, 20_memory.md) -/

/-- Any value of 0 to 2^64 − 1 can be written to the four length registers, is read back unchanged, and nothing else
changes (rule R22). -/
def Obligations.LengthRegistersReadBackUnchanged : Prop :=
  ∀ (s : State) (v : BitVec 64), s.busy = false →
    (hostMove (.writeReg .keylen v) s = .next { s with keylen := v } ∧
      hostMove (.readReg .keylen) { s with keylen := v } =
        .next { s with keylen := v, hostRead := .value v }) ∧
    (hostMove (.writeReg .noncelen v) s = .next { s with noncelen := v } ∧
      hostMove (.readReg .noncelen) { s with noncelen := v } =
        .next { s with noncelen := v, hostRead := .value v }) ∧
    (hostMove (.writeReg .aadlen v) s = .next { s with aadlen := v } ∧
      hostMove (.readReg .aadlen) { s with aadlen := v } =
        .next { s with aadlen := v, hostRead := .value v }) ∧
    (hostMove (.writeReg .msglen v) s = .next { s with msglen := v } ∧
      hostMove (.readReg .msglen) { s with msglen := v } =
        .next { s with msglen := v, hostRead := .value v })

/-- STATUS and OUTLEN: host writes are ignored, reads return the value and have no other effect; a read of CMD returns
0 (rules R21, R25). -/
def Obligations.StatusAndOutlenAreReadOnly : Prop :=
  ∀ (s : State) (v : BitVec 64), s.busy = false →
    hostMove (.writeReg .status v) s = .next s ∧ hostMove (.writeReg .outlen v) s = .next s ∧
    hostMove (.readReg .status) s =
      .next { s with hostRead := .value (BitVec.ofNat 64 s.status.toNat) } ∧
    hostMove (.readReg .outlen) s = .next { s with hostRead := .value s.outlen } ∧
    hostMove .readCmd s = .next { s with hostRead := .value 0 }

/-- HostWrite and HostRead (rule R53): in range they act on the named bytes and nothing else; a write to OUTMEM and
any access to WORK do not exist; while BUSY = 1 none is enabled. That an access that leaves its space ends in a fault
is the model's own (log 14): the rule says only that the range must lie inside. -/
def Obligations.HostBufferAccess : Prop :=
  (∀ (s : State) (sp : Space) (addr : BitVec 64) (v : List Byte), s.busy = false →
    sp ≠ .outmem → sp ≠ .work →
      (addr.toNat + v.length ≤ Config.spaceSize sp →
        ∃ m, hostMove (.writeBuf sp addr v) s = .next (s.setMem sp m) ∧
          (s.setMem sp m).memRead sp addr.toNat v.length = v ∧
          ∀ (sp' : Space) (a : Nat),
            ¬(sp' = sp ∧ addr.toNat ≤ a ∧ a < addr.toNat + v.length) →
              (s.setMem sp m).peek sp' a = s.peek sp' a) ∧
      (Config.spaceSize sp < addr.toNat + v.length →
        hostMove (.writeBuf sp addr v) s = .fault (.outsideSpace sp))) ∧
  (∀ (s : State) (sp : Space) (addr : BitVec 64) (n : Nat), s.busy = false → sp ≠ .work →
      (addr.toNat + n ≤ Config.spaceSize sp →
        hostMove (.readBuf sp addr n) s =
          .next { s with hostRead := .bytes ((List.range n).map fun i => s.peek sp (addr.toNat + i)) }) ∧
      (Config.spaceSize sp < addr.toNat + n →
        hostMove (.readBuf sp addr n) s = .fault (.outsideSpace sp))) ∧
  (∀ (s : State) (addr : BitVec 64) (v : List Byte) (n : Nat), s.busy = false →
    hostMove (.writeBuf .outmem addr v) s = .refused (.noSuchAccess .outmem) ∧
    hostMove (.writeBuf .work addr v) s = .refused (.noSuchAccess .work) ∧
    hostMove (.readBuf .work addr n) s = .refused (.noSuchAccess .work)) ∧
  (∀ (s : State) (sp : Space) (addr : BitVec 64) (v : List Byte) (n : Nat), s.busy = true →
    hostMove (.writeBuf sp addr v) s = .refused .accessWhileBusy ∧
    hostMove (.readBuf sp addr n) s = .refused .accessWhileBusy)

/-- While BUSY = 1 every host access is refused, and so is a command (rule R31: "a model must treat such an access as
`refuse`"). -/
def Obligations.HostAccessWhileBusyIsRefused : Prop :=
  ∀ s : State, s.busy = true →
    (∀ m : HostMove, m ≠ .reset → hostMove m s = .refused .accessWhileBusy) ∧
    exec .encrypt s = .refused .accessWhileBusy ∧ exec .decrypt s = .refused .accessWhileBusy

/-! ### AES core (40_aes_core.md) -/

/-- AES.ENC128 (rule R125): the cipher with Nk = 4 and Nr = 10 on the request, nothing else written, in every state;
its code, its all-zero corner case and its example; bytes 16 to 31 of the key port have no part. The fields that
carry a request's operands are the model's (log 2). -/
def Obligations.AesEnc128EncryptsOneBlock : Prop :=
  (∀ s : State, exec .aesEnc128 s =
    .next { s with aesOut := aesCipher (expandKey 4 s.aesKey) 10 s.aesIn }) ∧
  encodeCode .aesEnc128 = 0x10#8 ∧
  aesEnc128 0 0 = bits 128 [0x66, 0xe9, 0x4b, 0xd4, 0xef, 0x8a, 0x2c, 0x3b,
    0x88, 0x4c, 0xfa, 0x59, 0xca, 0x34, 0x2b, 0x2e] ∧
  aesEnc128
      (bits 256 [0x00, 0x01, 0x02, 0x03, 0x04, 0x05, 0x06, 0x07,
        0x08, 0x09, 0x0a, 0x0b, 0x0c, 0x0d, 0x0e, 0x0f])
      (bits 128 [0x00, 0x11, 0x22, 0x33, 0x44, 0x55, 0x66, 0x77,
        0x88, 0x99, 0xaa, 0xbb, 0xcc, 0xdd, 0xee, 0xff]) =
    bits 128 [0x69, 0xc4, 0xe0, 0xd8, 0x6a, 0x7b, 0x04, 0x30,
      0xd8, 0xcd, 0xb7, 0x80, 0x70, 0xb4, 0xc5, 0x5a] ∧
  (∀ (key key' : KeyBits) (b : Block), (∀ j, j < 16 → byteAt key j = byteAt key' j) →
    aesEnc128 key b = aesEnc128 key' b)

/-- AES.ENC256 (rule R126): the cipher with Nk = 8 and Nr = 14 on the request, nothing else written, in every state;
its code, its all-zero corner case and its example. -/
def Obligations.AesEnc256EncryptsOneBlock : Prop :=
  (∀ s : State, exec .aesEnc256 s =
    .next { s with aesOut := aesCipher (expandKey 8 s.aesKey) 14 s.aesIn }) ∧
  encodeCode .aesEnc256 = 0x11#8 ∧
  aesEnc256 0 0 = bits 128 [0xdc, 0x95, 0xc0, 0x78, 0xa2, 0x40, 0x89, 0x89,
    0xad, 0x48, 0xa2, 0x14, 0x92, 0x84, 0x20, 0x87] ∧
  aesEnc256
      (bits 256 [0x00, 0x01, 0x02, 0x03, 0x04, 0x05, 0x06, 0x07,
        0x08, 0x09, 0x0a, 0x0b, 0x0c, 0x0d, 0x0e, 0x0f,
        0x10, 0x11, 0x12, 0x13, 0x14, 0x15, 0x16, 0x17,
        0x18, 0x19, 0x1a, 0x1b, 0x1c, 0x1d, 0x1e, 0x1f])
      (bits 128 [0x00, 0x11, 0x22, 0x33, 0x44, 0x55, 0x66, 0x77,
        0x88, 0x99, 0xaa, 0xbb, 0xcc, 0xdd, 0xee, 0xff]) =
    bits 128 [0x8e, 0xa2, 0xb7, 0xca, 0x51, 0x67, 0x45, 0xbf,
      0xea, 0xfc, 0x49, 0x90, 0x4b, 0x49, 0x60, 0x89]

/-- The S-box table of rule R116 is the S-box of rule R115: the inverse in the field of rule R114 (0 for 0), then the
affine map with c = 0x63. -/
def Obligations.SboxIsInverseThenAffineMap : Prop :=
  ∀ a : Byte, ∃ t : Byte,
    (a = 0 → t = 0) ∧ (a ≠ 0 → gmul a t = 1) ∧
    ∀ i, i < 8 → (sbox a).getLsbD i =
      (t.getLsbD i ^^ t.getLsbD ((i + 4) % 8) ^^ t.getLsbD ((i + 5) % 8) ^^
        t.getLsbD ((i + 6) % 8) ^^ t.getLsbD ((i + 7) % 8) ^^ (0x63#8).getLsbD i)

/-- SubBytes, ShiftRows, MixColumns and AddRoundKey on every byte of every state, in the row and column form of the
rules (rules R113, R117 to R120), with `gmul2` and `gmul3` the field products by 2 and 3. -/
def Obligations.RoundTransformationsByteByByte : Prop :=
  (∀ a : Byte, gmul2 a = gmul a 2 ∧ gmul3 a = gmul a 3) ∧
  ∀ b rk : Block,
    (∀ k, k < 16 → byteAt (subBytes b) k = sbox (byteAt b k)) ∧
    (∀ r c, r < 4 → c < 4 → byteAt (shiftRows b) (r + 4 * c) = byteAt b (r + 4 * ((c + r) % 4))) ∧
    (∀ c, c < 4 →
      byteAt (mixColumns b) (4 * c) =
        gmul2 (byteAt b (4 * c)) ^^^ gmul3 (byteAt b (4 * c + 1)) ^^^ byteAt b (4 * c + 2) ^^^
          byteAt b (4 * c + 3) ∧
      byteAt (mixColumns b) (4 * c + 1) =
        byteAt b (4 * c) ^^^ gmul2 (byteAt b (4 * c + 1)) ^^^ gmul3 (byteAt b (4 * c + 2)) ^^^
          byteAt b (4 * c + 3) ∧
      byteAt (mixColumns b) (4 * c + 2) =
        byteAt b (4 * c) ^^^ byteAt b (4 * c + 1) ^^^ gmul2 (byteAt b (4 * c + 2)) ^^^
          gmul3 (byteAt b (4 * c + 3)) ∧
      byteAt (mixColumns b) (4 * c + 3) =
        gmul3 (byteAt b (4 * c)) ^^^ byteAt b (4 * c + 1) ^^^ byteAt b (4 * c + 2) ^^^
          gmul2 (byteAt b (4 * c + 3))) ∧
    (∀ k, k < 16 → byteAt (addRoundKey b rk) k = byteAt b k ^^^ byteAt rk k)

/-- The key expansion of rule R121 for both key sizes: 44 or 60 words, the first Nk the key's, every later one the
word Nk before it xored with the transformed word before it; RotWord and SubWord byte by byte; a round key is
four words in order. -/
def Obligations.KeyExpansionRecurrence : Prop :=
  (∀ (nk : Nat) (key : KeyBits), nk = 4 ∨ nk = 8 →
    (expandKey nk key).length = 4 * (nk + 6 + 1) ∧
    (∀ i j, i < nk → j < 4 →
      byteAt ((expandKey nk key).getD i 0) j = byteAt key (4 * i + j)) ∧
    (∀ i, nk ≤ i → i < 4 * (nk + 6 + 1) →
      (expandKey nk key).getD i 0 =
        (expandKey nk key).getD (i - nk) 0 ^^^
          (if i % nk = 0 then
            subWord (rotWord ((expandKey nk key).getD (i - 1) 0)) ^^^
              BitVec.ofNat 32 (rcon (i / nk)).toNat
          else if nk = 8 ∧ i % nk = 4 then subWord ((expandKey nk key).getD (i - 1) 0)
          else (expandKey nk key).getD (i - 1) 0))) ∧
  (∀ (t : KeyWord) (j : Nat), j < 4 →
    byteAt (rotWord t) j = byteAt t ((j + 1) % 4) ∧ byteAt (subWord t) j = sbox (byteAt t j)) ∧
  (∀ (w : List KeyWord) (r k j : Nat), k < 4 → j < 4 →
    byteAt (roundKey w r) (4 * k + j) = byteAt (w.getD (4 * r + k) 0) j) ∧
  [rcon 1, rcon 2, rcon 3, rcon 4, rcon 5, rcon 6, rcon 7, rcon 8, rcon 9, rcon 10] =
    [0x01, 0x02, 0x04, 0x08, 0x10, 0x20, 0x40, 0x80, 0x1b, 0x36]

/-- The cipher of rule R122: AddRoundKey with round key 0, `Nr` − 1 full rounds, and a last round without MixColumns;
`Nr` = 10 for a 16-byte key and 14 for a 32-byte key. -/
def Obligations.CipherRoundStructure : Prop :=
  (∀ (key : KeyBits) (blk : Block),
    aesEnc128 key blk = aesCipher (expandKey 4 key) 10 blk ∧
    aesEnc256 key blk = aesCipher (expandKey 8 key) 14 blk) ∧
  ∀ (w : List KeyWord) (nr : Nat) (blk : Block), 1 ≤ nr →
    ∃ st : Nat → Block,
      st 0 = addRoundKey blk (roundKey w 0) ∧
      (∀ r, 1 ≤ r → r < nr →
        st r = addRoundKey (mixColumns (shiftRows (subBytes (st (r - 1))))) (roundKey w r)) ∧
      aesCipher w nr blk = addRoundKey (shiftRows (subBytes (st (nr - 1)))) (roundKey w nr)

/-- For a fixed key of either size the cipher is a bijection on blocks (rule R123). -/
def Obligations.CipherIsABijection : Prop :=
  ∀ (ksz : Bool) (key : KeyBits), Function.Bijective (blockEncrypt ksz key)

/-! ### POLYVAL (41_polyval.md) -/

/-- Multiplication and division by x: their cases, and each undoes the other for every field element (rules R143,
R144). -/
def Obligations.MulxAndDivxAreInverse : Prop :=
  ∀ a : Block,
    (a.getLsbD 127 = false → mulx a = a <<< 1) ∧
    (a.getLsbD 127 = true →
      mulx a = (a <<< 1) ^^^ BitVec.ofNat 128 (2 ^ 127 + 2 ^ 126 + 2 ^ 121 + 1)) ∧
    (a.getLsbD 0 = false → divx a = a >>> 1) ∧
    (a.getLsbD 0 = true →
      divx a = (a >>> 1) ^^^ BitVec.ofNat 128 (2 ^ 127 + 2 ^ 126 + 2 ^ 125 + 2 ^ 120)) ∧
    divx (mulx a) = a ∧ mulx (divx a) = a

/-- The laws of the POLYVAL product (rule R148), with R128 = x^128 and XINV128 = x^-128. -/
def Obligations.DotLaws : Prop :=
  ∀ a b c : Block,
    dot a b = dot b a ∧
    dot (a ^^^ c) b = dot a b ^^^ dot c b ∧
    dot 0 b = 0 ∧
    dot a (BitVec.ofNat 128 (2 ^ 127 + 2 ^ 126 + 2 ^ 121 + 1)) = a ∧
    dot a 1 = fmul a (BitVec.ofNat 128 (2 ^ 127 + 2 ^ 124 + 2 ^ 121 + 2 ^ 114 + 1)) ∧
    dot (dot a b) c = fmul (fmul (fmul (fmul a b) c) polyXInv128) polyXInv128

/-- The bit-serial form equals `dot` for all inputs (rule R147). -/
def Obligations.BitSerialFormEqualsDot : Prop :=
  ∀ a b : Block, dotSerial a b = dot a b

/-- PV.INIT (rule R150): H and S written, nothing else, in every state; with H = 0 every later PV.ABSORB leaves
S = 0. -/
def Obligations.PvInitLoadsHAndClearsS : Prop :=
  (∀ s : State, exec .pvInit s = .next { s with polyH := s.authkey, polyS := 0 }) ∧
  encodeCode .pvInit = 0x20#8 ∧
  (∀ s : State, s.polyH = 0 → exec .pvAbsorb s = .next { s with polyS := 0 })

/-- PV.ABSORB (rule R151): S alone is written, in every state; its corner cases and its two-block example. -/
def Obligations.PvAbsorbMultipliesIntoS : Prop :=
  (∀ s : State, exec .pvAbsorb s = .next { s with polyS := dot (s.polyS ^^^ s.pvIn) s.polyH }) ∧
  encodeCode .pvAbsorb = 0x21#8 ∧
  (∀ s : State, s.pvIn = 0 → s.polyS = 0 → exec .pvAbsorb s = .next s) ∧
  (∃ h x y : Block, dot (dot x h ^^^ y) h ≠ dot (dot y h ^^^ x) h) ∧
  (∃ h x : Block, dot (dot x h ^^^ x) h ≠ 0) ∧
  dot (bits 128 [0x4f, 0x4f, 0x95, 0x66, 0x8c, 0x83, 0xdf, 0xb6,
      0x40, 0x17, 0x62, 0xbb, 0x2d, 0x01, 0xa2, 0x62])
    (bits 128 [0x25, 0x62, 0x93, 0x47, 0x58, 0x92, 0x42, 0x76,
      0x1d, 0x31, 0xf8, 0x26, 0xba, 0x4b, 0x75, 0x7b]) =
    bits 128 [0xce, 0xda, 0xc6, 0x45, 0x37, 0xff, 0x50, 0x98,
      0x9c, 0x16, 0x01, 0x15, 0x51, 0x08, 0x6d, 0x77] ∧
  dot (bits 128 [0xce, 0xda, 0xc6, 0x45, 0x37, 0xff, 0x50, 0x98,
      0x9c, 0x16, 0x01, 0x15, 0x51, 0x08, 0x6d, 0x77] ^^^
      bits 128 [0xd1, 0xa2, 0x4d, 0xdd, 0x27, 0x21, 0xd0, 0x06,
        0xbb, 0xe4, 0x5f, 0x20, 0xd3, 0xc9, 0xf3, 0x62])
    (bits 128 [0x25, 0x62, 0x93, 0x47, 0x58, 0x92, 0x42, 0x76,
      0x1d, 0x31, 0xf8, 0x26, 0xba, 0x4b, 0x75, 0x7b]) =
    bits 128 [0xf7, 0xa3, 0xb4, 0x7b, 0x84, 0x61, 0x19, 0xfa,
      0xe5, 0xb7, 0x86, 0x6c, 0xf5, 0xe5, 0xb7, 0x7e]

/-- PV.READ (rule R152): S is delivered and not changed, in every state; right after PV.INIT it is 0. -/
def Obligations.PvReadDeliversS : Prop :=
  (∀ s : State, exec .pvRead s = .next { s with pvOut := s.polyS }) ∧
  encodeCode .pvRead = 0x22#8 ∧
  (∀ s t u : State, exec .pvInit s = .next t → exec .pvRead t = .next u → u.pvOut = 0)

/-- HASH (rules R154, R232): the input blocks are the AAD, then the message, then the length block; their number; every
byte of every block, zero beyond its string; and the phase loads H, clears S, absorbs them in order and writes
nothing else. -/
def Obligations.HashAbsorbsTheInputBlocks : Prop :=
  ∀ s : State,
    (hashInput s).length = (s.lAad.toNat + 15) / 16 + (s.lMsg.toNat + 15) / 16 + 1 ∧
    (∀ i k, i < (s.lAad.toNat + 15) / 16 → k < 16 →
      byteAt ((hashInput s).getD i 0) k =
        if 16 * i + k < s.lAad.toNat then s.peek .aadmem (16 * i + k) else 0) ∧
    (∀ i k, i < (s.lMsg.toNat + 15) / 16 → k < 16 →
      byteAt ((hashInput s).getD ((s.lAad.toNat + 15) / 16 + i) 0) k =
        if 16 * i + k < s.lMsg.toNat then
          s.peek (if s.dir then .work else .inmem) (16 * i + k)
        else 0) ∧
    (hashInput s).getD ((s.lAad.toNat + 15) / 16 + (s.lMsg.toNat + 15) / 16) 0 =
      bits 128 (leBytes 8 (8 * s.lAad.toNat) ++ leBytes 8 (8 * s.lMsg.toNat)) ∧
    (s.phase = .hash → phaseStep s = { s with
      polyH := s.authkey
      polyS := (hashInput s).foldl (fun p x => dot (p ^^^ x) s.authkey) 0
      phase := .deriveTag })

/-! ### Data blocks (30_encoding.md) and subkey derivation (42_subkey_derivation.md) -/

/-- The derivation block, the length block and the tag input, byte by byte (rules R84, R85, R86). -/
def Obligations.DataBlockLayouts : Prop :=
  (∀ (i : Nat) (nonce : List Byte), i ≤ 5 → nonce.length = 12 →
    byteAt (derivationBlock i nonce) 0 = BitVec.ofNat 8 i ∧
    (∀ k, 1 ≤ k → k < 4 → byteAt (derivationBlock i nonce) k = 0) ∧
    (∀ k, k < 12 → byteAt (derivationBlock i nonce) (4 + k) = nonce.getD k 0)) ∧
  (∀ a m : Nat, a < 2 ^ 61 → m < 2 ^ 61 →
    (lengthBlock a m).toNat = 8 * a + 2 ^ 64 * (8 * m)) ∧
  (∀ (p : Block) (nonce : List Byte), nonce.length = 12 →
    (∀ j, j < 12 → byteAt (tagInput p nonce) j = byteAt p j ^^^ nonce.getD j 0) ∧
    (∀ j, 12 ≤ j → j < 15 → byteAt (tagInput p nonce) j = byteAt p j) ∧
    byteAt (tagInput p nonce) 15 = byteAt p 15 &&& 0x7f#8)

/-- KDF.DERIVE128 (rule R176): in every state, every byte of AUTHKEY and ENCKEY from the four AES outputs, nothing else
written; its code and its example. -/
def Obligations.KdfDerive128FormsBothKeys : Prop :=
  (∀ s : State, ∃ a e, exec .kdfDerive128 s = .next { s with authkey := a, enckey := e } ∧
    (∀ j, j < 16 → byteAt a j =
      byteAt (aesEnc128 (bits 256 (s.memRead .keybuf 0 16))
        (bits 128 (leBytes 4 (j / 8) ++ s.memRead .noncebuf 0 12))) (j % 8)) ∧
    (∀ j, j < 16 → byteAt e j =
      byteAt (aesEnc128 (bits 256 (s.memRead .keybuf 0 16))
        (bits 128 (leBytes 4 (2 + j / 8) ++ s.memRead .noncebuf 0 12))) (j % 8)) ∧
    (∀ j, 16 ≤ j → j < 32 → byteAt e j = 0)) ∧
  encodeCode .kdfDerive128 = 0x30#8 ∧
  (∀ s : State, s.memRead .keybuf 0 16 = [1, 0, 0, 0, 0, 0, 0, 0, 0, 0, 0, 0, 0, 0, 0, 0] →
    s.memRead .noncebuf 0 12 = [3, 0, 0, 0, 0, 0, 0, 0, 0, 0, 0, 0] →
    exec .kdfDerive128 s = .next { s with
      authkey := bits 128 [0xd9, 0xb3, 0x60, 0x27, 0x96, 0x94, 0x94, 0x1a,
        0xc5, 0xdb, 0xc6, 0x98, 0x7a, 0xda, 0x73, 0x77]
      enckey := bits 256 [0x40, 0x04, 0xa0, 0xdc, 0xd8, 0x62, 0xf2, 0xa5,
        0x73, 0x60, 0x21, 0x9d, 0x2d, 0x44, 0xef, 0x6c] })

/-- KDF.DERIVE256 (rule R177): in every state, every byte of AUTHKEY and ENCKEY from the six AES outputs, nothing else
written; its code and its example. -/
def Obligations.KdfDerive256FormsBothKeys : Prop :=
  (∀ s : State, ∃ a e, exec .kdfDerive256 s = .next { s with authkey := a, enckey := e } ∧
    (∀ j, j < 16 → byteAt a j =
      byteAt (aesEnc256 (bits 256 (s.memRead .keybuf 0 32))
        (bits 128 (leBytes 4 (j / 8) ++ s.memRead .noncebuf 0 12))) (j % 8)) ∧
    (∀ j, j < 32 → byteAt e j =
      byteAt (aesEnc256 (bits 256 (s.memRead .keybuf 0 32))
        (bits 128 (leBytes 4 (2 + j / 8) ++ s.memRead .noncebuf 0 12))) (j % 8))) ∧
  encodeCode .kdfDerive256 = 0x31#8 ∧
  (∀ s : State, s.memRead .keybuf 0 32 =
      [1, 0, 0, 0, 0, 0, 0, 0, 0, 0, 0, 0, 0, 0, 0, 0,
        0, 0, 0, 0, 0, 0, 0, 0, 0, 0, 0, 0, 0, 0, 0, 0] →
    s.memRead .noncebuf 0 12 = [3, 0, 0, 0, 0, 0, 0, 0, 0, 0, 0, 0] →
    exec .kdfDerive256 s = .next { s with
      authkey := bits 128 [0xb5, 0xd3, 0xc5, 0x29, 0xdf, 0xaf, 0xac, 0x43,
        0x13, 0x6d, 0x2d, 0x11, 0xbe, 0x28, 0x4d, 0x7f]
      enckey := bits 256 [0xb9, 0x14, 0xf4, 0x74, 0x2b, 0xe9, 0xe1, 0xd7,
        0xa2, 0xf8, 0x4a, 0xdd, 0xbf, 0x96, 0xde, 0xc3,
        0x45, 0x6e, 0x3c, 0x6c, 0x05, 0xec, 0xc1, 0x57,
        0xcd, 0xbf, 0x07, 0x00, 0xfe, 0xda, 0xd2, 0x22] })

/-! ### CTR (43_ctr_keystream.md) -/

/-- CTR.INIT (rule R193): in every state and for every seed, CB is the seed with bit 7 of byte 15 set and nothing else
is written; a seed with that bit set is loaded unchanged; its code and its example. -/
def Obligations.CtrInitSetsTheTopBit : Prop :=
  (∀ s : State, ∃ c, exec .ctrInit s = .next { s with cb := c } ∧
    (∀ k, k < 15 → byteAt c k = byteAt s.ctrSeed k) ∧
    byteAt c 15 = byteAt s.ctrSeed 15 ||| 0x80#8 ∧
    ((byteAt s.ctrSeed 15).getLsbD 7 = true → c = s.ctrSeed)) ∧
  encodeCode .ctrInit = 0x40#8 ∧
  counterStart (bits 128 [0x57, 0x87, 0x82, 0xff, 0xf6, 0x01, 0x3b, 0x81,
      0x5b, 0x28, 0x7c, 0x22, 0x49, 0x3a, 0x36, 0x4c]) =
    bits 128 [0x57, 0x87, 0x82, 0xff, 0xf6, 0x01, 0x3b, 0x81,
      0x5b, 0x28, 0x7c, 0x22, 0x49, 0x3a, 0x36, 0xcc]

/-- CTR.NEXT (rules R194, R195): in every state, KS is CB encrypted under ENCKEY with the AES size of KSZ, the 32-bit
counter of CB goes up by one modulo 2^32, the other twelve bytes stay, and nothing else is written; its code,
its example and the wrap. -/
def Obligations.CtrNextEncryptsAndAdvances : Prop :=
  (∀ s : State, ∃ c,
    exec .ctrNext s = .next { s with
      ks := if s.ksz then aesEnc256 s.enckey s.cb else aesEnc128 s.enckey s.cb
      cb := c } ∧
    leInt (bytesOf 4 c) = (leInt (bytesOf 4 s.cb) + 1) % 2 ^ 32 ∧
    ∀ k, 4 ≤ k → k < 16 → byteAt c k = byteAt s.cb k) ∧
  encodeCode .ctrNext = 0x41#8 ∧
  (∀ s : State, s.ksz = false →
    s.enckey = bits 256 [0x40, 0x04, 0xa0, 0xdc, 0xd8, 0x62, 0xf2, 0xa5,
      0x73, 0x60, 0x21, 0x9d, 0x2d, 0x44, 0xef, 0x6c] →
    s.cb = bits 128 [0x57, 0x87, 0x82, 0xff, 0xf6, 0x01, 0x3b, 0x81,
      0x5b, 0x28, 0x7c, 0x22, 0x49, 0x3a, 0x36, 0xcc] →
    exec .ctrNext s = .next { s with
      ks := bits 128 [0xb4, 0xd8, 0x39, 0x33, 0x0a, 0xc7, 0xb7, 0x86,
        0xa7, 0x79, 0x52, 0x3a, 0x09, 0x9c, 0xa5, 0x98]
      cb := bits 128 [0x58, 0x87, 0x82, 0xff, 0xf6, 0x01, 0x3b, 0x81,
        0x5b, 0x28, 0x7c, 0x22, 0x49, 0x3a, 0x36, 0xcc] }) ∧
  counterStep (bits 128 [0xff, 0xff, 0xff, 0xff, 0x01, 0x02, 0x03, 0x04,
      0x05, 0x06, 0x07, 0x08, 0x09, 0x0a, 0x0b, 0xff]) =
    bits 128 [0x00, 0x00, 0x00, 0x00, 0x01, 0x02, 0x03, 0x04,
      0x05, 0x06, 0x07, 0x08, 0x09, 0x0a, 0x0b, 0xff]

/-- CTR.XOR (rule R196): in every state, for the `r` bytes of the request, each data byte xored with the keystream
byte of the same index; the keystream bytes from `r` on are discarded and nothing else is written; its code and its
example. That the response holds 0 from byte `r` on, and r = 0 (which never occurs), are the model's own
(log 13). -/
def Obligations.CtrXorAppliesTheKeystream : Prop :=
  (∀ s : State, ∃ d, exec .ctrXor s = .next { s with ctrOut := d } ∧
    (∀ k, k < s.ctrLen.val → byteAt d k = byteAt s.ctrIn k ^^^ byteAt s.ks k) ∧
    (∀ k, s.ctrLen.val ≤ k → k < 16 → byteAt d k = 0)) ∧
  encodeCode .ctrXor = 0x42#8 ∧
  xorBytes [0x01, 0, 0, 0, 0, 0, 0, 0]
    (bits 128 [0xb4, 0xd8, 0x39, 0x33, 0x0a, 0xc7, 0xb7, 0x86,
      0xa7, 0x79, 0x52, 0x3a, 0x09, 0x9c, 0xa5, 0x98]) =
    [0xb5, 0xd8, 0x39, 0x33, 0x0a, 0xc7, 0xb7, 0x86]

/-- Counter block `j` byte by byte, for every seed and every `j` (rule R87). -/
def Obligations.CounterBlockOfEveryIndex : Prop :=
  ∀ (t : Block) (j : Nat),
    leInt (bytesOf 4 (counterStep^[j] (counterStart t))) = (leInt (bytesOf 4 t) + j) % 2 ^ 32 ∧
    (∀ k, 4 ≤ k → k < 15 → byteAt (counterStep^[j] (counterStart t)) k = byteAt t k) ∧
    byteAt (counterStep^[j] (counterStart t)) 15 = byteAt t 15 ||| 0x80#8

/-- Within one command no counter block is encrypted twice, even across a wrap (rule R198): the longest admissible
message has 2^32 − 1 blocks, and counter blocks of different index below 2^32 differ. -/
def Obligations.CounterBlocksNeverRepeatInACommand : Prop :=
  blockCount Config.maxInputBytes = 2 ^ 32 - 1 ∧
  ∀ (t : Block) (L i j : Nat), L ≤ Config.maxInputBytes → i < j → j < blockCount L →
    counterStep^[i] (counterStart t) ≠ counterStep^[j] (counterStart t)

/-- The two uses of AES under ENCKEY never see the same input (rule R242): bit 127 of a tag input is 0, bit 127 of
every counter block is 1. -/
def Obligations.TagInputIsNeverACounterBlock : Prop :=
  ∀ (p t : Block) (nonce : List Byte) (j : Nat),
    (tagInput p nonce).getLsbD 127 = false ∧
    (counterStep^[j] (counterStart t)).getLsbD 127 = true ∧
    tagInput p nonce ≠ counterStep^[j] (counterStart t)

/-- Applying the keystream pass twice with the same seed and key returns the original data (rule R199): the output of
the first pass, written where the second reads, comes back as the input of the first. -/
def Obligations.KeystreamPassIsAnInvolution : Prop :=
  ∀ (t : Block) (L : Nat) (s : State),
    (keystreamPass t L
      ((keystreamPass t L s).memWrite .inmem 0 ((keystreamPass t L s).memRead .work 0 L))).memRead
        .work 0 L = s.memRead .inmem 0 L

/-! ### The orchestrator (44_aead_orchestrator.md) and the errors (60_exceptions.md) -/

/-- CMD acceptance (rule R221): STATUS = 0x01, OUTLEN = 0, DIR by the command, ERRL = 0 and PHASE = INIT, and nothing
else, OUTMEM least of all; then the successor of each phase (rule R231), in every state. -/
def Obligations.PhaseSuccessors : Prop :=
  ∀ s : State,
    (∀ d, acceptCommand d s =
      { s with status := 0x00000001#32, outlen := 0, dir := d, errl := 0, phase := .init }) ∧
    (s.phase = .idle → phaseStep s = s) ∧
    (s.phase = .init → (phaseStep s).phase =
      if (initError s).isSome then .finalize else if s.dir then .keystream else .hash) ∧
    (s.phase = .hash → (phaseStep s).phase = .deriveTag) ∧
    (s.phase = .deriveTag → (phaseStep s).phase = if s.dir then .finalize else .keystream) ∧
    (s.phase = .keystream → (phaseStep s).phase = if s.dir then .hash else .finalize) ∧
    (s.phase = .finalize → (phaseStep s).phase = .idle)

/-- The order of the phases of each command when INIT raises nothing (rules R228, R229). -/
def Obligations.PhaseOrderOfEachCommand : Prop :=
  (∀ s : State, EncryptRuns s →
    (List.range 6).map (fun n => (runPhases n (acceptCommand false s)).phase) =
      [.init, .hash, .deriveTag, .keystream, .finalize, .idle]) ∧
  (∀ s : State, DecryptRuns s →
    (List.range 6).map (fun n => (runPhases n (acceptCommand true s)).phase) =
      [.init, .keystream, .hash, .deriveTag, .finalize, .idle])

/-- INIT (rule R223): the four checks in their order, each raising its own error; when all pass, the latches, RTAG on
DECRYPT, and the keys that the derive operation of the key size gives, and nothing else. The order of nonce, key and
size among themselves is the chosen one, ERR_PRIORITY's default (log 8). -/
def Obligations.InitChecksThenLatchesAndDerives : Prop :=
  ∀ s : State, s.phase = .init →
    (s.dir = true → s.msglen.toNat < 16 → phaseStep s = raise .malformedCiphertext s) ∧
    ((s.dir = true → 16 ≤ s.msglen.toNat) →
      (s.noncelen.toNat ≠ 12 → phaseStep s = raise .invalidNonceSize s) ∧
      (s.noncelen.toNat = 12 →
        (s.keylen.toNat ≠ 16 → s.keylen.toNat ≠ 32 → phaseStep s = raise .invalidKeySize s) ∧
        (s.keylen.toNat = 16 ∨ s.keylen.toNat = 32 →
          (Config.maxInputBytes <
              (if s.dir then s.msglen.toNat - 16 else s.msglen.toNat) + s.aadlen.toNat →
            phaseStep s = raise .inputTooLarge s) ∧
          ((if s.dir then s.msglen.toNat - 16 else s.msglen.toNat) + s.aadlen.toNat
              ≤ Config.maxInputBytes →
            ∃ a e,
              exec (if s.keylen.toNat = 32 then .kdfDerive256 else .kdfDerive128) s =
                .next { s with authkey := a, enckey := e } ∧
              phaseStep s = { s with
                ksz := decide (s.keylen.toNat = 32)
                lAad := s.aadlen
                lMsg := if s.dir then s.msglen - 16 else s.msglen
                rtag := if s.dir then bits 128 (s.memRead .inmem (s.msglen.toNat - 16) 16) else s.rtag
                authkey := a
                enckey := e
                phase := if s.dir then .keystream else .hash }))))

/-- DERIVE_TAG (rule R240): the tag input byte by byte, the tag, and the comparison of all 128 bits on DECRYPT. -/
def Obligations.DeriveTagEncryptsTheTagInput : Prop :=
  ∀ s : State, s.phase = .deriveTag →
    ∃ sp tg : Block,
      (∀ j, j < 12 → byteAt sp j = byteAt s.polyS j ^^^ s.peek .noncebuf j) ∧
      (∀ j, 12 ≤ j → j < 15 → byteAt sp j = byteAt s.polyS j) ∧
      byteAt sp 15 = byteAt s.polyS 15 &&& 0x7f#8 ∧
      tg = (if s.ksz then aesEnc256 s.enckey sp else aesEnc128 s.enckey sp) ∧
      (s.dir = false → phaseStep s = { s with tag := tg, phase := .keystream }) ∧
      (s.dir = true → tg = s.rtag → phaseStep s = { s with tag := tg, phase := .finalize }) ∧
      (s.dir = true → tg ≠ s.rtag →
        phaseStep s = { s with tag := tg, errl := 5, phase := .finalize })

/-- KEYSTREAM (rules R244, R197): with the seed TAG on ENCRYPT and RTAG on DECRYPT, WORK[0..L_MSG) becomes INMEM[0..L_MSG)
xored with the encrypted counter blocks of rule R87, CB stands one block past the last, KS holds the last keystream
block (an empty message encrypts none), PHASE goes to FINALIZE or HASH, and the rest of WORK and everything else
stays. -/
def Obligations.KeystreamPhaseWritesWork : Prop :=
  ∀ (s : State) (t : Block), s.phase = .keystream → t = (if s.dir then s.rtag else s.tag) →
    ∃ (m : Memory) (e : Nat → Block),
      (∀ j, e j = if s.ksz then aesEnc256 s.enckey (counterBlock t j)
        else aesEnc128 s.enckey (counterBlock t j)) ∧
      phaseStep s = { s with
        work := m
        cb := counterBlock t (blockCount s.lMsg.toNat)
        ks := if s.lMsg = 0 then s.ks else e (blockCount s.lMsg.toNat - 1)
        phase := if s.dir then .hash else .finalize } ∧
      (∀ a, a < s.lMsg.toNat →
        (phaseStep s).peek .work a = s.peek .inmem a ^^^ byteAt (e (a / 16)) (a % 16)) ∧
      (∀ a, s.lMsg.toNat ≤ a → (phaseStep s).peek .work a = s.peek .work a)

/-- FINALIZE (rule R250): on success WORK[0..L_MSG) and, on ENCRYPT, the tag go to OUTMEM, every other byte of OUTMEM stays,
and OUTLEN and STATUS say so; on an error OUTMEM is not written; the internal state is zeroized in every case. That
all of WORK is cleared, not the written bytes alone, is read by inference (log 6). -/
def Obligations.FinalizeReleasesOrWithholds : Prop :=
  ∀ s : State, s.phase = .finalize →
    (s.errl = 0 → s.dir = false → ∃ m,
      phaseStep s = { zeroize s with
        outmem := m, outlen := s.lMsg + 16, status := 0x02#32, phase := .idle } ∧
      (∀ a, a < s.lMsg.toNat → (phaseStep s).peek .outmem a = s.peek .work a) ∧
      (∀ k, k < 16 → (phaseStep s).peek .outmem (s.lMsg.toNat + k) = byteAt s.tag k) ∧
      (∀ a, s.lMsg.toNat + 16 ≤ a → (phaseStep s).peek .outmem a = s.peek .outmem a)) ∧
    (s.errl = 0 → s.dir = true → ∃ m,
      phaseStep s = { zeroize s with
        outmem := m, outlen := s.lMsg, status := 0x02#32, phase := .idle } ∧
      (∀ a, a < s.lMsg.toNat → (phaseStep s).peek .outmem a = s.peek .work a) ∧
      (∀ a, s.lMsg.toNat ≤ a → (phaseStep s).peek .outmem a = s.peek .outmem a)) ∧
    (s.errl ≠ 0 → phaseStep s = { zeroize s with
      outlen := 0, status := BitVec.ofNat 32 (6 + 16 * s.errl.toNat), phase := .idle }) ∧
    zeroize s = { s with
      work := [], dir := false, ksz := false, lAad := 0, lMsg := 0, errl := 0, authkey := 0,
      enckey := 0, polyH := 0, polyS := 0, tag := 0, rtag := 0, cb := 0, ks := 0 }

/-- Every command ends (rule R231): from any state at all, five phases lead to IDLE. -/
def Obligations.EveryCommandEndsWithinFivePhases : Prop :=
  ∀ s : State, (runPhases 5 s).phase = .idle

/-- `raise K` (rule R292): ERRL and PHASE written, nothing else; FINALIZE then ends the command with OUTLEN = 0, the
STATUS of the code, OUTMEM and every other host-visible thing untouched, and every internal register and WORK
zero. -/
def Obligations.RaiseLeadsToFinalizeAndIdle : Prop :=
  ∀ (k : ErrorKind) (s : State),
    raise k s = { s with errl := k.code, phase := .finalize } ∧
    phaseStep (raise k s) =
      endCommand 0 (BitVec.ofNat 32 (6 + 16 * k.code.toNat)) s ∧
    k.code =
      match k with
      | .invalidKeySize => 1
      | .invalidNonceSize => 2
      | .inputTooLarge => 3
      | .malformedCiphertext => 4
      | .authenticationFailure => 5

/-- ENCRYPT (rule R251). When every check passes, OUTMEM[0..L+16) is `ct || tag` as the rule's function gives it,
OUTLEN = L + 16, STATUS = 0x02, and the rest of the state is as rule R326 says. Otherwise the first failing
check of the three, in the order nonce, key, size, gives STATUS, with OUTLEN = 0 and nothing released. That
order is the chosen one, ERR_PRIORITY's default (log 8). -/
def Obligations.EncryptIsTheSealFunction : Prop :=
  (∀ s : State, EncryptRuns s →
    exec .encrypt s = .next (endCommand (s.msglen + 16) 0x02#32
      (s.memWrite .outmem 0
        (sealMessage s.keyIs32 s.inputKey (s.memRead .noncebuf 0 12) s.inputMsg s.inputAad)))) ∧
  (∀ s : State, s.busy = false →
    (s.noncelen.toNat ≠ 12 → exec .encrypt s = .next (endCommand 0 0x26#32 s)) ∧
    (s.noncelen.toNat = 12 → s.keylen.toNat ≠ 16 → s.keylen.toNat ≠ 32 →
      exec .encrypt s = .next (endCommand 0 0x16#32 s)) ∧
    (s.noncelen.toNat = 12 → s.keylen.toNat = 16 ∨ s.keylen.toNat = 32 →
      Config.maxInputBytes < s.msglen.toNat + s.aadlen.toNat →
      exec .encrypt s = .next (endCommand 0 0x36#32 s))) ∧
  encodeCode .encrypt = 0x01#8 ∧
  (∀ s : State, EncryptRuns s → s.keylen = 16 → s.aadlen = 0 → s.msglen = 8 →
    s.memRead .keybuf 0 16 = [1, 0, 0, 0, 0, 0, 0, 0, 0, 0, 0, 0, 0, 0, 0, 0] →
    s.memRead .noncebuf 0 12 = [3, 0, 0, 0, 0, 0, 0, 0, 0, 0, 0, 0] →
    s.memRead .inmem 0 8 = [1, 0, 0, 0, 0, 0, 0, 0] →
    ∃ t, exec .encrypt s = .next t ∧ t.status = 0x02#32 ∧ t.outlen = 24 ∧
      t.memRead .outmem 0 24 = [0xb5, 0xd8, 0x39, 0x33, 0x0a, 0xc7, 0xb7, 0x86,
        0x57, 0x87, 0x82, 0xff, 0xf6, 0x01, 0x3b, 0x81,
        0x5b, 0x28, 0x7c, 0x22, 0x49, 0x3a, 0x36, 0x4c])

/-- DECRYPT (rule R252). When INIT raises nothing: if the recomputed tag equals the received tag in all 128 bits,
OUTMEM[0..L) is the plaintext, OUTLEN = L and STATUS = 0x02; otherwise STATUS = 0x56, OUTLEN = 0 and nothing is
released. When INIT raises, the first failing check of the four, in the order tag length, nonce, key, size,
gives STATUS. The order of nonce, key and size among themselves is the chosen one, ERR_PRIORITY's default (log 8). -/
def Obligations.DecryptIsTheOpenFunction : Prop :=
  (∀ s : State, DecryptRuns s →
    exec .decrypt s = .next
      (match openMessage s.keyIs32 s.inputKey (s.memRead .noncebuf 0 12) s.inputMsg s.inputAad with
      | some pt => endCommand (s.msglen - 16) 0x02#32 (s.memWrite .outmem 0 pt)
      | none => endCommand 0 0x56#32 s)) ∧
  (∀ s : State, s.busy = false →
    (s.msglen.toNat < 16 → exec .decrypt s = .next (endCommand 0 0x46#32 s)) ∧
    (16 ≤ s.msglen.toNat → s.noncelen.toNat ≠ 12 →
      exec .decrypt s = .next (endCommand 0 0x26#32 s)) ∧
    (16 ≤ s.msglen.toNat → s.noncelen.toNat = 12 → s.keylen.toNat ≠ 16 → s.keylen.toNat ≠ 32 →
      exec .decrypt s = .next (endCommand 0 0x16#32 s)) ∧
    (16 ≤ s.msglen.toNat → s.noncelen.toNat = 12 → s.keylen.toNat = 16 ∨ s.keylen.toNat = 32 →
      Config.maxInputBytes < s.msglen.toNat - 16 + s.aadlen.toNat →
      exec .decrypt s = .next (endCommand 0 0x36#32 s))) ∧
  encodeCode .decrypt = 0x02#8 ∧
  (∀ s : State, DecryptRuns s → s.keylen = 16 → s.aadlen = 0 → s.msglen = 24 →
    s.memRead .keybuf 0 16 = [1, 0, 0, 0, 0, 0, 0, 0, 0, 0, 0, 0, 0, 0, 0, 0] →
    s.memRead .noncebuf 0 12 = [3, 0, 0, 0, 0, 0, 0, 0, 0, 0, 0, 0] →
    s.memRead .inmem 0 23 = [0xb5, 0xd8, 0x39, 0x33, 0x0a, 0xc7, 0xb7, 0x86,
        0x57, 0x87, 0x82, 0xff, 0xf6, 0x01, 0x3b, 0x81,
        0x5b, 0x28, 0x7c, 0x22, 0x49, 0x3a, 0x36] →
    ∃ t, exec .decrypt s = .next t ∧
      (s.peek .inmem 23 = 0x4c → t.status = 0x02#32 ∧ t.outlen = 8 ∧
        t.memRead .outmem 0 8 = [1, 0, 0, 0, 0, 0, 0, 0]) ∧
      (s.peek .inmem 23 = 0x4d → t.status = 0x56#32 ∧ t.outlen = 0))

/-- OUTLEN after a command (rule R26), and the values STATUS can have then: ENCRYPT never ends in MalformedCiphertext or
AuthenticationFailure. -/
def Obligations.OutlenAndStatusAfterACommand : Prop :=
  ∀ s : State, s.busy = false →
    (∃ t, exec .encrypt s = .next t ∧
      (statusError t.status = false → t.outlen.toNat = s.msglen.toNat + 16) ∧
      (statusError t.status = true → t.outlen = 0) ∧
      t.status ∈ [0x02#32, 0x16#32, 0x26#32, 0x36#32]) ∧
    (∃ t, exec .decrypt s = .next t ∧
      (statusError t.status = false → t.outlen.toNat = s.msglen.toNat - 16) ∧
      (statusError t.status = true → t.outlen = 0) ∧
      t.status ∈ [0x02#32, 0x16#32, 0x26#32, 0x36#32, 0x46#32, 0x56#32])

/-- A command that ends in any of the five errors releases nothing: OUTLEN = 0, every byte of OUTMEM as before, and
nothing of the candidate plaintext, the keystream, the hash or the subkeys left (rule R294). -/
def Obligations.FailedCommandReleasesNothing : Prop :=
  ∀ (s t : State), exec .encrypt s = .next t ∨ exec .decrypt s = .next t →
    statusError t.status = true →
      t.outlen = 0 ∧ (∀ a, t.peek .outmem a = s.peek .outmem a) ∧ (∀ a, t.peek .work a = 0) ∧
      t.ks = 0 ∧ t.cb = 0 ∧ t.polyS = 0 ∧ t.polyH = 0 ∧ t.authkey = 0 ∧ t.enckey = 0

/-- Zeroization at the end of every command, on every exit path (rule R44), and PHASE back in IDLE. That all of WORK
is cleared, not the written bytes alone, is read by inference (log 6). -/
def Obligations.EveryCommandZeroizes : Prop :=
  ∀ s : State, s.busy = false → ∀ i : Instr, i = .encrypt ∨ i = .decrypt →
    ∃ t, exec i s = .next t ∧ t.phase = .idle ∧ t.dir = false ∧ t.ksz = false ∧ t.lAad = 0 ∧
      t.lMsg = 0 ∧ t.errl = 0 ∧ t.authkey = 0 ∧ t.enckey = 0 ∧ t.polyH = 0 ∧ t.polyS = 0 ∧
      t.tag = 0 ∧ t.rtag = 0 ∧ t.cb = 0 ∧ t.ks = 0 ∧ ∀ a, t.peek .work a = 0

/-- Round trip (rule R261): what ENCRYPT leaves in OUTMEM, given to DECRYPT with the same key, nonce and AAD, comes
back as the plaintext. The decrypting state `u` may be any idle CORE whose inputs are those. -/
def Obligations.DecryptOfEncryptReturnsThePlaintext : Prop :=
  ∀ s : State, EncryptRuns s →
    ∃ t, exec .encrypt s = .next t ∧ t.status = 0x02#32 ∧
      t.outlen.toNat = s.msglen.toNat + 16 ∧
      ∀ u : State, u.busy = false → u.keylen = s.keylen → u.noncelen = s.noncelen →
        u.aadlen = s.aadlen → u.msglen = t.outlen →
        u.memRead .keybuf 0 s.keylen.toNat = s.memRead .keybuf 0 s.keylen.toNat →
        u.memRead .noncebuf 0 12 = s.memRead .noncebuf 0 12 →
        u.memRead .aadmem 0 s.aadlen.toNat = s.memRead .aadmem 0 s.aadlen.toNat →
        u.memRead .inmem 0 t.outlen.toNat = t.memRead .outmem 0 t.outlen.toNat →
        ∃ v, exec .decrypt u = .next v ∧ v.status = 0x02#32 ∧ v.outlen = s.msglen ∧
          v.memRead .outmem 0 s.msglen.toNat = s.memRead .inmem 0 s.msglen.toNat

/-- At most one tag is accepted for a ciphertext (rules R245, R252): two inputs that differ only in bit 7 of the last
byte, which the counter block ignores, are not both accepted. -/
def Obligations.ForcedTagBitIsStillCompared : Prop :=
  ∀ (s u t v : State), DecryptRuns s → DecryptRuns u →
    u.keylen = s.keylen → u.aadlen = s.aadlen → u.msglen = s.msglen →
    u.memRead .keybuf 0 s.keylen.toNat = s.memRead .keybuf 0 s.keylen.toNat →
    u.memRead .noncebuf 0 12 = s.memRead .noncebuf 0 12 →
    u.memRead .aadmem 0 s.aadlen.toNat = s.memRead .aadmem 0 s.aadlen.toNat →
    (∀ a, a < s.msglen.toNat - 1 → u.peek .inmem a = s.peek .inmem a) →
    u.peek .inmem (s.msglen.toNat - 1) = s.peek .inmem (s.msglen.toNat - 1) ^^^ 0x80#8 →
    exec .decrypt s = .next t → exec .decrypt u = .next v →
    t.status = 0x02#32 → v.status = 0x56#32

/-- The result of a command depends on the command, the four length registers and the bytes in the ranges of rule R52,
and on nothing else: not on bytes beyond the stated lengths, not on what any register or buffer held before. -/
def Obligations.CommandReadsOnlyItsInputs : Prop :=
  ∀ (s u : State) (i : Instr), i = .encrypt ∨ i = .decrypt → s.busy = false → u.busy = false →
    u.keylen = s.keylen → u.noncelen = s.noncelen → u.aadlen = s.aadlen → u.msglen = s.msglen →
    u.memRead .keybuf 0 s.keylen.toNat = s.memRead .keybuf 0 s.keylen.toNat →
    u.memRead .noncebuf 0 12 = s.memRead .noncebuf 0 12 →
    u.memRead .aadmem 0 s.aadlen.toNat = s.memRead .aadmem 0 s.aadlen.toNat →
    u.memRead .inmem 0 s.msglen.toNat = s.memRead .inmem 0 s.msglen.toNat →
    ∃ t v, exec i s = .next t ∧ exec i u = .next v ∧ t.observation = v.observation

/-- Nothing internal shows: two idle COREs that look the same to the host step alike, as the host sees it, their internal registers, WORK and unit operands hold (rules R18, R45, R326), and are idle again after the step. -/
def Obligations.IdleStepsHideTheInternalState : Prop :=
  ∀ s u : State, s.phase = .idle → u.phase = .idle → s.hostView = u.hostView →
    viewOutcome (step s) = viewOutcome (step u) ∧
      (∀ s', step s = .next s' → s'.phase = .idle) ∧ ∀ u', step u = .next u' → u'.phase = .idle

/-- No operation writes a length register or an input buffer (rules R23, R46), nor what is still to happen, what the
host has read, or the count of resets. -/
def Obligations.InputsAreNeverWritten : Prop :=
  ∀ (i : Instr) (s t : State), exec i s = .next t →
    t.keylen = s.keylen ∧ t.noncelen = s.noncelen ∧ t.aadlen = s.aadlen ∧ t.msglen = s.msglen ∧
    t.keybuf = s.keybuf ∧ t.noncebuf = s.noncebuf ∧ t.aadmem = s.aadmem ∧ t.inmem = s.inmem ∧
    t.pending = s.pending ∧ t.hostRead = s.hostRead ∧ t.epoch = s.epoch

/-- The frame of the two commands: beside STATUS, OUTLEN, OUTMEM[0..OUTLEN) and the internal state, which is zero
afterwards, nothing changes; every byte of OUTMEM at or beyond OUTLEN keeps what it held (rule R250). That all of
WORK is zero from any state at all rests on log 6. -/
def Obligations.CommandFrame : Prop :=
  ∀ (i : Instr) (s t : State), i = .encrypt ∨ i = .decrypt → exec i s = .next t →
    t = { zeroize s with
      phase := .idle, status := t.status, outlen := t.outlen, outmem := t.outmem } ∧
    (∀ (sp : Space) (a : Nat), sp ≠ .work → ¬(sp = .outmem ∧ a < t.outlen.toNat) →
      t.peek sp a = s.peek sp a) ∧
    (∀ a, t.peek .work a = 0)

/-- The frame of the ten unit operations: each completes in every state and leaves every host-visible register, every
space, PHASE and the latches as they were (rules R81, R111, R174). That a step can issue one alone is the model's
own (log 11). -/
def Obligations.UnitOperationFrame : Prop :=
  ∀ (i : Instr) (s : State), hostIssuable i = false →
    ∃ t, exec i s = .next t ∧ t.hostView = s.hostView ∧
      (∀ (sp : Space) (a : Nat), t.peek sp a = s.peek sp a) ∧
      t.phase = s.phase ∧ t.dir = s.dir ∧ t.ksz = s.ksz ∧ t.lAad = s.lAad ∧ t.lMsg = s.lMsg ∧
      t.errl = s.errl ∧ t.tag = s.tag ∧ t.rtag = s.rtag
end

