-- ==== Sys2Proof/Laws/Bytes.lean ====
section
/-! SUPPORT. The small lemmas of Machine/Bytes.lean: reading one byte of a packed value, packing the bytes of a value
again, equality of values by their bytes, and the lengths of the byte strings. -/

namespace Sys2Proof.Machine

theorem byteAt_toNat {w : Nat} (v : BitVec w) (j : Nat) :
    (byteAt v j).toNat = v.toNat / 256 ^ j % 256 := by
  simp [byteAt, BitVec.extractLsb'_toNat, Nat.shiftRight_eq_div_pow, pow_mul]

theorem byteAt_getLsbD {w : Nat} (v : BitVec w) (j k : Nat) (hk : k < 8) :
    (byteAt v j).getLsbD k = v.getLsbD (8 * j + k) := by
  simp [byteAt, hk]

@[simp] theorem byteAt_zero (w j : Nat) : byteAt (0 : BitVec w) j = 0 := by
  apply BitVec.eq_of_toNat_eq
  simp [byteAt_toNat]

/-- Byte `j` of `le_int(b)` is `b[j]`, 0 beyond the string (rule R10). -/
theorem leInt_digit (b : List Byte) (j : Nat) :
    leInt b / 256 ^ j % 256 = (b.getD j 0).toNat := by
  induction b generalizing j with
  | nil => simp [leInt]
  | cons x xs ih =>
    have hx : x.toNat < 256 := x.isLt
    cases j with
    | zero => simp [leInt]; omega
    | succ j =>
      have h : (x.toNat + 256 * leInt xs) / 256 = leInt xs := by omega
      simpa [leInt, pow_succ', ← Nat.div_div_eq_div_mul, h] using ih j

theorem leInt_lt (b : List Byte) : leInt b < 256 ^ b.length := by
  induction b with
  | nil => simp [leInt]
  | cons x xs ih =>
    have hx : x.toNat < 256 := x.isLt
    simp only [leInt, List.length_cons, pow_succ]
    omega

/-- Byte `j` of `bits(b)` is `b[j]`, 0 beyond the string (rule R9). -/
theorem byteAt_bits (n : Nat) (b : List Byte) (j : Nat) (hj : j < n) :
    byteAt (bits (8 * n) b) j = b.getD j 0 := by
  apply BitVec.eq_of_toNat_eq
  rw [byteAt_toNat, ← leInt_digit, bits, BitVec.toNat_ofNat]
  have h : 2 ^ (8 * n) = 256 ^ j * (256 * 256 ^ (n - j - 1)) := by
    rw [← pow_succ', ← pow_add, pow_mul]
    congr 1
    omega
  rw [h, Nat.mod_mul_right_div_self, Nat.mod_mul_right_mod]

theorem byteAt_bits128 (b : List Byte) (j : Nat) (hj : j < 16) :
    byteAt (bits 128 b) j = b.getD j 0 := byteAt_bits 16 b j hj

theorem byteAt_bits256 (b : List Byte) (j : Nat) (hj : j < 32) :
    byteAt (bits 256 b) j = b.getD j 0 := byteAt_bits 32 b j hj

theorem byteAt_bits32 (b : List Byte) (j : Nat) (hj : j < 4) :
    byteAt (bits 32 b) j = b.getD j 0 := byteAt_bits 4 b j hj

/-- Two values of `n` bytes are equal when their bytes are. -/
theorem eq_of_byteAt {n : Nat} {a b : BitVec (8 * n)}
    (h : ∀ j, j < n → byteAt a j = byteAt b j) : a = b := by
  apply BitVec.eq_of_getLsbD_eq
  intro i hi
  have e : i = 8 * (i / 8) + i % 8 := by omega
  rw [e, ← byteAt_getLsbD a _ _ (Nat.mod_lt _ (by decide)),
    ← byteAt_getLsbD b _ _ (Nat.mod_lt _ (by decide)), h _ (by omega)]

theorem block_ext {a b : Block} (h : ∀ j, j < 16 → byteAt a j = byteAt b j) : a = b :=
  eq_of_byteAt (n := 16) h

@[simp] theorem length_bytesOf {w : Nat} (n : Nat) (v : BitVec w) : (bytesOf n v).length = n := by
  simp [bytesOf]

@[simp] theorem length_bytes16 (v : Block) : (bytes16 v).length = 16 := by simp [bytes16]

@[simp] theorem length_leBytes (n v : Nat) : (leBytes n v).length = n := by simp [leBytes]

@[simp] theorem length_zeros (n : Nat) : (zeros n).length = n := by simp [zeros]

@[simp] theorem length_xorBytes (d : List Byte) (k : Block) :
    (xorBytes d k).length = min d.length 16 := by simp [xorBytes]

theorem getD_bytesOf {w : Nat} (n : Nat) (v : BitVec w) (j : Nat) (hj : j < n) :
    (bytesOf n v).getD j 0 = byteAt v j := by
  simp [bytesOf, List.getD, hj]

theorem getD_bytes16 (v : Block) (j : Nat) (hj : j < 16) : (bytes16 v).getD j 0 = byteAt v j :=
  getD_bytesOf 16 v j hj

theorem getD_zeros (n j : Nat) : (zeros n).getD j 0 = 0 := by
  simp only [zeros, List.getD, List.getElem?_replicate]
  split <;> rfl

theorem getD_append (a b : List Byte) (j : Nat) :
    (a ++ b).getD j 0 = if j < a.length then a.getD j 0 else b.getD (j - a.length) 0 := by
  simp only [List.getD, List.getElem?_append]
  split <;> rfl

theorem getD_append_zeros (b : List Byte) (n j : Nat) : (b ++ zeros n).getD j 0 = b.getD j 0 := by
  rw [getD_append, getD_zeros]
  split
  · rfl
  · rw [List.getD_eq_default _ _ (by omega)]

/-- `bytes16` is the inverse of `bits` (rule R9). -/
@[simp] theorem bits_bytes16 (v : Block) : bits 128 (bytes16 v) = v := by
  apply block_ext
  intro j hj
  rw [byteAt_bits128 _ _ hj, getD_bytes16 _ _ hj]

theorem bytes16_bits (b : List Byte) (h : b.length = 16) : bytes16 (bits 128 b) = b := by
  apply List.ext_getElem
  · simp [h]
  · intro j h1 h2
    have hj : j < 16 := by omega
    have e := getD_bytes16 (bits 128 b) j hj
    rw [byteAt_bits128 _ _ hj, List.getD_eq_getElem _ _ h1, List.getD_eq_getElem _ _ h2] at e
    exact e

/-- Byte `k` of the block built from `f` is `f k`. -/
theorem byteAt_blockOf (f : Nat → Byte) (k : Nat) (hk : k < 16) : byteAt (blockOf f) k = f k := by
  rw [blockOf, byteAt_bits128 _ _ hk]
  simp [List.getD, hk]

theorem byteAt_xor {w : Nat} (a b : BitVec w) (j : Nat) :
    byteAt (a ^^^ b) j = byteAt a j ^^^ byteAt b j := by
  simp [byteAt, BitVec.extractLsb'_xor]

theorem getD_leBytes (n v j : Nat) (hj : j < n) :
    (leBytes n v).getD j 0 = BitVec.ofNat 8 (v >>> (8 * j)) := by
  simp [leBytes, List.getD, hj]

/-- `le_int` is the inverse of `LE` below 2^(8n) (rule R10). -/
theorem leInt_leBytes (n v : Nat) (h : v < 256 ^ n) : leInt (leBytes n v) = v := by
  induction n generalizing v with
  | zero => simp_all [leBytes, leInt]
  | succ n ih =>
    have e : leBytes (n + 1) v = BitVec.ofNat 8 v :: leBytes n (v / 256) := by
      simp only [leBytes, List.range_succ_eq_map, List.map_cons, List.map_map, mul_zero,
        Nat.shiftRight_zero, List.cons.injEq, true_and]
      apply List.map_congr_left
      intro j _
      simp only [Function.comp, Nat.succ_eq_add_one, Nat.mul_add, mul_one]
      rw [Nat.shiftRight_eq_div_pow, Nat.shiftRight_eq_div_pow, Nat.add_comm, pow_add,
        ← Nat.div_div_eq_div_mul]
      rfl
    rw [e, leInt, ih _ (by rw [pow_succ] at h; exact Nat.div_lt_of_lt_mul (by omega))]
    simp only [BitVec.toNat_ofNat]
    omega

theorem getD_xorBytes (d : List Byte) (k : Block) (j : Nat) (h : j < d.length) (hj : j < 16) :
    (xorBytes d k).getD j 0 = d.getD j 0 ^^^ byteAt k j := by
  have h1 : j < (xorBytes d k).length := by rw [length_xorBytes]; omega
  have h2 : j < (bytes16 k).length := by rw [length_bytes16]; exact hj
  rw [List.getD_eq_getElem _ _ h1, ← getD_bytes16 k j hj, List.getD_eq_getElem _ _ h,
    List.getD_eq_getElem _ _ h2]
  simp [xorBytes]

theorem blockLen_le (L i : Nat) : blockLen L i ≤ 16 := Nat.min_le_left _ _

theorem blockLen_pos (L i : Nat) (h : i < blockCount L) : 0 < blockLen L i := by
  simp only [blockLen, blockCount] at *
  omega

/-- The block an index of a string of `L` bytes falls in has that index. -/
theorem lt_blockLen (L a : Nat) (h : a < L) : a % 16 < blockLen L (a / 16) := by
  simp only [blockLen]
  omega

end Sys2Proof.Machine
end

