-- ==== Sys2Proof/Laws/Memory.lean ====
section
/-! SUPPORT. The laws of one address space: a write is read back and leaves every other index alone, every write keeps
the canonical form, and canonical memories that read the same are equal. -/

namespace Sys2Proof.Machine

/-- What a space reads at an index, given what an unlisted index reads as. -/
def Memory.readOr (d : Nat → Byte) (a : Nat) (m : Memory) : Byte := (Memory.get? a m).getD (d a)

theorem get?_insert_self (a : Nat) (v : Byte) (m : Memory) :
    Memory.get? a (Memory.insert a v m) = some v := by
  induction m with
  | nil => simp [Memory.insert, Memory.get?]
  | cons c m ih =>
    obtain ⟨b, w⟩ := c
    simp only [Memory.insert]
    split
    · simp [Memory.get?]
    · split
      · simp [Memory.get?]
      · rw [Memory.get?, if_neg (by omega), ih]

theorem get?_insert_ne (a b : Nat) (v : Byte) (m : Memory) (h : b ≠ a) :
    Memory.get? b (Memory.insert a v m) = Memory.get? b m := by
  induction m with
  | nil => simp [Memory.insert, Memory.get?, h.symm]
  | cons c m ih =>
    obtain ⟨x, w⟩ := c
    simp only [Memory.insert]
    split
    · rw [Memory.get?, if_neg h.symm]
    · split
      · rename_i h2
        rw [Memory.get?, Memory.get?, if_neg h.symm, if_neg (by omega)]
      · rw [Memory.get?, Memory.get?, ih]

theorem get?_remove_self (a : Nat) (m : Memory) : Memory.get? a (Memory.remove a m) = none := by
  induction m with
  | nil => rfl
  | cons c m ih =>
    obtain ⟨x, w⟩ := c
    by_cases h : x = a
    · simpa [Memory.remove, h] using ih
    · simpa [Memory.remove, h, Memory.get?] using ih

theorem get?_remove_ne (a b : Nat) (m : Memory) (h : b ≠ a) :
    Memory.get? b (Memory.remove a m) = Memory.get? b m := by
  induction m with
  | nil => rfl
  | cons c m ih =>
    obtain ⟨x, w⟩ := c
    by_cases hx : x = a
    · have hb : x ≠ b := by omega
      simpa [Memory.remove, hx, Memory.get?, hb, h.symm] using ih
    · by_cases hb : x = b
      · simp [Memory.remove, Memory.get?, hb, h]
      · simpa [Memory.remove, hx, Memory.get?, hb] using ih

theorem get?_write_ne (sp : Space) (a b : Nat) (v : Byte) (m : Memory) (h : b ≠ a) :
    Memory.get? b (Memory.write sp a v m) = Memory.get? b m := by
  unfold Memory.write
  split
  · exact get?_remove_ne a b m h
  · exact get?_insert_ne a b v m h

/-- A byte written is read back. -/
theorem readOr_write_self (e : Nat) (sp : Space) (a : Nat) (v : Byte) (m : Memory) :
    Memory.readOr (unlistedByte e sp) a (Memory.write sp a v m) = v := by
  unfold Memory.write Memory.readOr
  split
  · rename_i h
    simp [get?_remove_self, unlistedByte, h]
  · simp [get?_insert_self]

/-- A write leaves every other byte alone. -/
theorem readOr_write_ne (d : Nat → Byte) (sp : Space) (a b : Nat) (v : Byte) (m : Memory)
    (h : b ≠ a) : Memory.readOr d b (Memory.write sp a v m) = Memory.readOr d b m := by
  unfold Memory.readOr
  rw [get?_write_ne sp a b v m h]

/-- What a space reads after a byte string is written: the string where it lies, the old bytes elsewhere. -/
theorem readOr_writeBytes (e : Nat) (sp : Space) (p : Nat) (v : List Byte) (m : Memory) (a : Nat) :
    Memory.readOr (unlistedByte e sp) a (Memory.writeBytes sp p v m) =
      if p ≤ a ∧ a < p + v.length then v.getD (a - p) 0
      else Memory.readOr (unlistedByte e sp) a m := by
  induction v generalizing p m with
  | nil =>
    rw [Memory.writeBytes, if_neg (by simp)]
  | cons x xs ih =>
    rw [Memory.writeBytes, ih]
    simp only [List.length_cons]
    by_cases h : a = p
    · subst h
      rw [if_neg (by omega), if_pos (by omega), readOr_write_self]
      simp
    · rw [readOr_write_ne _ _ _ _ _ _ h]
      by_cases h2 : p + 1 ≤ a ∧ a < p + 1 + xs.length
      · rw [if_pos h2, if_pos (by omega)]
        have : a - p = (a - (p + 1)) + 1 := by omega
        rw [this]
        simp
      · rw [if_neg h2, if_neg (by omega)]

theorem writeBytes_append (sp : Space) (p : Nat) (a b : List Byte) (m : Memory) :
    Memory.writeBytes sp p (a ++ b) m =
      Memory.writeBytes sp (p + a.length) b (Memory.writeBytes sp p a m) := by
  induction a generalizing p m with
  | nil => rfl
  | cons x xs ih =>
    simp only [List.cons_append, Memory.writeBytes, List.length_cons, ih]
    congr 1
    omega

/-! ### The canonical form -/

theorem wf_nil (sp : Space) : Memory.wf sp [] = true := by simp [Memory.wf]

/-- The canonical form, clause by clause. -/
theorem wf_iff (sp : Space) (m : Memory) :
    Memory.wf sp m = true ↔
      m.Pairwise (fun c d => c.1 < d.1) ∧
        ∀ c ∈ m, c.1 < Config.spaceSize sp ∧ Config.unlisted sp ≠ some c.2 := by
  simp [Memory.wf]

theorem mem_insert (a : Nat) (v : Byte) (m : Memory) (c : Host.Cell)
    (h : c ∈ Memory.insert a v m) : c = (a, v) ∨ c ∈ m := by
  induction m with
  | nil => simpa [Memory.insert] using h
  | cons d m ih =>
    obtain ⟨b, w⟩ := d
    simp only [Memory.insert] at h
    split at h
    · simpa using h
    · split at h
      · rcases List.mem_cons.1 h with h | h
        · exact .inl h
        · exact .inr (List.mem_cons_of_mem _ h)
      · rcases List.mem_cons.1 h with h | h
        · exact .inr (h ▸ List.mem_cons_self)
        · rcases ih h with h | h
          · exact .inl h
          · exact .inr (List.mem_cons_of_mem _ h)

theorem pairwise_insert (a : Nat) (v : Byte) (m : Memory)
    (h : m.Pairwise fun c d => c.1 < d.1) :
    (Memory.insert a v m).Pairwise fun c d => c.1 < d.1 := by
  induction m with
  | nil => simp [Memory.insert]
  | cons d m ih =>
    obtain ⟨b, w⟩ := d
    rw [List.pairwise_cons] at h
    simp only [Memory.insert]
    split
    · rename_i hab
      refine List.pairwise_cons.2 ⟨fun c hc => ?_, List.pairwise_cons.2 h⟩
      rcases List.mem_cons.1 hc with hc | hc
      · simpa [hc] using hab
      · exact Nat.lt_trans hab (h.1 c hc)
    · split
      · rename_i hab
        exact List.pairwise_cons.2 ⟨fun c hc => by simpa [hab] using h.1 c hc, h.2⟩
      · refine List.pairwise_cons.2 ⟨fun c hc => ?_, ih h.2⟩
        rcases mem_insert a v m c hc with hc | hc
        · simp only [hc]; omega
        · exact h.1 c hc

/-- A write inside the space keeps the canonical form. -/
theorem wf_write (sp : Space) (a : Nat) (v : Byte) (m : Memory) (h : Memory.wf sp m = true)
    (ha : a < Config.spaceSize sp) : Memory.wf sp (Memory.write sp a v m) = true := by
  rw [wf_iff] at *
  unfold Memory.write
  split
  · exact ⟨h.1.sublist List.filter_sublist, fun c hc => h.2 c (List.mem_filter.1 hc).1⟩
  · rename_i hv
    refine ⟨pairwise_insert a v m h.1, fun c hc => ?_⟩
    rcases mem_insert a v m c hc with hc | hc
    · simpa [hc] using ⟨ha, hv⟩
    · exact h.2 c hc

/-- Writing a byte string inside the space keeps the canonical form. -/
theorem wf_writeBytes (sp : Space) (p : Nat) (v : List Byte) (m : Memory)
    (h : Memory.wf sp m = true) (hp : p + v.length ≤ Config.spaceSize sp) :
    Memory.wf sp (Memory.writeBytes sp p v m) = true := by
  induction v generalizing p m with
  | nil => exact h
  | cons x xs ih =>
    simp only [List.length_cons] at hp
    exact ih (p + 1) _ (wf_write sp p x m h (by omega)) (by omega)

theorem get?_eq_none_of_lt (a : Nat) (m : Memory) (h : ∀ c ∈ m, a < c.1) :
    Memory.get? a m = none := by
  induction m with
  | nil => rfl
  | cons c m ih =>
    obtain ⟨b, w⟩ := c
    have hb := h _ List.mem_cons_self
    rw [Memory.get?, if_neg (by simp only at hb; omega)]
    exact ih fun c hc => h c (List.mem_cons_of_mem _ hc)

/-- Canonical memories that list the same byte at every index are equal. -/
theorem eq_of_get? (m m' : Memory) (h : m.Pairwise fun c d => c.1 < d.1)
    (h' : m'.Pairwise fun c d => c.1 < d.1) (e : ∀ a, Memory.get? a m = Memory.get? a m') :
    m = m' := by
  induction m generalizing m' with
  | nil =>
    cases m' with
    | nil => rfl
    | cons c m' =>
      have := e c.1
      simp [Memory.get?] at this
  | cons c m ih =>
    obtain ⟨b, w⟩ := c
    cases m' with
    | nil =>
      have := e b
      simp [Memory.get?] at this
    | cons c' m' =>
      obtain ⟨b', w'⟩ := c'
      rw [List.pairwise_cons] at h h'
      have hbb : b = b' := by
        rcases Nat.lt_trichotomy b b' with hlt | heq | hgt
        · have := e b
          rw [Memory.get?, if_pos rfl, Memory.get?, if_neg (by omega),
            get?_eq_none_of_lt b m' fun c hc => Nat.lt_trans hlt (h'.1 c hc)] at this
          simp at this
        · exact heq
        · have := e b'
          rw [Memory.get?, if_neg (by omega), Memory.get?, if_pos rfl,
            get?_eq_none_of_lt b' m fun c hc => Nat.lt_trans hgt (h.1 c hc)] at this
          simp at this
      subst hbb
      have hw : w = w' := by
        have := e b
        simpa [Memory.get?] using this
      subst hw
      congr 1
      refine ih m' h.2 h'.2 fun a => ?_
      by_cases ha : b = a
      · subst ha
        rw [get?_eq_none_of_lt b m h.1, get?_eq_none_of_lt b m' h'.1]
      · have := e a
        simpa [Memory.get?, ha] using this

end Sys2Proof.Machine
end

