-- ==== Sys2Proof/Laws/State.lean ====
section
/-! SUPPORT. The lemmas beside State: one per field per update, true by rfl and tagged simp, so that no later proof
unfolds a record update. The updates are the register writes of Machine/Ops.lean, each with its value a
variable, so that the kernel never looks inside a cipher or a product to check one of them. -/

namespace Sys2Proof.Machine

/-! ### setMem -/

@[simp] theorem setMem_keylen (sp : Space) (m : Memory) (s : State) : (s.setMem sp m).keylen = s.keylen := by
  cases sp <;> rfl
@[simp] theorem setMem_noncelen (sp : Space) (m : Memory) (s : State) : (s.setMem sp m).noncelen = s.noncelen := by
  cases sp <;> rfl
@[simp] theorem setMem_aadlen (sp : Space) (m : Memory) (s : State) : (s.setMem sp m).aadlen = s.aadlen := by
  cases sp <;> rfl
@[simp] theorem setMem_msglen (sp : Space) (m : Memory) (s : State) : (s.setMem sp m).msglen = s.msglen := by
  cases sp <;> rfl
@[simp] theorem setMem_status (sp : Space) (m : Memory) (s : State) : (s.setMem sp m).status = s.status := by
  cases sp <;> rfl
@[simp] theorem setMem_outlen (sp : Space) (m : Memory) (s : State) : (s.setMem sp m).outlen = s.outlen := by
  cases sp <;> rfl
@[simp] theorem setMem_phase (sp : Space) (m : Memory) (s : State) : (s.setMem sp m).phase = s.phase := by
  cases sp <;> rfl
@[simp] theorem setMem_dir (sp : Space) (m : Memory) (s : State) : (s.setMem sp m).dir = s.dir := by
  cases sp <;> rfl
@[simp] theorem setMem_ksz (sp : Space) (m : Memory) (s : State) : (s.setMem sp m).ksz = s.ksz := by
  cases sp <;> rfl
@[simp] theorem setMem_lAad (sp : Space) (m : Memory) (s : State) : (s.setMem sp m).lAad = s.lAad := by
  cases sp <;> rfl
@[simp] theorem setMem_lMsg (sp : Space) (m : Memory) (s : State) : (s.setMem sp m).lMsg = s.lMsg := by
  cases sp <;> rfl
@[simp] theorem setMem_errl (sp : Space) (m : Memory) (s : State) : (s.setMem sp m).errl = s.errl := by
  cases sp <;> rfl
@[simp] theorem setMem_authkey (sp : Space) (m : Memory) (s : State) : (s.setMem sp m).authkey = s.authkey := by
  cases sp <;> rfl
@[simp] theorem setMem_enckey (sp : Space) (m : Memory) (s : State) : (s.setMem sp m).enckey = s.enckey := by
  cases sp <;> rfl
@[simp] theorem setMem_polyH (sp : Space) (m : Memory) (s : State) : (s.setMem sp m).polyH = s.polyH := by
  cases sp <;> rfl
@[simp] theorem setMem_polyS (sp : Space) (m : Memory) (s : State) : (s.setMem sp m).polyS = s.polyS := by
  cases sp <;> rfl
@[simp] theorem setMem_tag (sp : Space) (m : Memory) (s : State) : (s.setMem sp m).tag = s.tag := by
  cases sp <;> rfl
@[simp] theorem setMem_rtag (sp : Space) (m : Memory) (s : State) : (s.setMem sp m).rtag = s.rtag := by
  cases sp <;> rfl
@[simp] theorem setMem_cb (sp : Space) (m : Memory) (s : State) : (s.setMem sp m).cb = s.cb := by
  cases sp <;> rfl
@[simp] theorem setMem_ks (sp : Space) (m : Memory) (s : State) : (s.setMem sp m).ks = s.ks := by
  cases sp <;> rfl
@[simp] theorem setMem_aesKey (sp : Space) (m : Memory) (s : State) : (s.setMem sp m).aesKey = s.aesKey := by
  cases sp <;> rfl
@[simp] theorem setMem_aesIn (sp : Space) (m : Memory) (s : State) : (s.setMem sp m).aesIn = s.aesIn := by
  cases sp <;> rfl
@[simp] theorem setMem_aesOut (sp : Space) (m : Memory) (s : State) : (s.setMem sp m).aesOut = s.aesOut := by
  cases sp <;> rfl
@[simp] theorem setMem_pvIn (sp : Space) (m : Memory) (s : State) : (s.setMem sp m).pvIn = s.pvIn := by
  cases sp <;> rfl
@[simp] theorem setMem_pvOut (sp : Space) (m : Memory) (s : State) : (s.setMem sp m).pvOut = s.pvOut := by
  cases sp <;> rfl
@[simp] theorem setMem_ctrSeed (sp : Space) (m : Memory) (s : State) : (s.setMem sp m).ctrSeed = s.ctrSeed := by
  cases sp <;> rfl
@[simp] theorem setMem_ctrIn (sp : Space) (m : Memory) (s : State) : (s.setMem sp m).ctrIn = s.ctrIn := by
  cases sp <;> rfl
@[simp] theorem setMem_ctrLen (sp : Space) (m : Memory) (s : State) : (s.setMem sp m).ctrLen = s.ctrLen := by
  cases sp <;> rfl
@[simp] theorem setMem_ctrOut (sp : Space) (m : Memory) (s : State) : (s.setMem sp m).ctrOut = s.ctrOut := by
  cases sp <;> rfl
@[simp] theorem setMem_pending (sp : Space) (m : Memory) (s : State) : (s.setMem sp m).pending = s.pending := by
  cases sp <;> rfl
@[simp] theorem setMem_hostRead (sp : Space) (m : Memory) (s : State) : (s.setMem sp m).hostRead = s.hostRead := by
  cases sp <;> rfl
@[simp] theorem setMem_epoch (sp : Space) (m : Memory) (s : State) : (s.setMem sp m).epoch = s.epoch := by
  cases sp <;> rfl

@[simp] theorem mem_setMem (sp sp' : Space) (m : Memory) (s : State) :
    (s.setMem sp m).mem sp' = if sp' = sp then m else s.mem sp' := by
  cases sp <;> cases sp' <;> rfl

/-! ### The register writes -/

@[simp] theorem setPhase_keylen (p : Phase) (s : State) : (s.setPhase p).keylen = s.keylen := rfl
@[simp] theorem setPhase_noncelen (p : Phase) (s : State) : (s.setPhase p).noncelen = s.noncelen := rfl
@[simp] theorem setPhase_aadlen (p : Phase) (s : State) : (s.setPhase p).aadlen = s.aadlen := rfl
@[simp] theorem setPhase_msglen (p : Phase) (s : State) : (s.setPhase p).msglen = s.msglen := rfl
@[simp] theorem setPhase_status (p : Phase) (s : State) : (s.setPhase p).status = s.status := rfl
@[simp] theorem setPhase_outlen (p : Phase) (s : State) : (s.setPhase p).outlen = s.outlen := rfl
@[simp] theorem setPhase_phase (p : Phase) (s : State) : (s.setPhase p).phase = p := rfl
@[simp] theorem setPhase_dir (p : Phase) (s : State) : (s.setPhase p).dir = s.dir := rfl
@[simp] theorem setPhase_ksz (p : Phase) (s : State) : (s.setPhase p).ksz = s.ksz := rfl
@[simp] theorem setPhase_lAad (p : Phase) (s : State) : (s.setPhase p).lAad = s.lAad := rfl
@[simp] theorem setPhase_lMsg (p : Phase) (s : State) : (s.setPhase p).lMsg = s.lMsg := rfl
@[simp] theorem setPhase_errl (p : Phase) (s : State) : (s.setPhase p).errl = s.errl := rfl
@[simp] theorem setPhase_authkey (p : Phase) (s : State) : (s.setPhase p).authkey = s.authkey := rfl
@[simp] theorem setPhase_enckey (p : Phase) (s : State) : (s.setPhase p).enckey = s.enckey := rfl
@[simp] theorem setPhase_polyH (p : Phase) (s : State) : (s.setPhase p).polyH = s.polyH := rfl
@[simp] theorem setPhase_polyS (p : Phase) (s : State) : (s.setPhase p).polyS = s.polyS := rfl
@[simp] theorem setPhase_tag (p : Phase) (s : State) : (s.setPhase p).tag = s.tag := rfl
@[simp] theorem setPhase_rtag (p : Phase) (s : State) : (s.setPhase p).rtag = s.rtag := rfl
@[simp] theorem setPhase_cb (p : Phase) (s : State) : (s.setPhase p).cb = s.cb := rfl
@[simp] theorem setPhase_ks (p : Phase) (s : State) : (s.setPhase p).ks = s.ks := rfl
@[simp] theorem setPhase_keybuf (p : Phase) (s : State) : (s.setPhase p).keybuf = s.keybuf := rfl
@[simp] theorem setPhase_noncebuf (p : Phase) (s : State) : (s.setPhase p).noncebuf = s.noncebuf := rfl
@[simp] theorem setPhase_aadmem (p : Phase) (s : State) : (s.setPhase p).aadmem = s.aadmem := rfl
@[simp] theorem setPhase_inmem (p : Phase) (s : State) : (s.setPhase p).inmem = s.inmem := rfl
@[simp] theorem setPhase_outmem (p : Phase) (s : State) : (s.setPhase p).outmem = s.outmem := rfl
@[simp] theorem setPhase_work (p : Phase) (s : State) : (s.setPhase p).work = s.work := rfl
@[simp] theorem setPhase_aesKey (p : Phase) (s : State) : (s.setPhase p).aesKey = s.aesKey := rfl
@[simp] theorem setPhase_aesIn (p : Phase) (s : State) : (s.setPhase p).aesIn = s.aesIn := rfl
@[simp] theorem setPhase_aesOut (p : Phase) (s : State) : (s.setPhase p).aesOut = s.aesOut := rfl
@[simp] theorem setPhase_pvIn (p : Phase) (s : State) : (s.setPhase p).pvIn = s.pvIn := rfl
@[simp] theorem setPhase_pvOut (p : Phase) (s : State) : (s.setPhase p).pvOut = s.pvOut := rfl
@[simp] theorem setPhase_ctrSeed (p : Phase) (s : State) : (s.setPhase p).ctrSeed = s.ctrSeed := rfl
@[simp] theorem setPhase_ctrIn (p : Phase) (s : State) : (s.setPhase p).ctrIn = s.ctrIn := rfl
@[simp] theorem setPhase_ctrLen (p : Phase) (s : State) : (s.setPhase p).ctrLen = s.ctrLen := rfl
@[simp] theorem setPhase_ctrOut (p : Phase) (s : State) : (s.setPhase p).ctrOut = s.ctrOut := rfl
@[simp] theorem setPhase_pending (p : Phase) (s : State) : (s.setPhase p).pending = s.pending := rfl
@[simp] theorem setPhase_hostRead (p : Phase) (s : State) : (s.setPhase p).hostRead = s.hostRead := rfl
@[simp] theorem setPhase_epoch (p : Phase) (s : State) : (s.setPhase p).epoch = s.epoch := rfl
@[simp] theorem setPhase_mem (p : Phase) (s : State) (sp : Space) : (s.setPhase p).mem sp = s.mem sp := by
  cases sp <;> rfl

@[simp] theorem setResult_keylen (n : Length) (v : BitVec 32) (s : State) : (s.setResult n v).keylen = s.keylen := rfl
@[simp] theorem setResult_noncelen (n : Length) (v : BitVec 32) (s : State) : (s.setResult n v).noncelen = s.noncelen := rfl
@[simp] theorem setResult_aadlen (n : Length) (v : BitVec 32) (s : State) : (s.setResult n v).aadlen = s.aadlen := rfl
@[simp] theorem setResult_msglen (n : Length) (v : BitVec 32) (s : State) : (s.setResult n v).msglen = s.msglen := rfl
@[simp] theorem setResult_status (n : Length) (v : BitVec 32) (s : State) : (s.setResult n v).status = v := rfl
@[simp] theorem setResult_outlen (n : Length) (v : BitVec 32) (s : State) : (s.setResult n v).outlen = n := rfl
@[simp] theorem setResult_phase (n : Length) (v : BitVec 32) (s : State) : (s.setResult n v).phase = s.phase := rfl
@[simp] theorem setResult_dir (n : Length) (v : BitVec 32) (s : State) : (s.setResult n v).dir = s.dir := rfl
@[simp] theorem setResult_ksz (n : Length) (v : BitVec 32) (s : State) : (s.setResult n v).ksz = s.ksz := rfl
@[simp] theorem setResult_lAad (n : Length) (v : BitVec 32) (s : State) : (s.setResult n v).lAad = s.lAad := rfl
@[simp] theorem setResult_lMsg (n : Length) (v : BitVec 32) (s : State) : (s.setResult n v).lMsg = s.lMsg := rfl
@[simp] theorem setResult_errl (n : Length) (v : BitVec 32) (s : State) : (s.setResult n v).errl = s.errl := rfl
@[simp] theorem setResult_authkey (n : Length) (v : BitVec 32) (s : State) : (s.setResult n v).authkey = s.authkey := rfl
@[simp] theorem setResult_enckey (n : Length) (v : BitVec 32) (s : State) : (s.setResult n v).enckey = s.enckey := rfl
@[simp] theorem setResult_polyH (n : Length) (v : BitVec 32) (s : State) : (s.setResult n v).polyH = s.polyH := rfl
@[simp] theorem setResult_polyS (n : Length) (v : BitVec 32) (s : State) : (s.setResult n v).polyS = s.polyS := rfl
@[simp] theorem setResult_tag (n : Length) (v : BitVec 32) (s : State) : (s.setResult n v).tag = s.tag := rfl
@[simp] theorem setResult_rtag (n : Length) (v : BitVec 32) (s : State) : (s.setResult n v).rtag = s.rtag := rfl
@[simp] theorem setResult_cb (n : Length) (v : BitVec 32) (s : State) : (s.setResult n v).cb = s.cb := rfl
@[simp] theorem setResult_ks (n : Length) (v : BitVec 32) (s : State) : (s.setResult n v).ks = s.ks := rfl
@[simp] theorem setResult_keybuf (n : Length) (v : BitVec 32) (s : State) : (s.setResult n v).keybuf = s.keybuf := rfl
@[simp] theorem setResult_noncebuf (n : Length) (v : BitVec 32) (s : State) : (s.setResult n v).noncebuf = s.noncebuf := rfl
@[simp] theorem setResult_aadmem (n : Length) (v : BitVec 32) (s : State) : (s.setResult n v).aadmem = s.aadmem := rfl
@[simp] theorem setResult_inmem (n : Length) (v : BitVec 32) (s : State) : (s.setResult n v).inmem = s.inmem := rfl
@[simp] theorem setResult_outmem (n : Length) (v : BitVec 32) (s : State) : (s.setResult n v).outmem = s.outmem := rfl
@[simp] theorem setResult_work (n : Length) (v : BitVec 32) (s : State) : (s.setResult n v).work = s.work := rfl
@[simp] theorem setResult_aesKey (n : Length) (v : BitVec 32) (s : State) : (s.setResult n v).aesKey = s.aesKey := rfl
@[simp] theorem setResult_aesIn (n : Length) (v : BitVec 32) (s : State) : (s.setResult n v).aesIn = s.aesIn := rfl
@[simp] theorem setResult_aesOut (n : Length) (v : BitVec 32) (s : State) : (s.setResult n v).aesOut = s.aesOut := rfl
@[simp] theorem setResult_pvIn (n : Length) (v : BitVec 32) (s : State) : (s.setResult n v).pvIn = s.pvIn := rfl
@[simp] theorem setResult_pvOut (n : Length) (v : BitVec 32) (s : State) : (s.setResult n v).pvOut = s.pvOut := rfl
@[simp] theorem setResult_ctrSeed (n : Length) (v : BitVec 32) (s : State) : (s.setResult n v).ctrSeed = s.ctrSeed := rfl
@[simp] theorem setResult_ctrIn (n : Length) (v : BitVec 32) (s : State) : (s.setResult n v).ctrIn = s.ctrIn := rfl
@[simp] theorem setResult_ctrLen (n : Length) (v : BitVec 32) (s : State) : (s.setResult n v).ctrLen = s.ctrLen := rfl
@[simp] theorem setResult_ctrOut (n : Length) (v : BitVec 32) (s : State) : (s.setResult n v).ctrOut = s.ctrOut := rfl
@[simp] theorem setResult_pending (n : Length) (v : BitVec 32) (s : State) : (s.setResult n v).pending = s.pending := rfl
@[simp] theorem setResult_hostRead (n : Length) (v : BitVec 32) (s : State) : (s.setResult n v).hostRead = s.hostRead := rfl
@[simp] theorem setResult_epoch (n : Length) (v : BitVec 32) (s : State) : (s.setResult n v).epoch = s.epoch := rfl
@[simp] theorem setResult_mem (n : Length) (v : BitVec 32) (s : State) (sp : Space) : (s.setResult n v).mem sp = s.mem sp := by
  cases sp <;> rfl

@[simp] theorem setKeys_keylen (a : Block) (e : KeyBits) (s : State) : (s.setKeys a e).keylen = s.keylen := rfl
@[simp] theorem setKeys_noncelen (a : Block) (e : KeyBits) (s : State) : (s.setKeys a e).noncelen = s.noncelen := rfl
@[simp] theorem setKeys_aadlen (a : Block) (e : KeyBits) (s : State) : (s.setKeys a e).aadlen = s.aadlen := rfl
@[simp] theorem setKeys_msglen (a : Block) (e : KeyBits) (s : State) : (s.setKeys a e).msglen = s.msglen := rfl
@[simp] theorem setKeys_status (a : Block) (e : KeyBits) (s : State) : (s.setKeys a e).status = s.status := rfl
@[simp] theorem setKeys_outlen (a : Block) (e : KeyBits) (s : State) : (s.setKeys a e).outlen = s.outlen := rfl
@[simp] theorem setKeys_phase (a : Block) (e : KeyBits) (s : State) : (s.setKeys a e).phase = s.phase := rfl
@[simp] theorem setKeys_dir (a : Block) (e : KeyBits) (s : State) : (s.setKeys a e).dir = s.dir := rfl
@[simp] theorem setKeys_ksz (a : Block) (e : KeyBits) (s : State) : (s.setKeys a e).ksz = s.ksz := rfl
@[simp] theorem setKeys_lAad (a : Block) (e : KeyBits) (s : State) : (s.setKeys a e).lAad = s.lAad := rfl
@[simp] theorem setKeys_lMsg (a : Block) (e : KeyBits) (s : State) : (s.setKeys a e).lMsg = s.lMsg := rfl
@[simp] theorem setKeys_errl (a : Block) (e : KeyBits) (s : State) : (s.setKeys a e).errl = s.errl := rfl
@[simp] theorem setKeys_authkey (a : Block) (e : KeyBits) (s : State) : (s.setKeys a e).authkey = a := rfl
@[simp] theorem setKeys_enckey (a : Block) (e : KeyBits) (s : State) : (s.setKeys a e).enckey = e := rfl
@[simp] theorem setKeys_polyH (a : Block) (e : KeyBits) (s : State) : (s.setKeys a e).polyH = s.polyH := rfl
@[simp] theorem setKeys_polyS (a : Block) (e : KeyBits) (s : State) : (s.setKeys a e).polyS = s.polyS := rfl
@[simp] theorem setKeys_tag (a : Block) (e : KeyBits) (s : State) : (s.setKeys a e).tag = s.tag := rfl
@[simp] theorem setKeys_rtag (a : Block) (e : KeyBits) (s : State) : (s.setKeys a e).rtag = s.rtag := rfl
@[simp] theorem setKeys_cb (a : Block) (e : KeyBits) (s : State) : (s.setKeys a e).cb = s.cb := rfl
@[simp] theorem setKeys_ks (a : Block) (e : KeyBits) (s : State) : (s.setKeys a e).ks = s.ks := rfl
@[simp] theorem setKeys_keybuf (a : Block) (e : KeyBits) (s : State) : (s.setKeys a e).keybuf = s.keybuf := rfl
@[simp] theorem setKeys_noncebuf (a : Block) (e : KeyBits) (s : State) : (s.setKeys a e).noncebuf = s.noncebuf := rfl
@[simp] theorem setKeys_aadmem (a : Block) (e : KeyBits) (s : State) : (s.setKeys a e).aadmem = s.aadmem := rfl
@[simp] theorem setKeys_inmem (a : Block) (e : KeyBits) (s : State) : (s.setKeys a e).inmem = s.inmem := rfl
@[simp] theorem setKeys_outmem (a : Block) (e : KeyBits) (s : State) : (s.setKeys a e).outmem = s.outmem := rfl
@[simp] theorem setKeys_work (a : Block) (e : KeyBits) (s : State) : (s.setKeys a e).work = s.work := rfl
@[simp] theorem setKeys_aesKey (a : Block) (e : KeyBits) (s : State) : (s.setKeys a e).aesKey = s.aesKey := rfl
@[simp] theorem setKeys_aesIn (a : Block) (e : KeyBits) (s : State) : (s.setKeys a e).aesIn = s.aesIn := rfl
@[simp] theorem setKeys_aesOut (a : Block) (e : KeyBits) (s : State) : (s.setKeys a e).aesOut = s.aesOut := rfl
@[simp] theorem setKeys_pvIn (a : Block) (e : KeyBits) (s : State) : (s.setKeys a e).pvIn = s.pvIn := rfl
@[simp] theorem setKeys_pvOut (a : Block) (e : KeyBits) (s : State) : (s.setKeys a e).pvOut = s.pvOut := rfl
@[simp] theorem setKeys_ctrSeed (a : Block) (e : KeyBits) (s : State) : (s.setKeys a e).ctrSeed = s.ctrSeed := rfl
@[simp] theorem setKeys_ctrIn (a : Block) (e : KeyBits) (s : State) : (s.setKeys a e).ctrIn = s.ctrIn := rfl
@[simp] theorem setKeys_ctrLen (a : Block) (e : KeyBits) (s : State) : (s.setKeys a e).ctrLen = s.ctrLen := rfl
@[simp] theorem setKeys_ctrOut (a : Block) (e : KeyBits) (s : State) : (s.setKeys a e).ctrOut = s.ctrOut := rfl
@[simp] theorem setKeys_pending (a : Block) (e : KeyBits) (s : State) : (s.setKeys a e).pending = s.pending := rfl
@[simp] theorem setKeys_hostRead (a : Block) (e : KeyBits) (s : State) : (s.setKeys a e).hostRead = s.hostRead := rfl
@[simp] theorem setKeys_epoch (a : Block) (e : KeyBits) (s : State) : (s.setKeys a e).epoch = s.epoch := rfl
@[simp] theorem setKeys_mem (a : Block) (e : KeyBits) (s : State) (sp : Space) : (s.setKeys a e).mem sp = s.mem sp := by
  cases sp <;> rfl

@[simp] theorem setPolyS_keylen (v : Block) (s : State) : (s.setPolyS v).keylen = s.keylen := rfl
@[simp] theorem setPolyS_noncelen (v : Block) (s : State) : (s.setPolyS v).noncelen = s.noncelen := rfl
@[simp] theorem setPolyS_aadlen (v : Block) (s : State) : (s.setPolyS v).aadlen = s.aadlen := rfl
@[simp] theorem setPolyS_msglen (v : Block) (s : State) : (s.setPolyS v).msglen = s.msglen := rfl
@[simp] theorem setPolyS_status (v : Block) (s : State) : (s.setPolyS v).status = s.status := rfl
@[simp] theorem setPolyS_outlen (v : Block) (s : State) : (s.setPolyS v).outlen = s.outlen := rfl
@[simp] theorem setPolyS_phase (v : Block) (s : State) : (s.setPolyS v).phase = s.phase := rfl
@[simp] theorem setPolyS_dir (v : Block) (s : State) : (s.setPolyS v).dir = s.dir := rfl
@[simp] theorem setPolyS_ksz (v : Block) (s : State) : (s.setPolyS v).ksz = s.ksz := rfl
@[simp] theorem setPolyS_lAad (v : Block) (s : State) : (s.setPolyS v).lAad = s.lAad := rfl
@[simp] theorem setPolyS_lMsg (v : Block) (s : State) : (s.setPolyS v).lMsg = s.lMsg := rfl
@[simp] theorem setPolyS_errl (v : Block) (s : State) : (s.setPolyS v).errl = s.errl := rfl
@[simp] theorem setPolyS_authkey (v : Block) (s : State) : (s.setPolyS v).authkey = s.authkey := rfl
@[simp] theorem setPolyS_enckey (v : Block) (s : State) : (s.setPolyS v).enckey = s.enckey := rfl
@[simp] theorem setPolyS_polyH (v : Block) (s : State) : (s.setPolyS v).polyH = s.polyH := rfl
@[simp] theorem setPolyS_polyS (v : Block) (s : State) : (s.setPolyS v).polyS = v := rfl
@[simp] theorem setPolyS_tag (v : Block) (s : State) : (s.setPolyS v).tag = s.tag := rfl
@[simp] theorem setPolyS_rtag (v : Block) (s : State) : (s.setPolyS v).rtag = s.rtag := rfl
@[simp] theorem setPolyS_cb (v : Block) (s : State) : (s.setPolyS v).cb = s.cb := rfl
@[simp] theorem setPolyS_ks (v : Block) (s : State) : (s.setPolyS v).ks = s.ks := rfl
@[simp] theorem setPolyS_keybuf (v : Block) (s : State) : (s.setPolyS v).keybuf = s.keybuf := rfl
@[simp] theorem setPolyS_noncebuf (v : Block) (s : State) : (s.setPolyS v).noncebuf = s.noncebuf := rfl
@[simp] theorem setPolyS_aadmem (v : Block) (s : State) : (s.setPolyS v).aadmem = s.aadmem := rfl
@[simp] theorem setPolyS_inmem (v : Block) (s : State) : (s.setPolyS v).inmem = s.inmem := rfl
@[simp] theorem setPolyS_outmem (v : Block) (s : State) : (s.setPolyS v).outmem = s.outmem := rfl
@[simp] theorem setPolyS_work (v : Block) (s : State) : (s.setPolyS v).work = s.work := rfl
@[simp] theorem setPolyS_aesKey (v : Block) (s : State) : (s.setPolyS v).aesKey = s.aesKey := rfl
@[simp] theorem setPolyS_aesIn (v : Block) (s : State) : (s.setPolyS v).aesIn = s.aesIn := rfl
@[simp] theorem setPolyS_aesOut (v : Block) (s : State) : (s.setPolyS v).aesOut = s.aesOut := rfl
@[simp] theorem setPolyS_pvIn (v : Block) (s : State) : (s.setPolyS v).pvIn = s.pvIn := rfl
@[simp] theorem setPolyS_pvOut (v : Block) (s : State) : (s.setPolyS v).pvOut = s.pvOut := rfl
@[simp] theorem setPolyS_ctrSeed (v : Block) (s : State) : (s.setPolyS v).ctrSeed = s.ctrSeed := rfl
@[simp] theorem setPolyS_ctrIn (v : Block) (s : State) : (s.setPolyS v).ctrIn = s.ctrIn := rfl
@[simp] theorem setPolyS_ctrLen (v : Block) (s : State) : (s.setPolyS v).ctrLen = s.ctrLen := rfl
@[simp] theorem setPolyS_ctrOut (v : Block) (s : State) : (s.setPolyS v).ctrOut = s.ctrOut := rfl
@[simp] theorem setPolyS_pending (v : Block) (s : State) : (s.setPolyS v).pending = s.pending := rfl
@[simp] theorem setPolyS_hostRead (v : Block) (s : State) : (s.setPolyS v).hostRead = s.hostRead := rfl
@[simp] theorem setPolyS_epoch (v : Block) (s : State) : (s.setPolyS v).epoch = s.epoch := rfl
@[simp] theorem setPolyS_mem (v : Block) (s : State) (sp : Space) : (s.setPolyS v).mem sp = s.mem sp := by
  cases sp <;> rfl

@[simp] theorem setTag_keylen (v : Block) (s : State) : (s.setTag v).keylen = s.keylen := rfl
@[simp] theorem setTag_noncelen (v : Block) (s : State) : (s.setTag v).noncelen = s.noncelen := rfl
@[simp] theorem setTag_aadlen (v : Block) (s : State) : (s.setTag v).aadlen = s.aadlen := rfl
@[simp] theorem setTag_msglen (v : Block) (s : State) : (s.setTag v).msglen = s.msglen := rfl
@[simp] theorem setTag_status (v : Block) (s : State) : (s.setTag v).status = s.status := rfl
@[simp] theorem setTag_outlen (v : Block) (s : State) : (s.setTag v).outlen = s.outlen := rfl
@[simp] theorem setTag_phase (v : Block) (s : State) : (s.setTag v).phase = s.phase := rfl
@[simp] theorem setTag_dir (v : Block) (s : State) : (s.setTag v).dir = s.dir := rfl
@[simp] theorem setTag_ksz (v : Block) (s : State) : (s.setTag v).ksz = s.ksz := rfl
@[simp] theorem setTag_lAad (v : Block) (s : State) : (s.setTag v).lAad = s.lAad := rfl
@[simp] theorem setTag_lMsg (v : Block) (s : State) : (s.setTag v).lMsg = s.lMsg := rfl
@[simp] theorem setTag_errl (v : Block) (s : State) : (s.setTag v).errl = s.errl := rfl
@[simp] theorem setTag_authkey (v : Block) (s : State) : (s.setTag v).authkey = s.authkey := rfl
@[simp] theorem setTag_enckey (v : Block) (s : State) : (s.setTag v).enckey = s.enckey := rfl
@[simp] theorem setTag_polyH (v : Block) (s : State) : (s.setTag v).polyH = s.polyH := rfl
@[simp] theorem setTag_polyS (v : Block) (s : State) : (s.setTag v).polyS = s.polyS := rfl
@[simp] theorem setTag_tag (v : Block) (s : State) : (s.setTag v).tag = v := rfl
@[simp] theorem setTag_rtag (v : Block) (s : State) : (s.setTag v).rtag = s.rtag := rfl
@[simp] theorem setTag_cb (v : Block) (s : State) : (s.setTag v).cb = s.cb := rfl
@[simp] theorem setTag_ks (v : Block) (s : State) : (s.setTag v).ks = s.ks := rfl
@[simp] theorem setTag_keybuf (v : Block) (s : State) : (s.setTag v).keybuf = s.keybuf := rfl
@[simp] theorem setTag_noncebuf (v : Block) (s : State) : (s.setTag v).noncebuf = s.noncebuf := rfl
@[simp] theorem setTag_aadmem (v : Block) (s : State) : (s.setTag v).aadmem = s.aadmem := rfl
@[simp] theorem setTag_inmem (v : Block) (s : State) : (s.setTag v).inmem = s.inmem := rfl
@[simp] theorem setTag_outmem (v : Block) (s : State) : (s.setTag v).outmem = s.outmem := rfl
@[simp] theorem setTag_work (v : Block) (s : State) : (s.setTag v).work = s.work := rfl
@[simp] theorem setTag_aesKey (v : Block) (s : State) : (s.setTag v).aesKey = s.aesKey := rfl
@[simp] theorem setTag_aesIn (v : Block) (s : State) : (s.setTag v).aesIn = s.aesIn := rfl
@[simp] theorem setTag_aesOut (v : Block) (s : State) : (s.setTag v).aesOut = s.aesOut := rfl
@[simp] theorem setTag_pvIn (v : Block) (s : State) : (s.setTag v).pvIn = s.pvIn := rfl
@[simp] theorem setTag_pvOut (v : Block) (s : State) : (s.setTag v).pvOut = s.pvOut := rfl
@[simp] theorem setTag_ctrSeed (v : Block) (s : State) : (s.setTag v).ctrSeed = s.ctrSeed := rfl
@[simp] theorem setTag_ctrIn (v : Block) (s : State) : (s.setTag v).ctrIn = s.ctrIn := rfl
@[simp] theorem setTag_ctrLen (v : Block) (s : State) : (s.setTag v).ctrLen = s.ctrLen := rfl
@[simp] theorem setTag_ctrOut (v : Block) (s : State) : (s.setTag v).ctrOut = s.ctrOut := rfl
@[simp] theorem setTag_pending (v : Block) (s : State) : (s.setTag v).pending = s.pending := rfl
@[simp] theorem setTag_hostRead (v : Block) (s : State) : (s.setTag v).hostRead = s.hostRead := rfl
@[simp] theorem setTag_epoch (v : Block) (s : State) : (s.setTag v).epoch = s.epoch := rfl
@[simp] theorem setTag_mem (v : Block) (s : State) (sp : Space) : (s.setTag v).mem sp = s.mem sp := by
  cases sp <;> rfl

@[simp] theorem setRtag_keylen (v : Block) (s : State) : (s.setRtag v).keylen = s.keylen := rfl
@[simp] theorem setRtag_noncelen (v : Block) (s : State) : (s.setRtag v).noncelen = s.noncelen := rfl
@[simp] theorem setRtag_aadlen (v : Block) (s : State) : (s.setRtag v).aadlen = s.aadlen := rfl
@[simp] theorem setRtag_msglen (v : Block) (s : State) : (s.setRtag v).msglen = s.msglen := rfl
@[simp] theorem setRtag_status (v : Block) (s : State) : (s.setRtag v).status = s.status := rfl
@[simp] theorem setRtag_outlen (v : Block) (s : State) : (s.setRtag v).outlen = s.outlen := rfl
@[simp] theorem setRtag_phase (v : Block) (s : State) : (s.setRtag v).phase = s.phase := rfl
@[simp] theorem setRtag_dir (v : Block) (s : State) : (s.setRtag v).dir = s.dir := rfl
@[simp] theorem setRtag_ksz (v : Block) (s : State) : (s.setRtag v).ksz = s.ksz := rfl
@[simp] theorem setRtag_lAad (v : Block) (s : State) : (s.setRtag v).lAad = s.lAad := rfl
@[simp] theorem setRtag_lMsg (v : Block) (s : State) : (s.setRtag v).lMsg = s.lMsg := rfl
@[simp] theorem setRtag_errl (v : Block) (s : State) : (s.setRtag v).errl = s.errl := rfl
@[simp] theorem setRtag_authkey (v : Block) (s : State) : (s.setRtag v).authkey = s.authkey := rfl
@[simp] theorem setRtag_enckey (v : Block) (s : State) : (s.setRtag v).enckey = s.enckey := rfl
@[simp] theorem setRtag_polyH (v : Block) (s : State) : (s.setRtag v).polyH = s.polyH := rfl
@[simp] theorem setRtag_polyS (v : Block) (s : State) : (s.setRtag v).polyS = s.polyS := rfl
@[simp] theorem setRtag_tag (v : Block) (s : State) : (s.setRtag v).tag = s.tag := rfl
@[simp] theorem setRtag_rtag (v : Block) (s : State) : (s.setRtag v).rtag = v := rfl
@[simp] theorem setRtag_cb (v : Block) (s : State) : (s.setRtag v).cb = s.cb := rfl
@[simp] theorem setRtag_ks (v : Block) (s : State) : (s.setRtag v).ks = s.ks := rfl
@[simp] theorem setRtag_keybuf (v : Block) (s : State) : (s.setRtag v).keybuf = s.keybuf := rfl
@[simp] theorem setRtag_noncebuf (v : Block) (s : State) : (s.setRtag v).noncebuf = s.noncebuf := rfl
@[simp] theorem setRtag_aadmem (v : Block) (s : State) : (s.setRtag v).aadmem = s.aadmem := rfl
@[simp] theorem setRtag_inmem (v : Block) (s : State) : (s.setRtag v).inmem = s.inmem := rfl
@[simp] theorem setRtag_outmem (v : Block) (s : State) : (s.setRtag v).outmem = s.outmem := rfl
@[simp] theorem setRtag_work (v : Block) (s : State) : (s.setRtag v).work = s.work := rfl
@[simp] theorem setRtag_aesKey (v : Block) (s : State) : (s.setRtag v).aesKey = s.aesKey := rfl
@[simp] theorem setRtag_aesIn (v : Block) (s : State) : (s.setRtag v).aesIn = s.aesIn := rfl
@[simp] theorem setRtag_aesOut (v : Block) (s : State) : (s.setRtag v).aesOut = s.aesOut := rfl
@[simp] theorem setRtag_pvIn (v : Block) (s : State) : (s.setRtag v).pvIn = s.pvIn := rfl
@[simp] theorem setRtag_pvOut (v : Block) (s : State) : (s.setRtag v).pvOut = s.pvOut := rfl
@[simp] theorem setRtag_ctrSeed (v : Block) (s : State) : (s.setRtag v).ctrSeed = s.ctrSeed := rfl
@[simp] theorem setRtag_ctrIn (v : Block) (s : State) : (s.setRtag v).ctrIn = s.ctrIn := rfl
@[simp] theorem setRtag_ctrLen (v : Block) (s : State) : (s.setRtag v).ctrLen = s.ctrLen := rfl
@[simp] theorem setRtag_ctrOut (v : Block) (s : State) : (s.setRtag v).ctrOut = s.ctrOut := rfl
@[simp] theorem setRtag_pending (v : Block) (s : State) : (s.setRtag v).pending = s.pending := rfl
@[simp] theorem setRtag_hostRead (v : Block) (s : State) : (s.setRtag v).hostRead = s.hostRead := rfl
@[simp] theorem setRtag_epoch (v : Block) (s : State) : (s.setRtag v).epoch = s.epoch := rfl
@[simp] theorem setRtag_mem (v : Block) (s : State) (sp : Space) : (s.setRtag v).mem sp = s.mem sp := by
  cases sp <;> rfl

@[simp] theorem setCb_keylen (v : Block) (s : State) : (s.setCb v).keylen = s.keylen := rfl
@[simp] theorem setCb_noncelen (v : Block) (s : State) : (s.setCb v).noncelen = s.noncelen := rfl
@[simp] theorem setCb_aadlen (v : Block) (s : State) : (s.setCb v).aadlen = s.aadlen := rfl
@[simp] theorem setCb_msglen (v : Block) (s : State) : (s.setCb v).msglen = s.msglen := rfl
@[simp] theorem setCb_status (v : Block) (s : State) : (s.setCb v).status = s.status := rfl
@[simp] theorem setCb_outlen (v : Block) (s : State) : (s.setCb v).outlen = s.outlen := rfl
@[simp] theorem setCb_phase (v : Block) (s : State) : (s.setCb v).phase = s.phase := rfl
@[simp] theorem setCb_dir (v : Block) (s : State) : (s.setCb v).dir = s.dir := rfl
@[simp] theorem setCb_ksz (v : Block) (s : State) : (s.setCb v).ksz = s.ksz := rfl
@[simp] theorem setCb_lAad (v : Block) (s : State) : (s.setCb v).lAad = s.lAad := rfl
@[simp] theorem setCb_lMsg (v : Block) (s : State) : (s.setCb v).lMsg = s.lMsg := rfl
@[simp] theorem setCb_errl (v : Block) (s : State) : (s.setCb v).errl = s.errl := rfl
@[simp] theorem setCb_authkey (v : Block) (s : State) : (s.setCb v).authkey = s.authkey := rfl
@[simp] theorem setCb_enckey (v : Block) (s : State) : (s.setCb v).enckey = s.enckey := rfl
@[simp] theorem setCb_polyH (v : Block) (s : State) : (s.setCb v).polyH = s.polyH := rfl
@[simp] theorem setCb_polyS (v : Block) (s : State) : (s.setCb v).polyS = s.polyS := rfl
@[simp] theorem setCb_tag (v : Block) (s : State) : (s.setCb v).tag = s.tag := rfl
@[simp] theorem setCb_rtag (v : Block) (s : State) : (s.setCb v).rtag = s.rtag := rfl
@[simp] theorem setCb_cb (v : Block) (s : State) : (s.setCb v).cb = v := rfl
@[simp] theorem setCb_ks (v : Block) (s : State) : (s.setCb v).ks = s.ks := rfl
@[simp] theorem setCb_keybuf (v : Block) (s : State) : (s.setCb v).keybuf = s.keybuf := rfl
@[simp] theorem setCb_noncebuf (v : Block) (s : State) : (s.setCb v).noncebuf = s.noncebuf := rfl
@[simp] theorem setCb_aadmem (v : Block) (s : State) : (s.setCb v).aadmem = s.aadmem := rfl
@[simp] theorem setCb_inmem (v : Block) (s : State) : (s.setCb v).inmem = s.inmem := rfl
@[simp] theorem setCb_outmem (v : Block) (s : State) : (s.setCb v).outmem = s.outmem := rfl
@[simp] theorem setCb_work (v : Block) (s : State) : (s.setCb v).work = s.work := rfl
@[simp] theorem setCb_aesKey (v : Block) (s : State) : (s.setCb v).aesKey = s.aesKey := rfl
@[simp] theorem setCb_aesIn (v : Block) (s : State) : (s.setCb v).aesIn = s.aesIn := rfl
@[simp] theorem setCb_aesOut (v : Block) (s : State) : (s.setCb v).aesOut = s.aesOut := rfl
@[simp] theorem setCb_pvIn (v : Block) (s : State) : (s.setCb v).pvIn = s.pvIn := rfl
@[simp] theorem setCb_pvOut (v : Block) (s : State) : (s.setCb v).pvOut = s.pvOut := rfl
@[simp] theorem setCb_ctrSeed (v : Block) (s : State) : (s.setCb v).ctrSeed = s.ctrSeed := rfl
@[simp] theorem setCb_ctrIn (v : Block) (s : State) : (s.setCb v).ctrIn = s.ctrIn := rfl
@[simp] theorem setCb_ctrLen (v : Block) (s : State) : (s.setCb v).ctrLen = s.ctrLen := rfl
@[simp] theorem setCb_ctrOut (v : Block) (s : State) : (s.setCb v).ctrOut = s.ctrOut := rfl
@[simp] theorem setCb_pending (v : Block) (s : State) : (s.setCb v).pending = s.pending := rfl
@[simp] theorem setCb_hostRead (v : Block) (s : State) : (s.setCb v).hostRead = s.hostRead := rfl
@[simp] theorem setCb_epoch (v : Block) (s : State) : (s.setCb v).epoch = s.epoch := rfl
@[simp] theorem setCb_mem (v : Block) (s : State) (sp : Space) : (s.setCb v).mem sp = s.mem sp := by
  cases sp <;> rfl

@[simp] theorem setCtr_keylen (k c : Block) (s : State) : (s.setCtr k c).keylen = s.keylen := rfl
@[simp] theorem setCtr_noncelen (k c : Block) (s : State) : (s.setCtr k c).noncelen = s.noncelen := rfl
@[simp] theorem setCtr_aadlen (k c : Block) (s : State) : (s.setCtr k c).aadlen = s.aadlen := rfl
@[simp] theorem setCtr_msglen (k c : Block) (s : State) : (s.setCtr k c).msglen = s.msglen := rfl
@[simp] theorem setCtr_status (k c : Block) (s : State) : (s.setCtr k c).status = s.status := rfl
@[simp] theorem setCtr_outlen (k c : Block) (s : State) : (s.setCtr k c).outlen = s.outlen := rfl
@[simp] theorem setCtr_phase (k c : Block) (s : State) : (s.setCtr k c).phase = s.phase := rfl
@[simp] theorem setCtr_dir (k c : Block) (s : State) : (s.setCtr k c).dir = s.dir := rfl
@[simp] theorem setCtr_ksz (k c : Block) (s : State) : (s.setCtr k c).ksz = s.ksz := rfl
@[simp] theorem setCtr_lAad (k c : Block) (s : State) : (s.setCtr k c).lAad = s.lAad := rfl
@[simp] theorem setCtr_lMsg (k c : Block) (s : State) : (s.setCtr k c).lMsg = s.lMsg := rfl
@[simp] theorem setCtr_errl (k c : Block) (s : State) : (s.setCtr k c).errl = s.errl := rfl
@[simp] theorem setCtr_authkey (k c : Block) (s : State) : (s.setCtr k c).authkey = s.authkey := rfl
@[simp] theorem setCtr_enckey (k c : Block) (s : State) : (s.setCtr k c).enckey = s.enckey := rfl
@[simp] theorem setCtr_polyH (k c : Block) (s : State) : (s.setCtr k c).polyH = s.polyH := rfl
@[simp] theorem setCtr_polyS (k c : Block) (s : State) : (s.setCtr k c).polyS = s.polyS := rfl
@[simp] theorem setCtr_tag (k c : Block) (s : State) : (s.setCtr k c).tag = s.tag := rfl
@[simp] theorem setCtr_rtag (k c : Block) (s : State) : (s.setCtr k c).rtag = s.rtag := rfl
@[simp] theorem setCtr_cb (k c : Block) (s : State) : (s.setCtr k c).cb = c := rfl
@[simp] theorem setCtr_ks (k c : Block) (s : State) : (s.setCtr k c).ks = k := rfl
@[simp] theorem setCtr_keybuf (k c : Block) (s : State) : (s.setCtr k c).keybuf = s.keybuf := rfl
@[simp] theorem setCtr_noncebuf (k c : Block) (s : State) : (s.setCtr k c).noncebuf = s.noncebuf := rfl
@[simp] theorem setCtr_aadmem (k c : Block) (s : State) : (s.setCtr k c).aadmem = s.aadmem := rfl
@[simp] theorem setCtr_inmem (k c : Block) (s : State) : (s.setCtr k c).inmem = s.inmem := rfl
@[simp] theorem setCtr_outmem (k c : Block) (s : State) : (s.setCtr k c).outmem = s.outmem := rfl
@[simp] theorem setCtr_work (k c : Block) (s : State) : (s.setCtr k c).work = s.work := rfl
@[simp] theorem setCtr_aesKey (k c : Block) (s : State) : (s.setCtr k c).aesKey = s.aesKey := rfl
@[simp] theorem setCtr_aesIn (k c : Block) (s : State) : (s.setCtr k c).aesIn = s.aesIn := rfl
@[simp] theorem setCtr_aesOut (k c : Block) (s : State) : (s.setCtr k c).aesOut = s.aesOut := rfl
@[simp] theorem setCtr_pvIn (k c : Block) (s : State) : (s.setCtr k c).pvIn = s.pvIn := rfl
@[simp] theorem setCtr_pvOut (k c : Block) (s : State) : (s.setCtr k c).pvOut = s.pvOut := rfl
@[simp] theorem setCtr_ctrSeed (k c : Block) (s : State) : (s.setCtr k c).ctrSeed = s.ctrSeed := rfl
@[simp] theorem setCtr_ctrIn (k c : Block) (s : State) : (s.setCtr k c).ctrIn = s.ctrIn := rfl
@[simp] theorem setCtr_ctrLen (k c : Block) (s : State) : (s.setCtr k c).ctrLen = s.ctrLen := rfl
@[simp] theorem setCtr_ctrOut (k c : Block) (s : State) : (s.setCtr k c).ctrOut = s.ctrOut := rfl
@[simp] theorem setCtr_pending (k c : Block) (s : State) : (s.setCtr k c).pending = s.pending := rfl
@[simp] theorem setCtr_hostRead (k c : Block) (s : State) : (s.setCtr k c).hostRead = s.hostRead := rfl
@[simp] theorem setCtr_epoch (k c : Block) (s : State) : (s.setCtr k c).epoch = s.epoch := rfl
@[simp] theorem setCtr_mem (k c : Block) (s : State) (sp : Space) : (s.setCtr k c).mem sp = s.mem sp := by
  cases sp <;> rfl

@[simp] theorem setAesOut_keylen (v : Block) (s : State) : (s.setAesOut v).keylen = s.keylen := rfl
@[simp] theorem setAesOut_noncelen (v : Block) (s : State) : (s.setAesOut v).noncelen = s.noncelen := rfl
@[simp] theorem setAesOut_aadlen (v : Block) (s : State) : (s.setAesOut v).aadlen = s.aadlen := rfl
@[simp] theorem setAesOut_msglen (v : Block) (s : State) : (s.setAesOut v).msglen = s.msglen := rfl
@[simp] theorem setAesOut_status (v : Block) (s : State) : (s.setAesOut v).status = s.status := rfl
@[simp] theorem setAesOut_outlen (v : Block) (s : State) : (s.setAesOut v).outlen = s.outlen := rfl
@[simp] theorem setAesOut_phase (v : Block) (s : State) : (s.setAesOut v).phase = s.phase := rfl
@[simp] theorem setAesOut_dir (v : Block) (s : State) : (s.setAesOut v).dir = s.dir := rfl
@[simp] theorem setAesOut_ksz (v : Block) (s : State) : (s.setAesOut v).ksz = s.ksz := rfl
@[simp] theorem setAesOut_lAad (v : Block) (s : State) : (s.setAesOut v).lAad = s.lAad := rfl
@[simp] theorem setAesOut_lMsg (v : Block) (s : State) : (s.setAesOut v).lMsg = s.lMsg := rfl
@[simp] theorem setAesOut_errl (v : Block) (s : State) : (s.setAesOut v).errl = s.errl := rfl
@[simp] theorem setAesOut_authkey (v : Block) (s : State) : (s.setAesOut v).authkey = s.authkey := rfl
@[simp] theorem setAesOut_enckey (v : Block) (s : State) : (s.setAesOut v).enckey = s.enckey := rfl
@[simp] theorem setAesOut_polyH (v : Block) (s : State) : (s.setAesOut v).polyH = s.polyH := rfl
@[simp] theorem setAesOut_polyS (v : Block) (s : State) : (s.setAesOut v).polyS = s.polyS := rfl
@[simp] theorem setAesOut_tag (v : Block) (s : State) : (s.setAesOut v).tag = s.tag := rfl
@[simp] theorem setAesOut_rtag (v : Block) (s : State) : (s.setAesOut v).rtag = s.rtag := rfl
@[simp] theorem setAesOut_cb (v : Block) (s : State) : (s.setAesOut v).cb = s.cb := rfl
@[simp] theorem setAesOut_ks (v : Block) (s : State) : (s.setAesOut v).ks = s.ks := rfl
@[simp] theorem setAesOut_keybuf (v : Block) (s : State) : (s.setAesOut v).keybuf = s.keybuf := rfl
@[simp] theorem setAesOut_noncebuf (v : Block) (s : State) : (s.setAesOut v).noncebuf = s.noncebuf := rfl
@[simp] theorem setAesOut_aadmem (v : Block) (s : State) : (s.setAesOut v).aadmem = s.aadmem := rfl
@[simp] theorem setAesOut_inmem (v : Block) (s : State) : (s.setAesOut v).inmem = s.inmem := rfl
@[simp] theorem setAesOut_outmem (v : Block) (s : State) : (s.setAesOut v).outmem = s.outmem := rfl
@[simp] theorem setAesOut_work (v : Block) (s : State) : (s.setAesOut v).work = s.work := rfl
@[simp] theorem setAesOut_aesKey (v : Block) (s : State) : (s.setAesOut v).aesKey = s.aesKey := rfl
@[simp] theorem setAesOut_aesIn (v : Block) (s : State) : (s.setAesOut v).aesIn = s.aesIn := rfl
@[simp] theorem setAesOut_aesOut (v : Block) (s : State) : (s.setAesOut v).aesOut = v := rfl
@[simp] theorem setAesOut_pvIn (v : Block) (s : State) : (s.setAesOut v).pvIn = s.pvIn := rfl
@[simp] theorem setAesOut_pvOut (v : Block) (s : State) : (s.setAesOut v).pvOut = s.pvOut := rfl
@[simp] theorem setAesOut_ctrSeed (v : Block) (s : State) : (s.setAesOut v).ctrSeed = s.ctrSeed := rfl
@[simp] theorem setAesOut_ctrIn (v : Block) (s : State) : (s.setAesOut v).ctrIn = s.ctrIn := rfl
@[simp] theorem setAesOut_ctrLen (v : Block) (s : State) : (s.setAesOut v).ctrLen = s.ctrLen := rfl
@[simp] theorem setAesOut_ctrOut (v : Block) (s : State) : (s.setAesOut v).ctrOut = s.ctrOut := rfl
@[simp] theorem setAesOut_pending (v : Block) (s : State) : (s.setAesOut v).pending = s.pending := rfl
@[simp] theorem setAesOut_hostRead (v : Block) (s : State) : (s.setAesOut v).hostRead = s.hostRead := rfl
@[simp] theorem setAesOut_epoch (v : Block) (s : State) : (s.setAesOut v).epoch = s.epoch := rfl
@[simp] theorem setAesOut_mem (v : Block) (s : State) (sp : Space) : (s.setAesOut v).mem sp = s.mem sp := by
  cases sp <;> rfl

@[simp] theorem setPvOut_keylen (v : Block) (s : State) : (s.setPvOut v).keylen = s.keylen := rfl
@[simp] theorem setPvOut_noncelen (v : Block) (s : State) : (s.setPvOut v).noncelen = s.noncelen := rfl
@[simp] theorem setPvOut_aadlen (v : Block) (s : State) : (s.setPvOut v).aadlen = s.aadlen := rfl
@[simp] theorem setPvOut_msglen (v : Block) (s : State) : (s.setPvOut v).msglen = s.msglen := rfl
@[simp] theorem setPvOut_status (v : Block) (s : State) : (s.setPvOut v).status = s.status := rfl
@[simp] theorem setPvOut_outlen (v : Block) (s : State) : (s.setPvOut v).outlen = s.outlen := rfl
@[simp] theorem setPvOut_phase (v : Block) (s : State) : (s.setPvOut v).phase = s.phase := rfl
@[simp] theorem setPvOut_dir (v : Block) (s : State) : (s.setPvOut v).dir = s.dir := rfl
@[simp] theorem setPvOut_ksz (v : Block) (s : State) : (s.setPvOut v).ksz = s.ksz := rfl
@[simp] theorem setPvOut_lAad (v : Block) (s : State) : (s.setPvOut v).lAad = s.lAad := rfl
@[simp] theorem setPvOut_lMsg (v : Block) (s : State) : (s.setPvOut v).lMsg = s.lMsg := rfl
@[simp] theorem setPvOut_errl (v : Block) (s : State) : (s.setPvOut v).errl = s.errl := rfl
@[simp] theorem setPvOut_authkey (v : Block) (s : State) : (s.setPvOut v).authkey = s.authkey := rfl
@[simp] theorem setPvOut_enckey (v : Block) (s : State) : (s.setPvOut v).enckey = s.enckey := rfl
@[simp] theorem setPvOut_polyH (v : Block) (s : State) : (s.setPvOut v).polyH = s.polyH := rfl
@[simp] theorem setPvOut_polyS (v : Block) (s : State) : (s.setPvOut v).polyS = s.polyS := rfl
@[simp] theorem setPvOut_tag (v : Block) (s : State) : (s.setPvOut v).tag = s.tag := rfl
@[simp] theorem setPvOut_rtag (v : Block) (s : State) : (s.setPvOut v).rtag = s.rtag := rfl
@[simp] theorem setPvOut_cb (v : Block) (s : State) : (s.setPvOut v).cb = s.cb := rfl
@[simp] theorem setPvOut_ks (v : Block) (s : State) : (s.setPvOut v).ks = s.ks := rfl
@[simp] theorem setPvOut_keybuf (v : Block) (s : State) : (s.setPvOut v).keybuf = s.keybuf := rfl
@[simp] theorem setPvOut_noncebuf (v : Block) (s : State) : (s.setPvOut v).noncebuf = s.noncebuf := rfl
@[simp] theorem setPvOut_aadmem (v : Block) (s : State) : (s.setPvOut v).aadmem = s.aadmem := rfl
@[simp] theorem setPvOut_inmem (v : Block) (s : State) : (s.setPvOut v).inmem = s.inmem := rfl
@[simp] theorem setPvOut_outmem (v : Block) (s : State) : (s.setPvOut v).outmem = s.outmem := rfl
@[simp] theorem setPvOut_work (v : Block) (s : State) : (s.setPvOut v).work = s.work := rfl
@[simp] theorem setPvOut_aesKey (v : Block) (s : State) : (s.setPvOut v).aesKey = s.aesKey := rfl
@[simp] theorem setPvOut_aesIn (v : Block) (s : State) : (s.setPvOut v).aesIn = s.aesIn := rfl
@[simp] theorem setPvOut_aesOut (v : Block) (s : State) : (s.setPvOut v).aesOut = s.aesOut := rfl
@[simp] theorem setPvOut_pvIn (v : Block) (s : State) : (s.setPvOut v).pvIn = s.pvIn := rfl
@[simp] theorem setPvOut_pvOut (v : Block) (s : State) : (s.setPvOut v).pvOut = v := rfl
@[simp] theorem setPvOut_ctrSeed (v : Block) (s : State) : (s.setPvOut v).ctrSeed = s.ctrSeed := rfl
@[simp] theorem setPvOut_ctrIn (v : Block) (s : State) : (s.setPvOut v).ctrIn = s.ctrIn := rfl
@[simp] theorem setPvOut_ctrLen (v : Block) (s : State) : (s.setPvOut v).ctrLen = s.ctrLen := rfl
@[simp] theorem setPvOut_ctrOut (v : Block) (s : State) : (s.setPvOut v).ctrOut = s.ctrOut := rfl
@[simp] theorem setPvOut_pending (v : Block) (s : State) : (s.setPvOut v).pending = s.pending := rfl
@[simp] theorem setPvOut_hostRead (v : Block) (s : State) : (s.setPvOut v).hostRead = s.hostRead := rfl
@[simp] theorem setPvOut_epoch (v : Block) (s : State) : (s.setPvOut v).epoch = s.epoch := rfl
@[simp] theorem setPvOut_mem (v : Block) (s : State) (sp : Space) : (s.setPvOut v).mem sp = s.mem sp := by
  cases sp <;> rfl

@[simp] theorem setCtrOut_keylen (v : Block) (s : State) : (s.setCtrOut v).keylen = s.keylen := rfl
@[simp] theorem setCtrOut_noncelen (v : Block) (s : State) : (s.setCtrOut v).noncelen = s.noncelen := rfl
@[simp] theorem setCtrOut_aadlen (v : Block) (s : State) : (s.setCtrOut v).aadlen = s.aadlen := rfl
@[simp] theorem setCtrOut_msglen (v : Block) (s : State) : (s.setCtrOut v).msglen = s.msglen := rfl
@[simp] theorem setCtrOut_status (v : Block) (s : State) : (s.setCtrOut v).status = s.status := rfl
@[simp] theorem setCtrOut_outlen (v : Block) (s : State) : (s.setCtrOut v).outlen = s.outlen := rfl
@[simp] theorem setCtrOut_phase (v : Block) (s : State) : (s.setCtrOut v).phase = s.phase := rfl
@[simp] theorem setCtrOut_dir (v : Block) (s : State) : (s.setCtrOut v).dir = s.dir := rfl
@[simp] theorem setCtrOut_ksz (v : Block) (s : State) : (s.setCtrOut v).ksz = s.ksz := rfl
@[simp] theorem setCtrOut_lAad (v : Block) (s : State) : (s.setCtrOut v).lAad = s.lAad := rfl
@[simp] theorem setCtrOut_lMsg (v : Block) (s : State) : (s.setCtrOut v).lMsg = s.lMsg := rfl
@[simp] theorem setCtrOut_errl (v : Block) (s : State) : (s.setCtrOut v).errl = s.errl := rfl
@[simp] theorem setCtrOut_authkey (v : Block) (s : State) : (s.setCtrOut v).authkey = s.authkey := rfl
@[simp] theorem setCtrOut_enckey (v : Block) (s : State) : (s.setCtrOut v).enckey = s.enckey := rfl
@[simp] theorem setCtrOut_polyH (v : Block) (s : State) : (s.setCtrOut v).polyH = s.polyH := rfl
@[simp] theorem setCtrOut_polyS (v : Block) (s : State) : (s.setCtrOut v).polyS = s.polyS := rfl
@[simp] theorem setCtrOut_tag (v : Block) (s : State) : (s.setCtrOut v).tag = s.tag := rfl
@[simp] theorem setCtrOut_rtag (v : Block) (s : State) : (s.setCtrOut v).rtag = s.rtag := rfl
@[simp] theorem setCtrOut_cb (v : Block) (s : State) : (s.setCtrOut v).cb = s.cb := rfl
@[simp] theorem setCtrOut_ks (v : Block) (s : State) : (s.setCtrOut v).ks = s.ks := rfl
@[simp] theorem setCtrOut_keybuf (v : Block) (s : State) : (s.setCtrOut v).keybuf = s.keybuf := rfl
@[simp] theorem setCtrOut_noncebuf (v : Block) (s : State) : (s.setCtrOut v).noncebuf = s.noncebuf := rfl
@[simp] theorem setCtrOut_aadmem (v : Block) (s : State) : (s.setCtrOut v).aadmem = s.aadmem := rfl
@[simp] theorem setCtrOut_inmem (v : Block) (s : State) : (s.setCtrOut v).inmem = s.inmem := rfl
@[simp] theorem setCtrOut_outmem (v : Block) (s : State) : (s.setCtrOut v).outmem = s.outmem := rfl
@[simp] theorem setCtrOut_work (v : Block) (s : State) : (s.setCtrOut v).work = s.work := rfl
@[simp] theorem setCtrOut_aesKey (v : Block) (s : State) : (s.setCtrOut v).aesKey = s.aesKey := rfl
@[simp] theorem setCtrOut_aesIn (v : Block) (s : State) : (s.setCtrOut v).aesIn = s.aesIn := rfl
@[simp] theorem setCtrOut_aesOut (v : Block) (s : State) : (s.setCtrOut v).aesOut = s.aesOut := rfl
@[simp] theorem setCtrOut_pvIn (v : Block) (s : State) : (s.setCtrOut v).pvIn = s.pvIn := rfl
@[simp] theorem setCtrOut_pvOut (v : Block) (s : State) : (s.setCtrOut v).pvOut = s.pvOut := rfl
@[simp] theorem setCtrOut_ctrSeed (v : Block) (s : State) : (s.setCtrOut v).ctrSeed = s.ctrSeed := rfl
@[simp] theorem setCtrOut_ctrIn (v : Block) (s : State) : (s.setCtrOut v).ctrIn = s.ctrIn := rfl
@[simp] theorem setCtrOut_ctrLen (v : Block) (s : State) : (s.setCtrOut v).ctrLen = s.ctrLen := rfl
@[simp] theorem setCtrOut_ctrOut (v : Block) (s : State) : (s.setCtrOut v).ctrOut = v := rfl
@[simp] theorem setCtrOut_pending (v : Block) (s : State) : (s.setCtrOut v).pending = s.pending := rfl
@[simp] theorem setCtrOut_hostRead (v : Block) (s : State) : (s.setCtrOut v).hostRead = s.hostRead := rfl
@[simp] theorem setCtrOut_epoch (v : Block) (s : State) : (s.setCtrOut v).epoch = s.epoch := rfl
@[simp] theorem setCtrOut_mem (v : Block) (s : State) (sp : Space) : (s.setCtrOut v).mem sp = s.mem sp := by
  cases sp <;> rfl

@[simp] theorem setHostRead_keylen (r : HostResult) (s : State) : (s.setHostRead r).keylen = s.keylen := rfl
@[simp] theorem setHostRead_noncelen (r : HostResult) (s : State) : (s.setHostRead r).noncelen = s.noncelen := rfl
@[simp] theorem setHostRead_aadlen (r : HostResult) (s : State) : (s.setHostRead r).aadlen = s.aadlen := rfl
@[simp] theorem setHostRead_msglen (r : HostResult) (s : State) : (s.setHostRead r).msglen = s.msglen := rfl
@[simp] theorem setHostRead_status (r : HostResult) (s : State) : (s.setHostRead r).status = s.status := rfl
@[simp] theorem setHostRead_outlen (r : HostResult) (s : State) : (s.setHostRead r).outlen = s.outlen := rfl
@[simp] theorem setHostRead_phase (r : HostResult) (s : State) : (s.setHostRead r).phase = s.phase := rfl
@[simp] theorem setHostRead_dir (r : HostResult) (s : State) : (s.setHostRead r).dir = s.dir := rfl
@[simp] theorem setHostRead_ksz (r : HostResult) (s : State) : (s.setHostRead r).ksz = s.ksz := rfl
@[simp] theorem setHostRead_lAad (r : HostResult) (s : State) : (s.setHostRead r).lAad = s.lAad := rfl
@[simp] theorem setHostRead_lMsg (r : HostResult) (s : State) : (s.setHostRead r).lMsg = s.lMsg := rfl
@[simp] theorem setHostRead_errl (r : HostResult) (s : State) : (s.setHostRead r).errl = s.errl := rfl
@[simp] theorem setHostRead_authkey (r : HostResult) (s : State) : (s.setHostRead r).authkey = s.authkey := rfl
@[simp] theorem setHostRead_enckey (r : HostResult) (s : State) : (s.setHostRead r).enckey = s.enckey := rfl
@[simp] theorem setHostRead_polyH (r : HostResult) (s : State) : (s.setHostRead r).polyH = s.polyH := rfl
@[simp] theorem setHostRead_polyS (r : HostResult) (s : State) : (s.setHostRead r).polyS = s.polyS := rfl
@[simp] theorem setHostRead_tag (r : HostResult) (s : State) : (s.setHostRead r).tag = s.tag := rfl
@[simp] theorem setHostRead_rtag (r : HostResult) (s : State) : (s.setHostRead r).rtag = s.rtag := rfl
@[simp] theorem setHostRead_cb (r : HostResult) (s : State) : (s.setHostRead r).cb = s.cb := rfl
@[simp] theorem setHostRead_ks (r : HostResult) (s : State) : (s.setHostRead r).ks = s.ks := rfl
@[simp] theorem setHostRead_keybuf (r : HostResult) (s : State) : (s.setHostRead r).keybuf = s.keybuf := rfl
@[simp] theorem setHostRead_noncebuf (r : HostResult) (s : State) : (s.setHostRead r).noncebuf = s.noncebuf := rfl
@[simp] theorem setHostRead_aadmem (r : HostResult) (s : State) : (s.setHostRead r).aadmem = s.aadmem := rfl
@[simp] theorem setHostRead_inmem (r : HostResult) (s : State) : (s.setHostRead r).inmem = s.inmem := rfl
@[simp] theorem setHostRead_outmem (r : HostResult) (s : State) : (s.setHostRead r).outmem = s.outmem := rfl
@[simp] theorem setHostRead_work (r : HostResult) (s : State) : (s.setHostRead r).work = s.work := rfl
@[simp] theorem setHostRead_aesKey (r : HostResult) (s : State) : (s.setHostRead r).aesKey = s.aesKey := rfl
@[simp] theorem setHostRead_aesIn (r : HostResult) (s : State) : (s.setHostRead r).aesIn = s.aesIn := rfl
@[simp] theorem setHostRead_aesOut (r : HostResult) (s : State) : (s.setHostRead r).aesOut = s.aesOut := rfl
@[simp] theorem setHostRead_pvIn (r : HostResult) (s : State) : (s.setHostRead r).pvIn = s.pvIn := rfl
@[simp] theorem setHostRead_pvOut (r : HostResult) (s : State) : (s.setHostRead r).pvOut = s.pvOut := rfl
@[simp] theorem setHostRead_ctrSeed (r : HostResult) (s : State) : (s.setHostRead r).ctrSeed = s.ctrSeed := rfl
@[simp] theorem setHostRead_ctrIn (r : HostResult) (s : State) : (s.setHostRead r).ctrIn = s.ctrIn := rfl
@[simp] theorem setHostRead_ctrLen (r : HostResult) (s : State) : (s.setHostRead r).ctrLen = s.ctrLen := rfl
@[simp] theorem setHostRead_ctrOut (r : HostResult) (s : State) : (s.setHostRead r).ctrOut = s.ctrOut := rfl
@[simp] theorem setHostRead_pending (r : HostResult) (s : State) : (s.setHostRead r).pending = s.pending := rfl
@[simp] theorem setHostRead_hostRead (r : HostResult) (s : State) : (s.setHostRead r).hostRead = r := rfl
@[simp] theorem setHostRead_epoch (r : HostResult) (s : State) : (s.setHostRead r).epoch = s.epoch := rfl
@[simp] theorem setHostRead_mem (r : HostResult) (s : State) (sp : Space) : (s.setHostRead r).mem sp = s.mem sp := by
  cases sp <;> rfl

@[simp] theorem setPending_keylen (l : List Issue) (s : State) : (s.setPending l).keylen = s.keylen := rfl
@[simp] theorem setPending_noncelen (l : List Issue) (s : State) : (s.setPending l).noncelen = s.noncelen := rfl
@[simp] theorem setPending_aadlen (l : List Issue) (s : State) : (s.setPending l).aadlen = s.aadlen := rfl
@[simp] theorem setPending_msglen (l : List Issue) (s : State) : (s.setPending l).msglen = s.msglen := rfl
@[simp] theorem setPending_status (l : List Issue) (s : State) : (s.setPending l).status = s.status := rfl
@[simp] theorem setPending_outlen (l : List Issue) (s : State) : (s.setPending l).outlen = s.outlen := rfl
@[simp] theorem setPending_phase (l : List Issue) (s : State) : (s.setPending l).phase = s.phase := rfl
@[simp] theorem setPending_dir (l : List Issue) (s : State) : (s.setPending l).dir = s.dir := rfl
@[simp] theorem setPending_ksz (l : List Issue) (s : State) : (s.setPending l).ksz = s.ksz := rfl
@[simp] theorem setPending_lAad (l : List Issue) (s : State) : (s.setPending l).lAad = s.lAad := rfl
@[simp] theorem setPending_lMsg (l : List Issue) (s : State) : (s.setPending l).lMsg = s.lMsg := rfl
@[simp] theorem setPending_errl (l : List Issue) (s : State) : (s.setPending l).errl = s.errl := rfl
@[simp] theorem setPending_authkey (l : List Issue) (s : State) : (s.setPending l).authkey = s.authkey := rfl
@[simp] theorem setPending_enckey (l : List Issue) (s : State) : (s.setPending l).enckey = s.enckey := rfl
@[simp] theorem setPending_polyH (l : List Issue) (s : State) : (s.setPending l).polyH = s.polyH := rfl
@[simp] theorem setPending_polyS (l : List Issue) (s : State) : (s.setPending l).polyS = s.polyS := rfl
@[simp] theorem setPending_tag (l : List Issue) (s : State) : (s.setPending l).tag = s.tag := rfl
@[simp] theorem setPending_rtag (l : List Issue) (s : State) : (s.setPending l).rtag = s.rtag := rfl
@[simp] theorem setPending_cb (l : List Issue) (s : State) : (s.setPending l).cb = s.cb := rfl
@[simp] theorem setPending_ks (l : List Issue) (s : State) : (s.setPending l).ks = s.ks := rfl
@[simp] theorem setPending_keybuf (l : List Issue) (s : State) : (s.setPending l).keybuf = s.keybuf := rfl
@[simp] theorem setPending_noncebuf (l : List Issue) (s : State) : (s.setPending l).noncebuf = s.noncebuf := rfl
@[simp] theorem setPending_aadmem (l : List Issue) (s : State) : (s.setPending l).aadmem = s.aadmem := rfl
@[simp] theorem setPending_inmem (l : List Issue) (s : State) : (s.setPending l).inmem = s.inmem := rfl
@[simp] theorem setPending_outmem (l : List Issue) (s : State) : (s.setPending l).outmem = s.outmem := rfl
@[simp] theorem setPending_work (l : List Issue) (s : State) : (s.setPending l).work = s.work := rfl
@[simp] theorem setPending_aesKey (l : List Issue) (s : State) : (s.setPending l).aesKey = s.aesKey := rfl
@[simp] theorem setPending_aesIn (l : List Issue) (s : State) : (s.setPending l).aesIn = s.aesIn := rfl
@[simp] theorem setPending_aesOut (l : List Issue) (s : State) : (s.setPending l).aesOut = s.aesOut := rfl
@[simp] theorem setPending_pvIn (l : List Issue) (s : State) : (s.setPending l).pvIn = s.pvIn := rfl
@[simp] theorem setPending_pvOut (l : List Issue) (s : State) : (s.setPending l).pvOut = s.pvOut := rfl
@[simp] theorem setPending_ctrSeed (l : List Issue) (s : State) : (s.setPending l).ctrSeed = s.ctrSeed := rfl
@[simp] theorem setPending_ctrIn (l : List Issue) (s : State) : (s.setPending l).ctrIn = s.ctrIn := rfl
@[simp] theorem setPending_ctrLen (l : List Issue) (s : State) : (s.setPending l).ctrLen = s.ctrLen := rfl
@[simp] theorem setPending_ctrOut (l : List Issue) (s : State) : (s.setPending l).ctrOut = s.ctrOut := rfl
@[simp] theorem setPending_pending (l : List Issue) (s : State) : (s.setPending l).pending = l := rfl
@[simp] theorem setPending_hostRead (l : List Issue) (s : State) : (s.setPending l).hostRead = s.hostRead := rfl
@[simp] theorem setPending_epoch (l : List Issue) (s : State) : (s.setPending l).epoch = s.epoch := rfl
@[simp] theorem setPending_mem (l : List Issue) (s : State) (sp : Space) : (s.setPending l).mem sp = s.mem sp := by
  cases sp <;> rfl

@[simp] theorem raise_keylen (k : ErrorKind) (s : State) : (raise k s).keylen = s.keylen := rfl
@[simp] theorem raise_noncelen (k : ErrorKind) (s : State) : (raise k s).noncelen = s.noncelen := rfl
@[simp] theorem raise_aadlen (k : ErrorKind) (s : State) : (raise k s).aadlen = s.aadlen := rfl
@[simp] theorem raise_msglen (k : ErrorKind) (s : State) : (raise k s).msglen = s.msglen := rfl
@[simp] theorem raise_status (k : ErrorKind) (s : State) : (raise k s).status = s.status := rfl
@[simp] theorem raise_outlen (k : ErrorKind) (s : State) : (raise k s).outlen = s.outlen := rfl
@[simp] theorem raise_phase (k : ErrorKind) (s : State) : (raise k s).phase = .finalize := rfl
@[simp] theorem raise_dir (k : ErrorKind) (s : State) : (raise k s).dir = s.dir := rfl
@[simp] theorem raise_ksz (k : ErrorKind) (s : State) : (raise k s).ksz = s.ksz := rfl
@[simp] theorem raise_lAad (k : ErrorKind) (s : State) : (raise k s).lAad = s.lAad := rfl
@[simp] theorem raise_lMsg (k : ErrorKind) (s : State) : (raise k s).lMsg = s.lMsg := rfl
@[simp] theorem raise_errl (k : ErrorKind) (s : State) : (raise k s).errl = k.code := rfl
@[simp] theorem raise_authkey (k : ErrorKind) (s : State) : (raise k s).authkey = s.authkey := rfl
@[simp] theorem raise_enckey (k : ErrorKind) (s : State) : (raise k s).enckey = s.enckey := rfl
@[simp] theorem raise_polyH (k : ErrorKind) (s : State) : (raise k s).polyH = s.polyH := rfl
@[simp] theorem raise_polyS (k : ErrorKind) (s : State) : (raise k s).polyS = s.polyS := rfl
@[simp] theorem raise_tag (k : ErrorKind) (s : State) : (raise k s).tag = s.tag := rfl
@[simp] theorem raise_rtag (k : ErrorKind) (s : State) : (raise k s).rtag = s.rtag := rfl
@[simp] theorem raise_cb (k : ErrorKind) (s : State) : (raise k s).cb = s.cb := rfl
@[simp] theorem raise_ks (k : ErrorKind) (s : State) : (raise k s).ks = s.ks := rfl
@[simp] theorem raise_keybuf (k : ErrorKind) (s : State) : (raise k s).keybuf = s.keybuf := rfl
@[simp] theorem raise_noncebuf (k : ErrorKind) (s : State) : (raise k s).noncebuf = s.noncebuf := rfl
@[simp] theorem raise_aadmem (k : ErrorKind) (s : State) : (raise k s).aadmem = s.aadmem := rfl
@[simp] theorem raise_inmem (k : ErrorKind) (s : State) : (raise k s).inmem = s.inmem := rfl
@[simp] theorem raise_outmem (k : ErrorKind) (s : State) : (raise k s).outmem = s.outmem := rfl
@[simp] theorem raise_work (k : ErrorKind) (s : State) : (raise k s).work = s.work := rfl
@[simp] theorem raise_aesKey (k : ErrorKind) (s : State) : (raise k s).aesKey = s.aesKey := rfl
@[simp] theorem raise_aesIn (k : ErrorKind) (s : State) : (raise k s).aesIn = s.aesIn := rfl
@[simp] theorem raise_aesOut (k : ErrorKind) (s : State) : (raise k s).aesOut = s.aesOut := rfl
@[simp] theorem raise_pvIn (k : ErrorKind) (s : State) : (raise k s).pvIn = s.pvIn := rfl
@[simp] theorem raise_pvOut (k : ErrorKind) (s : State) : (raise k s).pvOut = s.pvOut := rfl
@[simp] theorem raise_ctrSeed (k : ErrorKind) (s : State) : (raise k s).ctrSeed = s.ctrSeed := rfl
@[simp] theorem raise_ctrIn (k : ErrorKind) (s : State) : (raise k s).ctrIn = s.ctrIn := rfl
@[simp] theorem raise_ctrLen (k : ErrorKind) (s : State) : (raise k s).ctrLen = s.ctrLen := rfl
@[simp] theorem raise_ctrOut (k : ErrorKind) (s : State) : (raise k s).ctrOut = s.ctrOut := rfl
@[simp] theorem raise_pending (k : ErrorKind) (s : State) : (raise k s).pending = s.pending := rfl
@[simp] theorem raise_hostRead (k : ErrorKind) (s : State) : (raise k s).hostRead = s.hostRead := rfl
@[simp] theorem raise_epoch (k : ErrorKind) (s : State) : (raise k s).epoch = s.epoch := rfl
@[simp] theorem raise_mem (k : ErrorKind) (s : State) (sp : Space) : (raise k s).mem sp = s.mem sp := by
  cases sp <;> rfl

@[simp] theorem pvInit_keylen (s : State) : (pvInit s).keylen = s.keylen := rfl
@[simp] theorem pvInit_noncelen (s : State) : (pvInit s).noncelen = s.noncelen := rfl
@[simp] theorem pvInit_aadlen (s : State) : (pvInit s).aadlen = s.aadlen := rfl
@[simp] theorem pvInit_msglen (s : State) : (pvInit s).msglen = s.msglen := rfl
@[simp] theorem pvInit_status (s : State) : (pvInit s).status = s.status := rfl
@[simp] theorem pvInit_outlen (s : State) : (pvInit s).outlen = s.outlen := rfl
@[simp] theorem pvInit_phase (s : State) : (pvInit s).phase = s.phase := rfl
@[simp] theorem pvInit_dir (s : State) : (pvInit s).dir = s.dir := rfl
@[simp] theorem pvInit_ksz (s : State) : (pvInit s).ksz = s.ksz := rfl
@[simp] theorem pvInit_lAad (s : State) : (pvInit s).lAad = s.lAad := rfl
@[simp] theorem pvInit_lMsg (s : State) : (pvInit s).lMsg = s.lMsg := rfl
@[simp] theorem pvInit_errl (s : State) : (pvInit s).errl = s.errl := rfl
@[simp] theorem pvInit_authkey (s : State) : (pvInit s).authkey = s.authkey := rfl
@[simp] theorem pvInit_enckey (s : State) : (pvInit s).enckey = s.enckey := rfl
@[simp] theorem pvInit_polyH (s : State) : (pvInit s).polyH = s.authkey := rfl
@[simp] theorem pvInit_polyS (s : State) : (pvInit s).polyS = 0 := rfl
@[simp] theorem pvInit_tag (s : State) : (pvInit s).tag = s.tag := rfl
@[simp] theorem pvInit_rtag (s : State) : (pvInit s).rtag = s.rtag := rfl
@[simp] theorem pvInit_cb (s : State) : (pvInit s).cb = s.cb := rfl
@[simp] theorem pvInit_ks (s : State) : (pvInit s).ks = s.ks := rfl
@[simp] theorem pvInit_keybuf (s : State) : (pvInit s).keybuf = s.keybuf := rfl
@[simp] theorem pvInit_noncebuf (s : State) : (pvInit s).noncebuf = s.noncebuf := rfl
@[simp] theorem pvInit_aadmem (s : State) : (pvInit s).aadmem = s.aadmem := rfl
@[simp] theorem pvInit_inmem (s : State) : (pvInit s).inmem = s.inmem := rfl
@[simp] theorem pvInit_outmem (s : State) : (pvInit s).outmem = s.outmem := rfl
@[simp] theorem pvInit_work (s : State) : (pvInit s).work = s.work := rfl
@[simp] theorem pvInit_aesKey (s : State) : (pvInit s).aesKey = s.aesKey := rfl
@[simp] theorem pvInit_aesIn (s : State) : (pvInit s).aesIn = s.aesIn := rfl
@[simp] theorem pvInit_aesOut (s : State) : (pvInit s).aesOut = s.aesOut := rfl
@[simp] theorem pvInit_pvIn (s : State) : (pvInit s).pvIn = s.pvIn := rfl
@[simp] theorem pvInit_pvOut (s : State) : (pvInit s).pvOut = s.pvOut := rfl
@[simp] theorem pvInit_ctrSeed (s : State) : (pvInit s).ctrSeed = s.ctrSeed := rfl
@[simp] theorem pvInit_ctrIn (s : State) : (pvInit s).ctrIn = s.ctrIn := rfl
@[simp] theorem pvInit_ctrLen (s : State) : (pvInit s).ctrLen = s.ctrLen := rfl
@[simp] theorem pvInit_ctrOut (s : State) : (pvInit s).ctrOut = s.ctrOut := rfl
@[simp] theorem pvInit_pending (s : State) : (pvInit s).pending = s.pending := rfl
@[simp] theorem pvInit_hostRead (s : State) : (pvInit s).hostRead = s.hostRead := rfl
@[simp] theorem pvInit_epoch (s : State) : (pvInit s).epoch = s.epoch := rfl
@[simp] theorem pvInit_mem (s : State) (sp : Space) : (pvInit s).mem sp = s.mem sp := by
  cases sp <;> rfl

@[simp] theorem acceptCommand_keylen (d : Bool) (s : State) : (acceptCommand d s).keylen = s.keylen := rfl
@[simp] theorem acceptCommand_noncelen (d : Bool) (s : State) : (acceptCommand d s).noncelen = s.noncelen := rfl
@[simp] theorem acceptCommand_aadlen (d : Bool) (s : State) : (acceptCommand d s).aadlen = s.aadlen := rfl
@[simp] theorem acceptCommand_msglen (d : Bool) (s : State) : (acceptCommand d s).msglen = s.msglen := rfl
@[simp] theorem acceptCommand_status (d : Bool) (s : State) : (acceptCommand d s).status = statusAccepted := rfl
@[simp] theorem acceptCommand_outlen (d : Bool) (s : State) : (acceptCommand d s).outlen = 0 := rfl
@[simp] theorem acceptCommand_phase (d : Bool) (s : State) : (acceptCommand d s).phase = .init := rfl
@[simp] theorem acceptCommand_dir (d : Bool) (s : State) : (acceptCommand d s).dir = d := rfl
@[simp] theorem acceptCommand_ksz (d : Bool) (s : State) : (acceptCommand d s).ksz = s.ksz := rfl
@[simp] theorem acceptCommand_lAad (d : Bool) (s : State) : (acceptCommand d s).lAad = s.lAad := rfl
@[simp] theorem acceptCommand_lMsg (d : Bool) (s : State) : (acceptCommand d s).lMsg = s.lMsg := rfl
@[simp] theorem acceptCommand_errl (d : Bool) (s : State) : (acceptCommand d s).errl = 0 := rfl
@[simp] theorem acceptCommand_authkey (d : Bool) (s : State) : (acceptCommand d s).authkey = s.authkey := rfl
@[simp] theorem acceptCommand_enckey (d : Bool) (s : State) : (acceptCommand d s).enckey = s.enckey := rfl
@[simp] theorem acceptCommand_polyH (d : Bool) (s : State) : (acceptCommand d s).polyH = s.polyH := rfl
@[simp] theorem acceptCommand_polyS (d : Bool) (s : State) : (acceptCommand d s).polyS = s.polyS := rfl
@[simp] theorem acceptCommand_tag (d : Bool) (s : State) : (acceptCommand d s).tag = s.tag := rfl
@[simp] theorem acceptCommand_rtag (d : Bool) (s : State) : (acceptCommand d s).rtag = s.rtag := rfl
@[simp] theorem acceptCommand_cb (d : Bool) (s : State) : (acceptCommand d s).cb = s.cb := rfl
@[simp] theorem acceptCommand_ks (d : Bool) (s : State) : (acceptCommand d s).ks = s.ks := rfl
@[simp] theorem acceptCommand_keybuf (d : Bool) (s : State) : (acceptCommand d s).keybuf = s.keybuf := rfl
@[simp] theorem acceptCommand_noncebuf (d : Bool) (s : State) : (acceptCommand d s).noncebuf = s.noncebuf := rfl
@[simp] theorem acceptCommand_aadmem (d : Bool) (s : State) : (acceptCommand d s).aadmem = s.aadmem := rfl
@[simp] theorem acceptCommand_inmem (d : Bool) (s : State) : (acceptCommand d s).inmem = s.inmem := rfl
@[simp] theorem acceptCommand_outmem (d : Bool) (s : State) : (acceptCommand d s).outmem = s.outmem := rfl
@[simp] theorem acceptCommand_work (d : Bool) (s : State) : (acceptCommand d s).work = s.work := rfl
@[simp] theorem acceptCommand_aesKey (d : Bool) (s : State) : (acceptCommand d s).aesKey = s.aesKey := rfl
@[simp] theorem acceptCommand_aesIn (d : Bool) (s : State) : (acceptCommand d s).aesIn = s.aesIn := rfl
@[simp] theorem acceptCommand_aesOut (d : Bool) (s : State) : (acceptCommand d s).aesOut = s.aesOut := rfl
@[simp] theorem acceptCommand_pvIn (d : Bool) (s : State) : (acceptCommand d s).pvIn = s.pvIn := rfl
@[simp] theorem acceptCommand_pvOut (d : Bool) (s : State) : (acceptCommand d s).pvOut = s.pvOut := rfl
@[simp] theorem acceptCommand_ctrSeed (d : Bool) (s : State) : (acceptCommand d s).ctrSeed = s.ctrSeed := rfl
@[simp] theorem acceptCommand_ctrIn (d : Bool) (s : State) : (acceptCommand d s).ctrIn = s.ctrIn := rfl
@[simp] theorem acceptCommand_ctrLen (d : Bool) (s : State) : (acceptCommand d s).ctrLen = s.ctrLen := rfl
@[simp] theorem acceptCommand_ctrOut (d : Bool) (s : State) : (acceptCommand d s).ctrOut = s.ctrOut := rfl
@[simp] theorem acceptCommand_pending (d : Bool) (s : State) : (acceptCommand d s).pending = s.pending := rfl
@[simp] theorem acceptCommand_hostRead (d : Bool) (s : State) : (acceptCommand d s).hostRead = s.hostRead := rfl
@[simp] theorem acceptCommand_epoch (d : Bool) (s : State) : (acceptCommand d s).epoch = s.epoch := rfl
@[simp] theorem acceptCommand_mem (d : Bool) (s : State) (sp : Space) : (acceptCommand d s).mem sp = s.mem sp := by
  cases sp <;> rfl

@[simp] theorem latchLengths_keylen (s : State) : (latchLengths s).keylen = s.keylen := rfl
@[simp] theorem latchLengths_noncelen (s : State) : (latchLengths s).noncelen = s.noncelen := rfl
@[simp] theorem latchLengths_aadlen (s : State) : (latchLengths s).aadlen = s.aadlen := rfl
@[simp] theorem latchLengths_msglen (s : State) : (latchLengths s).msglen = s.msglen := rfl
@[simp] theorem latchLengths_status (s : State) : (latchLengths s).status = s.status := rfl
@[simp] theorem latchLengths_outlen (s : State) : (latchLengths s).outlen = s.outlen := rfl
@[simp] theorem latchLengths_phase (s : State) : (latchLengths s).phase = s.phase := rfl
@[simp] theorem latchLengths_dir (s : State) : (latchLengths s).dir = s.dir := rfl
@[simp] theorem latchLengths_ksz (s : State) : (latchLengths s).ksz = decide (s.keylen.toNat = 32) := rfl
@[simp] theorem latchLengths_lAad (s : State) : (latchLengths s).lAad = s.aadlen := rfl
@[simp] theorem latchLengths_lMsg (s : State) : (latchLengths s).lMsg = BitVec.ofNat 64 (bodyLength s) := rfl
@[simp] theorem latchLengths_errl (s : State) : (latchLengths s).errl = s.errl := rfl
@[simp] theorem latchLengths_authkey (s : State) : (latchLengths s).authkey = s.authkey := rfl
@[simp] theorem latchLengths_enckey (s : State) : (latchLengths s).enckey = s.enckey := rfl
@[simp] theorem latchLengths_polyH (s : State) : (latchLengths s).polyH = s.polyH := rfl
@[simp] theorem latchLengths_polyS (s : State) : (latchLengths s).polyS = s.polyS := rfl
@[simp] theorem latchLengths_tag (s : State) : (latchLengths s).tag = s.tag := rfl
@[simp] theorem latchLengths_rtag (s : State) : (latchLengths s).rtag = s.rtag := rfl
@[simp] theorem latchLengths_cb (s : State) : (latchLengths s).cb = s.cb := rfl
@[simp] theorem latchLengths_ks (s : State) : (latchLengths s).ks = s.ks := rfl
@[simp] theorem latchLengths_keybuf (s : State) : (latchLengths s).keybuf = s.keybuf := rfl
@[simp] theorem latchLengths_noncebuf (s : State) : (latchLengths s).noncebuf = s.noncebuf := rfl
@[simp] theorem latchLengths_aadmem (s : State) : (latchLengths s).aadmem = s.aadmem := rfl
@[simp] theorem latchLengths_inmem (s : State) : (latchLengths s).inmem = s.inmem := rfl
@[simp] theorem latchLengths_outmem (s : State) : (latchLengths s).outmem = s.outmem := rfl
@[simp] theorem latchLengths_work (s : State) : (latchLengths s).work = s.work := rfl
@[simp] theorem latchLengths_aesKey (s : State) : (latchLengths s).aesKey = s.aesKey := rfl
@[simp] theorem latchLengths_aesIn (s : State) : (latchLengths s).aesIn = s.aesIn := rfl
@[simp] theorem latchLengths_aesOut (s : State) : (latchLengths s).aesOut = s.aesOut := rfl
@[simp] theorem latchLengths_pvIn (s : State) : (latchLengths s).pvIn = s.pvIn := rfl
@[simp] theorem latchLengths_pvOut (s : State) : (latchLengths s).pvOut = s.pvOut := rfl
@[simp] theorem latchLengths_ctrSeed (s : State) : (latchLengths s).ctrSeed = s.ctrSeed := rfl
@[simp] theorem latchLengths_ctrIn (s : State) : (latchLengths s).ctrIn = s.ctrIn := rfl
@[simp] theorem latchLengths_ctrLen (s : State) : (latchLengths s).ctrLen = s.ctrLen := rfl
@[simp] theorem latchLengths_ctrOut (s : State) : (latchLengths s).ctrOut = s.ctrOut := rfl
@[simp] theorem latchLengths_pending (s : State) : (latchLengths s).pending = s.pending := rfl
@[simp] theorem latchLengths_hostRead (s : State) : (latchLengths s).hostRead = s.hostRead := rfl
@[simp] theorem latchLengths_epoch (s : State) : (latchLengths s).epoch = s.epoch := rfl
@[simp] theorem latchLengths_mem (s : State) (sp : Space) : (latchLengths s).mem sp = s.mem sp := by
  cases sp <;> rfl

@[simp] theorem zeroize_keylen (s : State) : (zeroize s).keylen = s.keylen := rfl
@[simp] theorem zeroize_noncelen (s : State) : (zeroize s).noncelen = s.noncelen := rfl
@[simp] theorem zeroize_aadlen (s : State) : (zeroize s).aadlen = s.aadlen := rfl
@[simp] theorem zeroize_msglen (s : State) : (zeroize s).msglen = s.msglen := rfl
@[simp] theorem zeroize_status (s : State) : (zeroize s).status = s.status := rfl
@[simp] theorem zeroize_outlen (s : State) : (zeroize s).outlen = s.outlen := rfl
@[simp] theorem zeroize_phase (s : State) : (zeroize s).phase = s.phase := rfl
@[simp] theorem zeroize_dir (s : State) : (zeroize s).dir = false := rfl
@[simp] theorem zeroize_ksz (s : State) : (zeroize s).ksz = false := rfl
@[simp] theorem zeroize_lAad (s : State) : (zeroize s).lAad = 0 := rfl
@[simp] theorem zeroize_lMsg (s : State) : (zeroize s).lMsg = 0 := rfl
@[simp] theorem zeroize_errl (s : State) : (zeroize s).errl = 0 := rfl
@[simp] theorem zeroize_authkey (s : State) : (zeroize s).authkey = 0 := rfl
@[simp] theorem zeroize_enckey (s : State) : (zeroize s).enckey = 0 := rfl
@[simp] theorem zeroize_polyH (s : State) : (zeroize s).polyH = 0 := rfl
@[simp] theorem zeroize_polyS (s : State) : (zeroize s).polyS = 0 := rfl
@[simp] theorem zeroize_tag (s : State) : (zeroize s).tag = 0 := rfl
@[simp] theorem zeroize_rtag (s : State) : (zeroize s).rtag = 0 := rfl
@[simp] theorem zeroize_cb (s : State) : (zeroize s).cb = 0 := rfl
@[simp] theorem zeroize_ks (s : State) : (zeroize s).ks = 0 := rfl
@[simp] theorem zeroize_keybuf (s : State) : (zeroize s).keybuf = s.keybuf := rfl
@[simp] theorem zeroize_noncebuf (s : State) : (zeroize s).noncebuf = s.noncebuf := rfl
@[simp] theorem zeroize_aadmem (s : State) : (zeroize s).aadmem = s.aadmem := rfl
@[simp] theorem zeroize_inmem (s : State) : (zeroize s).inmem = s.inmem := rfl
@[simp] theorem zeroize_outmem (s : State) : (zeroize s).outmem = s.outmem := rfl
@[simp] theorem zeroize_work (s : State) : (zeroize s).work = [] := rfl
@[simp] theorem zeroize_aesKey (s : State) : (zeroize s).aesKey = s.aesKey := rfl
@[simp] theorem zeroize_aesIn (s : State) : (zeroize s).aesIn = s.aesIn := rfl
@[simp] theorem zeroize_aesOut (s : State) : (zeroize s).aesOut = s.aesOut := rfl
@[simp] theorem zeroize_pvIn (s : State) : (zeroize s).pvIn = s.pvIn := rfl
@[simp] theorem zeroize_pvOut (s : State) : (zeroize s).pvOut = s.pvOut := rfl
@[simp] theorem zeroize_ctrSeed (s : State) : (zeroize s).ctrSeed = s.ctrSeed := rfl
@[simp] theorem zeroize_ctrIn (s : State) : (zeroize s).ctrIn = s.ctrIn := rfl
@[simp] theorem zeroize_ctrLen (s : State) : (zeroize s).ctrLen = s.ctrLen := rfl
@[simp] theorem zeroize_ctrOut (s : State) : (zeroize s).ctrOut = s.ctrOut := rfl
@[simp] theorem zeroize_pending (s : State) : (zeroize s).pending = s.pending := rfl
@[simp] theorem zeroize_hostRead (s : State) : (zeroize s).hostRead = s.hostRead := rfl
@[simp] theorem zeroize_epoch (s : State) : (zeroize s).epoch = s.epoch := rfl

end Sys2Proof.Machine
end

