-- ==== Sys2Proof/Laws/Access.lean ====
section
/-! SUPPORT. Reading and writing the spaces of a state: MemWrite touches its own space alone, a byte written is read
back, every other byte is as before, and no register write changes what a space reads. -/

namespace Sys2Proof.Machine

/-! ### memWrite, field by field -/

@[simp] theorem memWrite_keylen (sp : Space) (a : Nat) (v : List Byte) (s : State) :
    (s.memWrite sp a v).keylen = s.keylen := setMem_keylen ..
@[simp] theorem memWrite_noncelen (sp : Space) (a : Nat) (v : List Byte) (s : State) :
    (s.memWrite sp a v).noncelen = s.noncelen := setMem_noncelen ..
@[simp] theorem memWrite_aadlen (sp : Space) (a : Nat) (v : List Byte) (s : State) :
    (s.memWrite sp a v).aadlen = s.aadlen := setMem_aadlen ..
@[simp] theorem memWrite_msglen (sp : Space) (a : Nat) (v : List Byte) (s : State) :
    (s.memWrite sp a v).msglen = s.msglen := setMem_msglen ..
@[simp] theorem memWrite_status (sp : Space) (a : Nat) (v : List Byte) (s : State) :
    (s.memWrite sp a v).status = s.status := setMem_status ..
@[simp] theorem memWrite_outlen (sp : Space) (a : Nat) (v : List Byte) (s : State) :
    (s.memWrite sp a v).outlen = s.outlen := setMem_outlen ..
@[simp] theorem memWrite_phase (sp : Space) (a : Nat) (v : List Byte) (s : State) :
    (s.memWrite sp a v).phase = s.phase := setMem_phase ..
@[simp] theorem memWrite_dir (sp : Space) (a : Nat) (v : List Byte) (s : State) :
    (s.memWrite sp a v).dir = s.dir := setMem_dir ..
@[simp] theorem memWrite_ksz (sp : Space) (a : Nat) (v : List Byte) (s : State) :
    (s.memWrite sp a v).ksz = s.ksz := setMem_ksz ..
@[simp] theorem memWrite_lAad (sp : Space) (a : Nat) (v : List Byte) (s : State) :
    (s.memWrite sp a v).lAad = s.lAad := setMem_lAad ..
@[simp] theorem memWrite_lMsg (sp : Space) (a : Nat) (v : List Byte) (s : State) :
    (s.memWrite sp a v).lMsg = s.lMsg := setMem_lMsg ..
@[simp] theorem memWrite_errl (sp : Space) (a : Nat) (v : List Byte) (s : State) :
    (s.memWrite sp a v).errl = s.errl := setMem_errl ..
@[simp] theorem memWrite_authkey (sp : Space) (a : Nat) (v : List Byte) (s : State) :
    (s.memWrite sp a v).authkey = s.authkey := setMem_authkey ..
@[simp] theorem memWrite_enckey (sp : Space) (a : Nat) (v : List Byte) (s : State) :
    (s.memWrite sp a v).enckey = s.enckey := setMem_enckey ..
@[simp] theorem memWrite_polyH (sp : Space) (a : Nat) (v : List Byte) (s : State) :
    (s.memWrite sp a v).polyH = s.polyH := setMem_polyH ..
@[simp] theorem memWrite_polyS (sp : Space) (a : Nat) (v : List Byte) (s : State) :
    (s.memWrite sp a v).polyS = s.polyS := setMem_polyS ..
@[simp] theorem memWrite_tag (sp : Space) (a : Nat) (v : List Byte) (s : State) :
    (s.memWrite sp a v).tag = s.tag := setMem_tag ..
@[simp] theorem memWrite_rtag (sp : Space) (a : Nat) (v : List Byte) (s : State) :
    (s.memWrite sp a v).rtag = s.rtag := setMem_rtag ..
@[simp] theorem memWrite_cb (sp : Space) (a : Nat) (v : List Byte) (s : State) :
    (s.memWrite sp a v).cb = s.cb := setMem_cb ..
@[simp] theorem memWrite_ks (sp : Space) (a : Nat) (v : List Byte) (s : State) :
    (s.memWrite sp a v).ks = s.ks := setMem_ks ..
@[simp] theorem memWrite_aesKey (sp : Space) (a : Nat) (v : List Byte) (s : State) :
    (s.memWrite sp a v).aesKey = s.aesKey := setMem_aesKey ..
@[simp] theorem memWrite_aesIn (sp : Space) (a : Nat) (v : List Byte) (s : State) :
    (s.memWrite sp a v).aesIn = s.aesIn := setMem_aesIn ..
@[simp] theorem memWrite_aesOut (sp : Space) (a : Nat) (v : List Byte) (s : State) :
    (s.memWrite sp a v).aesOut = s.aesOut := setMem_aesOut ..
@[simp] theorem memWrite_pvIn (sp : Space) (a : Nat) (v : List Byte) (s : State) :
    (s.memWrite sp a v).pvIn = s.pvIn := setMem_pvIn ..
@[simp] theorem memWrite_pvOut (sp : Space) (a : Nat) (v : List Byte) (s : State) :
    (s.memWrite sp a v).pvOut = s.pvOut := setMem_pvOut ..
@[simp] theorem memWrite_ctrSeed (sp : Space) (a : Nat) (v : List Byte) (s : State) :
    (s.memWrite sp a v).ctrSeed = s.ctrSeed := setMem_ctrSeed ..
@[simp] theorem memWrite_ctrIn (sp : Space) (a : Nat) (v : List Byte) (s : State) :
    (s.memWrite sp a v).ctrIn = s.ctrIn := setMem_ctrIn ..
@[simp] theorem memWrite_ctrLen (sp : Space) (a : Nat) (v : List Byte) (s : State) :
    (s.memWrite sp a v).ctrLen = s.ctrLen := setMem_ctrLen ..
@[simp] theorem memWrite_ctrOut (sp : Space) (a : Nat) (v : List Byte) (s : State) :
    (s.memWrite sp a v).ctrOut = s.ctrOut := setMem_ctrOut ..
@[simp] theorem memWrite_pending (sp : Space) (a : Nat) (v : List Byte) (s : State) :
    (s.memWrite sp a v).pending = s.pending := setMem_pending ..
@[simp] theorem memWrite_hostRead (sp : Space) (a : Nat) (v : List Byte) (s : State) :
    (s.memWrite sp a v).hostRead = s.hostRead := setMem_hostRead ..
@[simp] theorem memWrite_epoch (sp : Space) (a : Nat) (v : List Byte) (s : State) :
    (s.memWrite sp a v).epoch = s.epoch := setMem_epoch ..

theorem mem_memWrite (sp sp' : Space) (a : Nat) (v : List Byte) (s : State) :
    (s.memWrite sp a v).mem sp' =
      if sp' = sp then Memory.writeBytes sp a v (s.mem sp) else s.mem sp' := mem_setMem ..

theorem memWrite_keybuf (sp : Space) (a : Nat) (v : List Byte) (s : State) (h : sp ≠ .keybuf) :
    (s.memWrite sp a v).keybuf = s.keybuf := by
  have e := mem_memWrite sp .keybuf a v s
  rw [if_neg h.symm] at e
  exact e
theorem memWrite_noncebuf (sp : Space) (a : Nat) (v : List Byte) (s : State) (h : sp ≠ .noncebuf) :
    (s.memWrite sp a v).noncebuf = s.noncebuf := by
  have e := mem_memWrite sp .noncebuf a v s
  rw [if_neg h.symm] at e
  exact e
theorem memWrite_aadmem (sp : Space) (a : Nat) (v : List Byte) (s : State) (h : sp ≠ .aadmem) :
    (s.memWrite sp a v).aadmem = s.aadmem := by
  have e := mem_memWrite sp .aadmem a v s
  rw [if_neg h.symm] at e
  exact e
theorem memWrite_inmem (sp : Space) (a : Nat) (v : List Byte) (s : State) (h : sp ≠ .inmem) :
    (s.memWrite sp a v).inmem = s.inmem := by
  have e := mem_memWrite sp .inmem a v s
  rw [if_neg h.symm] at e
  exact e
theorem memWrite_outmem (sp : Space) (a : Nat) (v : List Byte) (s : State) (h : sp ≠ .outmem) :
    (s.memWrite sp a v).outmem = s.outmem := by
  have e := mem_memWrite sp .outmem a v s
  rw [if_neg h.symm] at e
  exact e
theorem memWrite_work (sp : Space) (a : Nat) (v : List Byte) (s : State) (h : sp ≠ .work) :
    (s.memWrite sp a v).work = s.work := by
  have e := mem_memWrite sp .work a v s
  rw [if_neg h.symm] at e
  exact e

/-! ### Reading one byte -/

/-- A state reads a byte of a space from that space's list and the number of resets, and from nothing else. -/
theorem peek_eq (sp : Space) (a : Nat) (s : State) :
    s.peek sp a = Memory.readOr (unlistedByte s.epoch sp) a (s.mem sp) := rfl

theorem peek_congr {s t : State} (sp : Space) (a : Nat) (h : s.mem sp = t.mem sp)
    (e : s.epoch = t.epoch) : s.peek sp a = t.peek sp a := by
  rw [peek_eq, peek_eq, h, e]

theorem memRead_congr {s t : State} (sp : Space) (p n : Nat) (h : s.mem sp = t.mem sp)
    (e : s.epoch = t.epoch) : s.memRead sp p n = t.memRead sp p n := by
  simp only [State.memRead, peek_congr sp _ h e]

theorem keyOperand_congr {s t : State} (b : Bool) (h : s.keybuf = t.keybuf) (e : s.epoch = t.epoch) :
    keyOperand b s = keyOperand b t := by
  unfold keyOperand
  rw [memRead_congr .keybuf 0 _ h e]

theorem nonceOperand_congr {s t : State} (h : s.noncebuf = t.noncebuf) (e : s.epoch = t.epoch) :
    nonceOperand s = nonceOperand t := by
  unfold nonceOperand
  rw [memRead_congr .noncebuf 0 _ h e]

@[simp] theorem peek_setPhase (p : Phase) (s : State) (sp : Space) (a : Nat) :
    (s.setPhase p).peek sp a = s.peek sp a := peek_congr sp a (setPhase_mem ..) rfl
@[simp] theorem memRead_setPhase (p : Phase) (s : State) (sp : Space) (a n : Nat) :
    (s.setPhase p).memRead sp a n = s.memRead sp a n := memRead_congr sp a n (setPhase_mem ..) rfl
@[simp] theorem keyOperand_setPhase (p : Phase) (s : State) (b : Bool) :
    keyOperand b (s.setPhase p) = keyOperand b s := keyOperand_congr b rfl rfl
@[simp] theorem nonceOperand_setPhase (p : Phase) (s : State) :
    nonceOperand (s.setPhase p) = nonceOperand s := nonceOperand_congr rfl rfl
@[simp] theorem peek_setResult (l : Length) (v : BitVec 32) (s : State) (sp : Space) (a : Nat) :
    (s.setResult l v).peek sp a = s.peek sp a := peek_congr sp a (setResult_mem ..) rfl
@[simp] theorem memRead_setResult (l : Length) (v : BitVec 32) (s : State) (sp : Space) (a n : Nat) :
    (s.setResult l v).memRead sp a n = s.memRead sp a n := memRead_congr sp a n (setResult_mem ..) rfl
@[simp] theorem keyOperand_setResult (l : Length) (v : BitVec 32) (s : State) (b : Bool) :
    keyOperand b (s.setResult l v) = keyOperand b s := keyOperand_congr b rfl rfl
@[simp] theorem nonceOperand_setResult (l : Length) (v : BitVec 32) (s : State) :
    nonceOperand (s.setResult l v) = nonceOperand s := nonceOperand_congr rfl rfl
@[simp] theorem peek_setKeys (k : Block) (e : KeyBits) (s : State) (sp : Space) (a : Nat) :
    (s.setKeys k e).peek sp a = s.peek sp a := peek_congr sp a (setKeys_mem ..) rfl
@[simp] theorem memRead_setKeys (k : Block) (e : KeyBits) (s : State) (sp : Space) (a n : Nat) :
    (s.setKeys k e).memRead sp a n = s.memRead sp a n := memRead_congr sp a n (setKeys_mem ..) rfl
@[simp] theorem keyOperand_setKeys (k : Block) (e : KeyBits) (s : State) (b : Bool) :
    keyOperand b (s.setKeys k e) = keyOperand b s := keyOperand_congr b rfl rfl
@[simp] theorem nonceOperand_setKeys (k : Block) (e : KeyBits) (s : State) :
    nonceOperand (s.setKeys k e) = nonceOperand s := nonceOperand_congr rfl rfl
@[simp] theorem peek_setPolyS (v : Block) (s : State) (sp : Space) (a : Nat) :
    (s.setPolyS v).peek sp a = s.peek sp a := peek_congr sp a (setPolyS_mem ..) rfl
@[simp] theorem memRead_setPolyS (v : Block) (s : State) (sp : Space) (a n : Nat) :
    (s.setPolyS v).memRead sp a n = s.memRead sp a n := memRead_congr sp a n (setPolyS_mem ..) rfl
@[simp] theorem keyOperand_setPolyS (v : Block) (s : State) (b : Bool) :
    keyOperand b (s.setPolyS v) = keyOperand b s := keyOperand_congr b rfl rfl
@[simp] theorem nonceOperand_setPolyS (v : Block) (s : State) :
    nonceOperand (s.setPolyS v) = nonceOperand s := nonceOperand_congr rfl rfl
@[simp] theorem peek_setTag (v : Block) (s : State) (sp : Space) (a : Nat) :
    (s.setTag v).peek sp a = s.peek sp a := peek_congr sp a (setTag_mem ..) rfl
@[simp] theorem memRead_setTag (v : Block) (s : State) (sp : Space) (a n : Nat) :
    (s.setTag v).memRead sp a n = s.memRead sp a n := memRead_congr sp a n (setTag_mem ..) rfl
@[simp] theorem keyOperand_setTag (v : Block) (s : State) (b : Bool) :
    keyOperand b (s.setTag v) = keyOperand b s := keyOperand_congr b rfl rfl
@[simp] theorem nonceOperand_setTag (v : Block) (s : State) :
    nonceOperand (s.setTag v) = nonceOperand s := nonceOperand_congr rfl rfl
@[simp] theorem peek_setRtag (v : Block) (s : State) (sp : Space) (a : Nat) :
    (s.setRtag v).peek sp a = s.peek sp a := peek_congr sp a (setRtag_mem ..) rfl
@[simp] theorem memRead_setRtag (v : Block) (s : State) (sp : Space) (a n : Nat) :
    (s.setRtag v).memRead sp a n = s.memRead sp a n := memRead_congr sp a n (setRtag_mem ..) rfl
@[simp] theorem keyOperand_setRtag (v : Block) (s : State) (b : Bool) :
    keyOperand b (s.setRtag v) = keyOperand b s := keyOperand_congr b rfl rfl
@[simp] theorem nonceOperand_setRtag (v : Block) (s : State) :
    nonceOperand (s.setRtag v) = nonceOperand s := nonceOperand_congr rfl rfl
@[simp] theorem peek_setCb (v : Block) (s : State) (sp : Space) (a : Nat) :
    (s.setCb v).peek sp a = s.peek sp a := peek_congr sp a (setCb_mem ..) rfl
@[simp] theorem memRead_setCb (v : Block) (s : State) (sp : Space) (a n : Nat) :
    (s.setCb v).memRead sp a n = s.memRead sp a n := memRead_congr sp a n (setCb_mem ..) rfl
@[simp] theorem keyOperand_setCb (v : Block) (s : State) (b : Bool) :
    keyOperand b (s.setCb v) = keyOperand b s := keyOperand_congr b rfl rfl
@[simp] theorem nonceOperand_setCb (v : Block) (s : State) :
    nonceOperand (s.setCb v) = nonceOperand s := nonceOperand_congr rfl rfl
@[simp] theorem peek_setCtr (k c : Block) (s : State) (sp : Space) (a : Nat) :
    (s.setCtr k c).peek sp a = s.peek sp a := peek_congr sp a (setCtr_mem ..) rfl
@[simp] theorem memRead_setCtr (k c : Block) (s : State) (sp : Space) (a n : Nat) :
    (s.setCtr k c).memRead sp a n = s.memRead sp a n := memRead_congr sp a n (setCtr_mem ..) rfl
@[simp] theorem keyOperand_setCtr (k c : Block) (s : State) (b : Bool) :
    keyOperand b (s.setCtr k c) = keyOperand b s := keyOperand_congr b rfl rfl
@[simp] theorem nonceOperand_setCtr (k c : Block) (s : State) :
    nonceOperand (s.setCtr k c) = nonceOperand s := nonceOperand_congr rfl rfl
@[simp] theorem peek_setAesOut (v : Block) (s : State) (sp : Space) (a : Nat) :
    (s.setAesOut v).peek sp a = s.peek sp a := peek_congr sp a (setAesOut_mem ..) rfl
@[simp] theorem memRead_setAesOut (v : Block) (s : State) (sp : Space) (a n : Nat) :
    (s.setAesOut v).memRead sp a n = s.memRead sp a n := memRead_congr sp a n (setAesOut_mem ..) rfl
@[simp] theorem keyOperand_setAesOut (v : Block) (s : State) (b : Bool) :
    keyOperand b (s.setAesOut v) = keyOperand b s := keyOperand_congr b rfl rfl
@[simp] theorem nonceOperand_setAesOut (v : Block) (s : State) :
    nonceOperand (s.setAesOut v) = nonceOperand s := nonceOperand_congr rfl rfl
@[simp] theorem peek_setPvOut (v : Block) (s : State) (sp : Space) (a : Nat) :
    (s.setPvOut v).peek sp a = s.peek sp a := peek_congr sp a (setPvOut_mem ..) rfl
@[simp] theorem memRead_setPvOut (v : Block) (s : State) (sp : Space) (a n : Nat) :
    (s.setPvOut v).memRead sp a n = s.memRead sp a n := memRead_congr sp a n (setPvOut_mem ..) rfl
@[simp] theorem keyOperand_setPvOut (v : Block) (s : State) (b : Bool) :
    keyOperand b (s.setPvOut v) = keyOperand b s := keyOperand_congr b rfl rfl
@[simp] theorem nonceOperand_setPvOut (v : Block) (s : State) :
    nonceOperand (s.setPvOut v) = nonceOperand s := nonceOperand_congr rfl rfl
@[simp] theorem peek_setCtrOut (v : Block) (s : State) (sp : Space) (a : Nat) :
    (s.setCtrOut v).peek sp a = s.peek sp a := peek_congr sp a (setCtrOut_mem ..) rfl
@[simp] theorem memRead_setCtrOut (v : Block) (s : State) (sp : Space) (a n : Nat) :
    (s.setCtrOut v).memRead sp a n = s.memRead sp a n := memRead_congr sp a n (setCtrOut_mem ..) rfl
@[simp] theorem keyOperand_setCtrOut (v : Block) (s : State) (b : Bool) :
    keyOperand b (s.setCtrOut v) = keyOperand b s := keyOperand_congr b rfl rfl
@[simp] theorem nonceOperand_setCtrOut (v : Block) (s : State) :
    nonceOperand (s.setCtrOut v) = nonceOperand s := nonceOperand_congr rfl rfl
@[simp] theorem peek_setHostRead (r : HostResult) (s : State) (sp : Space) (a : Nat) :
    (s.setHostRead r).peek sp a = s.peek sp a := peek_congr sp a (setHostRead_mem ..) rfl
@[simp] theorem memRead_setHostRead (r : HostResult) (s : State) (sp : Space) (a n : Nat) :
    (s.setHostRead r).memRead sp a n = s.memRead sp a n := memRead_congr sp a n (setHostRead_mem ..) rfl
@[simp] theorem keyOperand_setHostRead (r : HostResult) (s : State) (b : Bool) :
    keyOperand b (s.setHostRead r) = keyOperand b s := keyOperand_congr b rfl rfl
@[simp] theorem nonceOperand_setHostRead (r : HostResult) (s : State) :
    nonceOperand (s.setHostRead r) = nonceOperand s := nonceOperand_congr rfl rfl
@[simp] theorem peek_setPending (l : List Issue) (s : State) (sp : Space) (a : Nat) :
    (s.setPending l).peek sp a = s.peek sp a := peek_congr sp a (setPending_mem ..) rfl
@[simp] theorem memRead_setPending (l : List Issue) (s : State) (sp : Space) (a n : Nat) :
    (s.setPending l).memRead sp a n = s.memRead sp a n := memRead_congr sp a n (setPending_mem ..) rfl
@[simp] theorem keyOperand_setPending (l : List Issue) (s : State) (b : Bool) :
    keyOperand b (s.setPending l) = keyOperand b s := keyOperand_congr b rfl rfl
@[simp] theorem nonceOperand_setPending (l : List Issue) (s : State) :
    nonceOperand (s.setPending l) = nonceOperand s := nonceOperand_congr rfl rfl
@[simp] theorem peek_raise (k : ErrorKind) (s : State) (sp : Space) (a : Nat) :
    (raise k s).peek sp a = s.peek sp a := peek_congr sp a (raise_mem ..) rfl
@[simp] theorem memRead_raise (k : ErrorKind) (s : State) (sp : Space) (a n : Nat) :
    (raise k s).memRead sp a n = s.memRead sp a n := memRead_congr sp a n (raise_mem ..) rfl
@[simp] theorem keyOperand_raise (k : ErrorKind) (s : State) (b : Bool) :
    keyOperand b (raise k s) = keyOperand b s := keyOperand_congr b rfl rfl
@[simp] theorem nonceOperand_raise (k : ErrorKind) (s : State) :
    nonceOperand (raise k s) = nonceOperand s := nonceOperand_congr rfl rfl
@[simp] theorem peek_pvInit  (s : State) (sp : Space) (a : Nat) :
    (pvInit s).peek sp a = s.peek sp a := peek_congr sp a (pvInit_mem ..) rfl
@[simp] theorem memRead_pvInit  (s : State) (sp : Space) (a n : Nat) :
    (pvInit s).memRead sp a n = s.memRead sp a n := memRead_congr sp a n (pvInit_mem ..) rfl
@[simp] theorem keyOperand_pvInit  (s : State) (b : Bool) :
    keyOperand b (pvInit s) = keyOperand b s := keyOperand_congr b rfl rfl
@[simp] theorem nonceOperand_pvInit  (s : State) :
    nonceOperand (pvInit s) = nonceOperand s := nonceOperand_congr rfl rfl
@[simp] theorem peek_acceptCommand (d : Bool) (s : State) (sp : Space) (a : Nat) :
    (acceptCommand d s).peek sp a = s.peek sp a := peek_congr sp a (acceptCommand_mem ..) rfl
@[simp] theorem memRead_acceptCommand (d : Bool) (s : State) (sp : Space) (a n : Nat) :
    (acceptCommand d s).memRead sp a n = s.memRead sp a n := memRead_congr sp a n (acceptCommand_mem ..) rfl
@[simp] theorem keyOperand_acceptCommand (d : Bool) (s : State) (b : Bool) :
    keyOperand b (acceptCommand d s) = keyOperand b s := keyOperand_congr b rfl rfl
@[simp] theorem nonceOperand_acceptCommand (d : Bool) (s : State) :
    nonceOperand (acceptCommand d s) = nonceOperand s := nonceOperand_congr rfl rfl
@[simp] theorem peek_latchLengths  (s : State) (sp : Space) (a : Nat) :
    (latchLengths s).peek sp a = s.peek sp a := peek_congr sp a (latchLengths_mem ..) rfl
@[simp] theorem memRead_latchLengths  (s : State) (sp : Space) (a n : Nat) :
    (latchLengths s).memRead sp a n = s.memRead sp a n := memRead_congr sp a n (latchLengths_mem ..) rfl
@[simp] theorem keyOperand_latchLengths  (s : State) (b : Bool) :
    keyOperand b (latchLengths s) = keyOperand b s := keyOperand_congr b rfl rfl
@[simp] theorem nonceOperand_latchLengths  (s : State) :
    nonceOperand (latchLengths s) = nonceOperand s := nonceOperand_congr rfl rfl

/-- MemWrite as its reader sees it: the string where it lies in its space, every other byte as before. -/
theorem peek_memWrite (sp sp' : Space) (p a : Nat) (v : List Byte) (s : State) :
    (s.memWrite sp p v).peek sp' a =
      if sp' = sp ∧ p ≤ a ∧ a < p + v.length then v.getD (a - p) 0 else s.peek sp' a := by
  rw [peek_eq, mem_memWrite, memWrite_epoch]
  by_cases h : sp' = sp
  · subst h
    simp only [if_true, true_and, readOr_writeBytes]
    rfl
  · simp only [h, if_false, false_and]
    rfl

theorem peek_memWrite_other (sp sp' : Space) (p a : Nat) (v : List Byte) (s : State) (h : sp' ≠ sp) :
    (s.memWrite sp p v).peek sp' a = s.peek sp' a := by
  rw [peek_memWrite, if_neg fun x => h x.1]

@[simp] theorem length_memRead (sp : Space) (p n : Nat) (s : State) :
    (s.memRead sp p n).length = n := by simp [State.memRead]

theorem getD_memRead (sp : Space) (p n j : Nat) (s : State) (hj : j < n) :
    (s.memRead sp p n).getD j 0 = s.peek sp (p + j) := by
  simp [State.memRead, List.getD, hj]

/-- Two reads of `n` bytes are equal when their bytes are. -/
theorem memRead_eq_of_peek {s t : State} {sp sp' : Space} {p q n : Nat}
    (h : ∀ j, j < n → s.peek sp (p + j) = t.peek sp' (q + j)) :
    s.memRead sp p n = t.memRead sp' q n := by
  apply List.map_congr_left
  intro j hj
  exact h j (List.mem_range.1 hj)

/-- A string whose bytes are those of a space is what MemRead returns. -/
theorem memRead_eq_of_getD {s : State} {sp : Space} {p n : Nat} {v : List Byte} (e : v.length = n)
    (h : ∀ j, j < n → s.peek sp (p + j) = v.getD j 0) : s.memRead sp p n = v := by
  subst e
  apply List.ext_getElem
  · simp
  · intro j h1 h2
    rw [← List.getD_eq_getElem _ 0 h1, getD_memRead _ _ _ _ _ h2, h j h2,
      List.getD_eq_getElem _ _ h2]

/-- MemRead after MemWrite returns what was written (rule R12). -/
theorem memRead_memWrite (sp : Space) (p : Nat) (v : List Byte) (s : State) :
    (s.memWrite sp p v).memRead sp p v.length = v := by
  apply memRead_eq_of_getD rfl
  intro j hj
  rw [peek_memWrite, if_pos ⟨rfl, by omega, by omega⟩, Nat.add_sub_cancel_left]

/-- MemRead in two parts. -/
theorem memRead_append (sp : Space) (p n m : Nat) (s : State) :
    s.memRead sp p (n + m) = s.memRead sp p n ++ s.memRead sp (p + n) m := by
  simp only [State.memRead, List.range_add, List.map_append, List.map_map]
  congr 1
  apply List.map_congr_left
  intro j _
  simp [Nat.add_assoc]

/-- MemWrite in two parts. -/
theorem memWrite_append (sp : Space) (p : Nat) (a b : List Byte) (s : State) :
    s.memWrite sp p (a ++ b) = (s.memWrite sp p a).memWrite sp (p + a.length) b := by
  unfold State.memWrite
  rw [writeBytes_append]
  cases sp <;> rfl

@[simp] theorem memWrite_nil (sp : Space) (p : Nat) (s : State) : s.memWrite sp p [] = s := by
  cases sp <;> rfl

@[simp] theorem memRead_zero (sp : Space) (p : Nat) (s : State) : s.memRead sp p 0 = [] := rfl

/-- MemWrite inside its space keeps every space canonical. -/
theorem wf_memWrite (sp sp' : Space) (p : Nat) (v : List Byte) (s : State)
    (h : Memory.wf sp' (s.mem sp') = true) (hp : p + v.length ≤ Config.spaceSize sp) :
    Memory.wf sp' ((s.memWrite sp p v).mem sp') = true := by
  rw [mem_memWrite]
  split
  · rename_i e
    subst e
    exact wf_writeBytes _ _ _ _ h hp
  · exact h

end Sys2Proof.Machine
end

