-- ==== Sys2Proof/Laws/Command.lean ====
section
/-! SUPPORT. The state a command ends in: its fields, what it reads, and that it forgets every internal write (rules
R44, R326). -/

namespace Sys2Proof.Machine

/-! ### endCommand, field by field -/

@[simp] theorem endCommand_keylen (n : Length) (v : BitVec 32) (s : State) :
    (endCommand n v s).keylen = s.keylen := rfl
@[simp] theorem endCommand_noncelen (n : Length) (v : BitVec 32) (s : State) :
    (endCommand n v s).noncelen = s.noncelen := rfl
@[simp] theorem endCommand_aadlen (n : Length) (v : BitVec 32) (s : State) :
    (endCommand n v s).aadlen = s.aadlen := rfl
@[simp] theorem endCommand_msglen (n : Length) (v : BitVec 32) (s : State) :
    (endCommand n v s).msglen = s.msglen := rfl
@[simp] theorem endCommand_status (n : Length) (v : BitVec 32) (s : State) :
    (endCommand n v s).status = v := rfl
@[simp] theorem endCommand_outlen (n : Length) (v : BitVec 32) (s : State) :
    (endCommand n v s).outlen = n := rfl
@[simp] theorem endCommand_phase (n : Length) (v : BitVec 32) (s : State) :
    (endCommand n v s).phase = .idle := rfl
@[simp] theorem endCommand_dir (n : Length) (v : BitVec 32) (s : State) :
    (endCommand n v s).dir = false := rfl
@[simp] theorem endCommand_ksz (n : Length) (v : BitVec 32) (s : State) :
    (endCommand n v s).ksz = false := rfl
@[simp] theorem endCommand_lAad (n : Length) (v : BitVec 32) (s : State) :
    (endCommand n v s).lAad = 0 := rfl
@[simp] theorem endCommand_lMsg (n : Length) (v : BitVec 32) (s : State) :
    (endCommand n v s).lMsg = 0 := rfl
@[simp] theorem endCommand_errl (n : Length) (v : BitVec 32) (s : State) :
    (endCommand n v s).errl = 0 := rfl
@[simp] theorem endCommand_authkey (n : Length) (v : BitVec 32) (s : State) :
    (endCommand n v s).authkey = 0 := rfl
@[simp] theorem endCommand_enckey (n : Length) (v : BitVec 32) (s : State) :
    (endCommand n v s).enckey = 0 := rfl
@[simp] theorem endCommand_polyH (n : Length) (v : BitVec 32) (s : State) :
    (endCommand n v s).polyH = 0 := rfl
@[simp] theorem endCommand_polyS (n : Length) (v : BitVec 32) (s : State) :
    (endCommand n v s).polyS = 0 := rfl
@[simp] theorem endCommand_tag (n : Length) (v : BitVec 32) (s : State) :
    (endCommand n v s).tag = 0 := rfl
@[simp] theorem endCommand_rtag (n : Length) (v : BitVec 32) (s : State) :
    (endCommand n v s).rtag = 0 := rfl
@[simp] theorem endCommand_cb (n : Length) (v : BitVec 32) (s : State) :
    (endCommand n v s).cb = 0 := rfl
@[simp] theorem endCommand_ks (n : Length) (v : BitVec 32) (s : State) :
    (endCommand n v s).ks = 0 := rfl
@[simp] theorem endCommand_keybuf (n : Length) (v : BitVec 32) (s : State) :
    (endCommand n v s).keybuf = s.keybuf := rfl
@[simp] theorem endCommand_noncebuf (n : Length) (v : BitVec 32) (s : State) :
    (endCommand n v s).noncebuf = s.noncebuf := rfl
@[simp] theorem endCommand_aadmem (n : Length) (v : BitVec 32) (s : State) :
    (endCommand n v s).aadmem = s.aadmem := rfl
@[simp] theorem endCommand_inmem (n : Length) (v : BitVec 32) (s : State) :
    (endCommand n v s).inmem = s.inmem := rfl
@[simp] theorem endCommand_outmem (n : Length) (v : BitVec 32) (s : State) :
    (endCommand n v s).outmem = s.outmem := rfl
@[simp] theorem endCommand_work (n : Length) (v : BitVec 32) (s : State) :
    (endCommand n v s).work = [] := rfl
@[simp] theorem endCommand_aesKey (n : Length) (v : BitVec 32) (s : State) :
    (endCommand n v s).aesKey = s.aesKey := rfl
@[simp] theorem endCommand_aesIn (n : Length) (v : BitVec 32) (s : State) :
    (endCommand n v s).aesIn = s.aesIn := rfl
@[simp] theorem endCommand_aesOut (n : Length) (v : BitVec 32) (s : State) :
    (endCommand n v s).aesOut = s.aesOut := rfl
@[simp] theorem endCommand_pvIn (n : Length) (v : BitVec 32) (s : State) :
    (endCommand n v s).pvIn = s.pvIn := rfl
@[simp] theorem endCommand_pvOut (n : Length) (v : BitVec 32) (s : State) :
    (endCommand n v s).pvOut = s.pvOut := rfl
@[simp] theorem endCommand_ctrSeed (n : Length) (v : BitVec 32) (s : State) :
    (endCommand n v s).ctrSeed = s.ctrSeed := rfl
@[simp] theorem endCommand_ctrIn (n : Length) (v : BitVec 32) (s : State) :
    (endCommand n v s).ctrIn = s.ctrIn := rfl
@[simp] theorem endCommand_ctrLen (n : Length) (v : BitVec 32) (s : State) :
    (endCommand n v s).ctrLen = s.ctrLen := rfl
@[simp] theorem endCommand_ctrOut (n : Length) (v : BitVec 32) (s : State) :
    (endCommand n v s).ctrOut = s.ctrOut := rfl
@[simp] theorem endCommand_pending (n : Length) (v : BitVec 32) (s : State) :
    (endCommand n v s).pending = s.pending := rfl
@[simp] theorem endCommand_hostRead (n : Length) (v : BitVec 32) (s : State) :
    (endCommand n v s).hostRead = s.hostRead := rfl
@[simp] theorem endCommand_epoch (n : Length) (v : BitVec 32) (s : State) :
    (endCommand n v s).epoch = s.epoch := rfl

/-! ### What endCommand forgets -/

@[simp] theorem endCommand_setPhase (n : Length) (v : BitVec 32) (p : Phase) (s : State) :
    endCommand n v (s.setPhase p) = endCommand n v s := rfl
@[simp] theorem endCommand_setResult (n : Length) (v : BitVec 32) (l : Length) (w : BitVec 32) (s : State) :
    endCommand n v (s.setResult l w) = endCommand n v s := rfl
@[simp] theorem endCommand_setKeys (n : Length) (v : BitVec 32) (k : Block) (e : KeyBits) (s : State) :
    endCommand n v (s.setKeys k e) = endCommand n v s := rfl
@[simp] theorem endCommand_setPolyS (n : Length) (v : BitVec 32) (b : Block) (s : State) :
    endCommand n v (s.setPolyS b) = endCommand n v s := rfl
@[simp] theorem endCommand_setTag (n : Length) (v : BitVec 32) (b : Block) (s : State) :
    endCommand n v (s.setTag b) = endCommand n v s := rfl
@[simp] theorem endCommand_setRtag (n : Length) (v : BitVec 32) (b : Block) (s : State) :
    endCommand n v (s.setRtag b) = endCommand n v s := rfl
@[simp] theorem endCommand_setCb (n : Length) (v : BitVec 32) (b : Block) (s : State) :
    endCommand n v (s.setCb b) = endCommand n v s := rfl
@[simp] theorem endCommand_setCtr (n : Length) (v : BitVec 32) (k c : Block) (s : State) :
    endCommand n v (s.setCtr k c) = endCommand n v s := rfl
@[simp] theorem endCommand_setMem_work (n : Length) (v : BitVec 32) (m : Memory) (s : State) :
    endCommand n v (s.setMem .work m) = endCommand n v s := rfl
@[simp] theorem endCommand_raise (n : Length) (v : BitVec 32) (k : ErrorKind) (s : State) :
    endCommand n v (raise k s) = endCommand n v s := rfl
@[simp] theorem endCommand_pvInit (n : Length) (v : BitVec 32) (s : State) :
    endCommand n v (pvInit s) = endCommand n v s := rfl
@[simp] theorem endCommand_acceptCommand (n : Length) (v : BitVec 32) (d : Bool) (s : State) :
    endCommand n v (acceptCommand d s) = endCommand n v s := rfl
@[simp] theorem endCommand_latchLengths (n : Length) (v : BitVec 32) (s : State) :
    endCommand n v (latchLengths s) = endCommand n v s := rfl

/-! ### What endCommand leaves in the spaces -/

theorem endCommand_endCommand (n m : Length) (v w : BitVec 32) (s : State) :
    endCommand n v (endCommand m w s) = endCommand n v s := rfl

theorem endCommand_setMem_outmem (n : Length) (v : BitVec 32) (m : Memory) (s : State) :
    endCommand n v (s.setMem .outmem m) = (endCommand n v s).setMem .outmem m := rfl

theorem setMem_memWrite_outmem (m : Memory) (p : Nat) (b : List Byte) (s : State) :
    (s.memWrite .outmem p b).setMem .outmem m = s.setMem .outmem m := rfl

theorem endCommand_setMem_own (n : Length) (v : BitVec 32) (s : State) :
    (endCommand n v s).setMem .outmem s.outmem = endCommand n v s := rfl

theorem endCommand_memWrite_outmem (n : Length) (v : BitVec 32) (p : Nat) (b : List Byte) (s : State) :
    endCommand n v (s.memWrite .outmem p b) = (endCommand n v s).memWrite .outmem p b := rfl

@[simp] theorem peek_endCommand_work (n : Length) (v : BitVec 32) (s : State) (a : Nat) :
    (endCommand n v s).peek .work a = 0 := rfl

theorem peek_endCommand (n : Length) (v : BitVec 32) (s : State) (sp : Space) (a : Nat)
    (h : sp ≠ .work) : (endCommand n v s).peek sp a = s.peek sp a := by
  apply peek_congr sp a _ (endCommand_epoch ..)
  cases sp <;> first | rfl | exact absurd rfl h

theorem memRead_endCommand (n : Length) (v : BitVec 32) (s : State) (sp : Space) (p l : Nat)
    (h : sp ≠ .work) : (endCommand n v s).memRead sp p l = s.memRead sp p l :=
  memRead_eq_of_peek fun _ _ => peek_endCommand n v s sp _ h

/-- Every space of the end state is canonical when those of the state are. -/
theorem wf_endCommand (n : Length) (v : BitVec 32) (s : State) (sp : Space)
    (h : ∀ sp, Memory.wf sp (s.mem sp) = true) : Memory.wf sp ((endCommand n v s).mem sp) = true := by
  cases sp
  · exact h .keybuf
  · exact h .noncebuf
  · exact h .aadmem
  · exact h .inmem
  · exact h .outmem
  · exact wf_nil _

end Sys2Proof.Machine
end

