-- ==== Sys2Proof/Laws/Ctr.lean ====
section
/-! SUPPORT. The CTR unit: what the counter is after `j` advances, and what a whole keystream pass leaves in WORK. -/

namespace Sys2Proof.Machine

theorem counterStep_toNat (c : Block) :
    (counterStep c).toNat = c.toNat / 2 ^ 32 * 2 ^ 32 + (c.toNat + 1) % 2 ^ 32 := by
  have h : c.toNat < 2 ^ 128 := c.isLt
  unfold counterStep
  rw [BitVec.toNat_append, ← Nat.shiftLeft_add_eq_or_of_lt (BitVec.isLt _)]
  simp only [BitVec.extractLsb'_toNat, BitVec.toNat_add, Nat.shiftLeft_eq,
    Nat.shiftRight_eq_div_pow, BitVec.toNat_ofNat]
  omega

theorem counterStart_toNat (t : Block) :
    (counterStart t).toNat = t.toNat % 2 ^ 127 + 2 ^ 127 := by
  have e : counterStart t = 1#1 ++ t.extractLsb' 0 127 := by
    unfold counterStart
    apply BitVec.eq_of_getLsbD_eq
    intro i hi
    rw [BitVec.getLsbD_or, BitVec.getLsbD_twoPow, BitVec.getLsbD_append]
    by_cases h : i < 127
    · have h2 : i ≠ 127 := by omega
      simp [h]
      omega
    · have h2 : i = 127 := by omega
      subst h2
      simp
  rw [e, BitVec.toNat_append, ← Nat.shiftLeft_add_eq_or_of_lt (BitVec.isLt _)]
  simp only [BitVec.extractLsb'_toNat, Nat.shiftLeft_eq, Nat.shiftRight_zero, BitVec.toNat_ofNat]
  omega

/-- The counter block after `j` advances, as a number (rule R195: modulo 2^32, no carry into the upper 96 bits). -/
theorem counterAfter_toNat (c : Block) (j : Nat) :
    (counterStep^[j] c).toNat = c.toNat / 2 ^ 32 * 2 ^ 32 + (c.toNat + j) % 2 ^ 32 := by
  induction j with
  | zero => simp only [Function.iterate_zero, id]; omega
  | succ j ih =>
    rw [Function.iterate_succ_apply', counterStep_toNat, ih]
    omega

theorem byteAt_counterStart (t : Block) (k : Nat) (hk : k < 16) :
    byteAt (counterStart t) k = if k = 15 then byteAt t 15 ||| 0x80#8 else byteAt t k := by
  unfold counterStart
  apply BitVec.eq_of_getLsbD_eq
  intro i hi
  rw [byteAt_getLsbD _ _ _ hi, BitVec.getLsbD_or, BitVec.getLsbD_twoPow]
  split
  · rename_i h
    subst h
    rw [BitVec.getLsbD_or, byteAt_getLsbD _ _ _ hi]
    congr 1
    have : i = 0 ∨ i = 1 ∨ i = 2 ∨ i = 3 ∨ i = 4 ∨ i = 5 ∨ i = 6 ∨ i = 7 := by omega
    rcases this with h | h | h | h | h | h | h | h <;> subst h <;> rfl
  · rename_i h
    rw [byteAt_getLsbD _ _ _ hi]
    have : 8 * k + i ≠ 127 := by omega
    simp
    omega

/-- Advancing the starting counter block `j` times gives counter block `j` of rule R87. -/
theorem counterAfter_eq_counterBlock (t : Block) (j : Nat) :
    counterStep^[j] (counterStart t) = counterBlock t j := by
  have hlow : leInt (bytesOf 4 t) = t.toNat % 2 ^ 32 := by
    have e : bytesOf 4 t = [byteAt t 0, byteAt t 1, byteAt t 2, byteAt t 3] := rfl
    rw [e]
    simp only [leInt, byteAt_toNat]
    norm_num
    omega
  have hc : ∀ k, (byteAt (counterStep^[j] (counterStart t)) k).toNat =
      ((counterStart t).toNat / 2 ^ 32 * 2 ^ 32 + ((counterStart t).toNat + j) % 2 ^ 32)
        / 256 ^ k % 256 := by
    intro k
    rw [byteAt_toNat, counterAfter_toNat]
  apply block_ext
  intro k hk
  rw [counterBlock, byteAt_bits128 _ _ hk, getD_append, getD_append]
  simp only [List.length_append, length_leBytes, List.length_map, List.length_range]
  by_cases h4 : k < 4
  · rw [if_pos (by omega), if_pos h4, getD_leBytes _ _ _ h4, hlow]
    apply BitVec.eq_of_toNat_eq
    rw [hc, counterStart_toNat, BitVec.toNat_ofNat, Nat.shiftRight_eq_div_pow, pow_mul]
    have : k = 0 ∨ k = 1 ∨ k = 2 ∨ k = 3 := by omega
    rcases this with h | h | h | h <;> subst h <;> norm_num <;> omega
  · have hup : byteAt (counterStep^[j] (counterStart t)) k = byteAt (counterStart t) k := by
      apply BitVec.eq_of_toNat_eq
      rw [hc, byteAt_toNat]
      obtain ⟨m, rfl⟩ : ∃ m, k = 4 + m := ⟨k - 4, by omega⟩
      rw [pow_add, ← Nat.div_div_eq_div_mul, ← Nat.div_div_eq_div_mul]
      congr 2
      omega
    rw [hup, byteAt_counterStart _ _ hk]
    by_cases h15 : k = 15
    · subst h15
      simp
    · rw [if_neg h15, if_pos (by omega), if_neg h4]
      have h11 : k - 4 < 11 := by omega
      have e : 4 + (k - 4) = k := by omega
      simp [List.getD, h11, e]

/-! ### The keystream pass -/

/-- One turn changes KS, CB and WORK, and nothing else. -/
theorem keystreamBlock_eq (L j : Nat) (s : State) :
    keystreamBlock L j s =
      (s.setCtr (blockEncrypt s.ksz s.enckey s.cb) (counterStep s.cb)).memWrite .work (16 * j)
        (xorBytes (s.memRead .inmem (16 * j) (blockLen L j)) (blockEncrypt s.ksz s.enckey s.cb)) :=
  rfl

/-- A turn after earlier turns is a turn from the start with the later counter, as far as the shape goes. -/
theorem turn_after_turns (k c k' c' : Block) (m : Memory) (p : Nat) (v : List Byte) (s : State) :
    (((s.setCtr k c).setMem .work m).setCtr k' c').memWrite .work p v =
      (s.setCtr k' c').setMem .work (Memory.writeBytes .work p v m) := rfl

/-- KS after `n` turns of the pass: the encrypted counter block `n` − 1, and what it was when there was no turn. -/
def keystreamAfter (n : Nat) (s : State) : Block :=
  if n = 0 then s.ks else blockEncrypt s.ksz s.enckey (counterStep^[n - 1] s.cb)

theorem keystreamAfter_succ (n : Nat) (s : State) :
    keystreamAfter (n + 1) s = blockEncrypt s.ksz s.enckey (counterStep^[n] s.cb) :=
  if_neg (Nat.succ_ne_zero n)

/-- What `n` turns of the pass have done: the counter stands at `n`, KS and WORK alone have changed beside it, and
the first `16n` bytes of WORK (the first `L` at most) are INMEM xored with the keystream. -/
structure AfterBlocks (L n : Nat) (s t : State) : Prop where
  shape : ∃ m, t = (s.setCtr (keystreamAfter n s) (counterStep^[n] s.cb)).setMem .work m
  done : ∀ a, a < 16 * n → a < L → t.peek .work a =
    s.peek .inmem a ^^^ byteAt (blockEncrypt s.ksz s.enckey (counterStep^[a / 16] s.cb)) (a % 16)
  rest : ∀ a, ¬(a < 16 * n ∧ a < L) → t.peek .work a = s.peek .work a

theorem afterBlocks_zero (L : Nat) (s : State) : AfterBlocks L 0 s s where
  shape := ⟨s.work, rfl⟩
  done := by omega
  rest := fun _ _ => rfl

theorem afterBlocks_succ (L n : Nat) (s t : State) (h : AfterBlocks L n s t) :
    AfterBlocks L (n + 1) s (keystreamBlock L n t) := by
  obtain ⟨⟨m, rfl⟩, hd, hr⟩ := h
  generalize keystreamAfter n s = k at *
  have hin : ∀ a, ((s.setCtr k (counterStep^[n] s.cb)).setMem .work m).peek .inmem a
      = s.peek .inmem a := fun a => peek_congr _ _ (by simp) (by simp)
  have hpk : ∀ a, (keystreamBlock L n ((s.setCtr k (counterStep^[n] s.cb)).setMem .work m)).peek .work a
      = if 16 * n ≤ a ∧ a < 16 * n + blockLen L n then
          s.peek .inmem a ^^^ byteAt (blockEncrypt s.ksz s.enckey (counterStep^[n] s.cb)) (a - 16 * n)
        else ((s.setCtr k (counterStep^[n] s.cb)).setMem .work m).peek .work a := by
    intro a
    have h16 := blockLen_le L n
    rw [keystreamBlock_eq, peek_memWrite]
    simp only [length_xorBytes, length_memRead, true_and, setMem_ksz, setMem_enckey, setMem_cb,
      setCtr_ksz, setCtr_enckey, setCtr_cb, Nat.min_eq_left h16]
    split
    · rename_i h
      rw [getD_xorBytes _ _ _ (by rw [length_memRead]; omega) (by omega),
        getD_memRead _ _ _ _ _ (by omega), hin, Nat.add_sub_cancel' h.1]
    · exact peek_congr _ _ (by simp) (by simp)
  refine ⟨?_, ?_, ?_⟩
  · rw [keystreamBlock_eq, turn_after_turns, Function.iterate_succ_apply', keystreamAfter_succ]
    exact ⟨_, rfl⟩
  · intro a ha haL
    have hb : blockLen L n = min 16 (L - 16 * n) := rfl
    rw [hpk]
    by_cases h : 16 * n ≤ a
    · rw [if_pos (by omega)]
      have e1 : a / 16 = n := by omega
      have e2 : a % 16 = a - 16 * n := by omega
      rw [e1, e2]
    · rw [if_neg (by omega), hd a (by omega) haL]
  · intro a ha
    have hb : blockLen L n = min 16 (L - 16 * n) := rfl
    rw [hpk]
    rw [if_neg (by omega), hr a (by omega)]

/-- A whole pass (rule R197): only KS, CB and WORK change, WORK[0..L) becomes INMEM[0..L) xored with the keystream
of the seed, and the rest of WORK is as before. -/
theorem keystreamPass_spec (t : Block) (L : Nat) (s : State) :
    AfterBlocks L (blockCount L) (ctrInit t s) (keystreamPass t L s) := by
  suffices h : ∀ n, AfterBlocks L n (ctrInit t s)
      ((List.range n).foldl (fun s j => keystreamBlock L j s) (ctrInit t s)) from h _
  intro n
  induction n with
  | zero => exact afterBlocks_zero L _
  | succ n ih =>
    rw [List.range_succ, List.foldl_append]
    exact afterBlocks_succ L n _ _ ih

/-- A pass over an admissible length keeps every space canonical. -/
theorem wf_keystreamPass (t : Block) (L : Nat) (s : State) (sp : Space)
    (hL : L ≤ Config.maxInputBytes) (h : Memory.wf sp (s.mem sp) = true) :
    Memory.wf sp ((keystreamPass t L s).mem sp) = true := by
  unfold keystreamPass
  suffices hn : ∀ n, n ≤ blockCount L →
      Memory.wf sp (((List.range n).foldl (fun s j => keystreamBlock L j s) (ctrInit t s)).mem sp)
        = true from hn _ le_rfl
  intro n
  induction n with
  | zero =>
    intro _
    rw [List.range_zero, List.foldl_nil, ctrInit, setCb_mem]
    exact h
  | succ n ih =>
    intro hn
    rw [List.range_succ, List.foldl_append, List.foldl_cons, List.foldl_nil, keystreamBlock_eq]
    apply wf_memWrite
    · rw [setCtr_mem]
      exact ih (by omega)
    · have h1 : Config.maxInputBytes < 2 ^ 37 := by decide
      have h2 : Config.spaceSize .work = 2 ^ 64 := rfl
      rw [length_xorBytes, length_memRead, h2]
      simp only [blockCount] at hn
      omega

theorem keystreamPass_shape (t : Block) (L : Nat) (s : State) :
    ∃ k c m, keystreamPass t L s = (s.setCtr k c).setMem .work m := by
  obtain ⟨m, h⟩ := (keystreamPass_spec t L s).shape
  exact ⟨_, _, m, h⟩

/-- Byte `a` < `L` of WORK after a pass (rules R87, R197). -/
theorem peek_keystreamPass (t : Block) (L : Nat) (s : State) (a : Nat) (h : a < L) :
    (keystreamPass t L s).peek .work a =
      s.peek .inmem a ^^^ keystreamByte s.ksz s.enckey t a := by
  rw [(keystreamPass_spec t L s).done a (by simp only [blockCount]; omega) h, keystreamByte,
    ← counterAfter_eq_counterBlock]
  rfl

@[simp] theorem length_applyKeystream (ksz : Bool) (key : KeyBits) (t : Block) (d : List Byte) :
    (applyKeystream ksz key t d).length = d.length := by simp [applyKeystream]

/-- Applying a keystream twice gives the data back. -/
theorem applyKeystream_twice (ksz : Bool) (key : KeyBits) (t : Block) (d : List Byte) :
    applyKeystream ksz key t (applyKeystream ksz key t d) = d := by
  unfold applyKeystream
  apply List.ext_getElem
  · simp
  · intro i h1 h2
    simp

/-- Seeds that give the same counter blocks give the same keystream. -/
theorem applyKeystream_congr (ksz : Bool) (key : KeyBits) (t t' : Block) (d : List Byte)
    (h : ∀ j, counterBlock t j = counterBlock t' j) :
    applyKeystream ksz key t d = applyKeystream ksz key t' d := by
  unfold applyKeystream
  have e : ∀ a, keystreamByte ksz key t a = keystreamByte ksz key t' a := by
    intro a
    unfold keystreamByte
    rw [h]
  simp only [e]

/-- Seeds that differ at most in the bit the counter block sets give the same counter blocks (rule R87). -/
theorem counterBlock_congr (t t' : Block) (j : Nat) (h : ∀ k, k < 15 → byteAt t k = byteAt t' k)
    (e : byteAt t 15 ||| 0x80#8 = byteAt t' 15 ||| 0x80#8) : counterBlock t j = counterBlock t' j := by
  have e1 : bytesOf 4 t = bytesOf 4 t' := by
    apply List.map_congr_left
    intro k hk
    exact h k (by have := List.mem_range.1 hk; omega)
  have e2 : (List.range 11).map (fun k => byteAt t (4 + k)) =
      (List.range 11).map (fun k => byteAt t' (4 + k)) := by
    apply List.map_congr_left
    intro k hk
    exact h _ (by have := List.mem_range.1 hk; omega)
  unfold counterBlock
  rw [e1, e2, e]

/-- WORK[0..L) after a pass is the keystream applied to INMEM[0..L). -/
theorem memRead_keystreamPass (t : Block) (L : Nat) (s : State) :
    (keystreamPass t L s).memRead .work 0 L =
      applyKeystream s.ksz s.enckey t (s.memRead .inmem 0 L) := by
  have hlen : (applyKeystream s.ksz s.enckey t (s.memRead .inmem 0 L)).length = L := by simp
  apply memRead_eq_of_getD hlen
  intro a ha
  rw [Nat.zero_add, peek_keystreamPass t L s a ha, applyKeystream, List.getD_eq_getElem _ _ (by simpa),
    List.getElem_mapIdx, ← List.getD_eq_getElem _ 0 (by simpa), getD_memRead _ _ _ _ _ ha,
    Nat.zero_add]

end Sys2Proof.Machine
end

