-- ==== Sys2Proof/Laws/Hash.lean ====
section
/-! SUPPORT. The hash of a command: absorbing blocks writes S alone, and the blocks the HASH phase reads from a space
are those of the padded string it holds. -/

namespace Sys2Proof.Machine

/-- The accumulator after absorbing blocks in order from `p` under `h` (rule R140). -/
def absorbAll (h : Block) (bs : List Block) (p : Block) : Block :=
  bs.foldl (fun p x => dot (p ^^^ x) h) p

theorem setPolyS_setPolyS (v w : Block) (s : State) : (s.setPolyS v).setPolyS w = s.setPolyS w := rfl

theorem setPolyS_self (s : State) : s.setPolyS s.polyS = s := rfl

/-- Absorbing blocks writes S alone. -/
theorem absorbBlocks_eq (bs : List Block) (s : State) :
    absorbBlocks bs s = s.setPolyS (absorbAll s.polyH bs s.polyS) := by
  unfold absorbBlocks absorbAll
  induction bs generalizing s with
  | nil => exact (setPolyS_self s).symm
  | cons b bs ih =>
    rw [List.foldl_cons, List.foldl_cons, ih]
    unfold pvAbsorb
    rw [setPolyS_setPolyS, setPolyS_polyH, setPolyS_polyS]

theorem polyval_eq_absorbAll (h : Block) (bs : List Block) : polyval h bs = absorbAll h bs 0 := rfl

@[simp] theorem length_hashBlocks (sp : Space) (L : Nat) (s : State) :
    (hashBlocks sp L s).length = blockCount L := by simp [hashBlocks]

/-- Byte `k` of a padded block is the byte of the string there, 0 beyond it (rule R60). -/
theorem byteAt_hashBlock (sp : Space) (L i k : Nat) (s : State) (hk : k < 16) :
    byteAt (hashBlock sp L i s) k = if 16 * i + k < L then s.peek sp (16 * i + k) else 0 := by
  have hb : blockLen L i = min 16 (L - 16 * i) := rfl
  rw [hashBlock, byteAt_bits128 _ _ hk, getD_append_zeros]
  split
  · rw [getD_memRead _ _ _ _ _ (by omega)]
  · rw [List.getD_eq_default _ _ (by rw [length_memRead]; omega)]

theorem byteAt_paddedBlock (b : List Byte) (i k : Nat) (hk : k < 16) :
    byteAt (bits 128 (pad16 (stringBlock b i))) k = b.getD (16 * i + k) 0 := by
  rw [byteAt_bits128 _ _ hk, pad16, getD_append_zeros]
  simp [stringBlock, List.getD, hk]

/-- The blocks HASH reads from a space are the padded blocks of the string the space holds. -/
theorem hashBlocks_eq (sp : Space) (L : Nat) (s : State) :
    hashBlocks sp L s = paddedBlocks (s.memRead sp 0 L) := by
  unfold hashBlocks paddedBlocks
  rw [length_memRead]
  apply List.map_congr_left
  intro i _
  apply block_ext
  intro k hk
  rw [byteAt_hashBlock _ _ _ _ _ hk, byteAt_paddedBlock _ _ _ hk]
  split
  · rename_i h
    rw [getD_memRead _ _ _ _ _ h, Nat.zero_add]
  · rw [List.getD_eq_default _ _ (by rw [length_memRead]; omega)]

theorem hashBlocks_congr {s t : State} (sp : Space) (L : Nat) (h : s.mem sp = t.mem sp)
    (e : s.epoch = t.epoch) : hashBlocks sp L s = hashBlocks sp L t := by
  rw [hashBlocks_eq, hashBlocks_eq, memRead_congr sp 0 L h e]

end Sys2Proof.Machine
end

