-- ==== Sys2Proof/Laws/Kdf.lean ====
section
/-! SUPPORT. The bytes of the derived keys: which AES output each comes from (rules R89, R172). -/

namespace Sys2Proof.Machine

@[simp] theorem length_subkeyHalves (ksz : Bool) (key : KeyBits) (nonce : List Byte) (i n : Nat) :
    (subkeyHalves ksz key nonce i n).length = 8 * n := by
  simp [subkeyHalves, subkeyHalf, Nat.mul_comm]

/-- Byte `j` of `n` halves from `i` on is byte `j mod 8` of AES output `i + j / 8`. -/
theorem getD_subkeyHalves (ksz : Bool) (key : KeyBits) (nonce : List Byte) (i n j : Nat)
    (h : j < 8 * n) :
    (subkeyHalves ksz key nonce i n).getD j 0 =
      byteAt (blockEncrypt ksz key (derivationBlock (i + j / 8) nonce)) (j % 8) := by
  induction n with
  | zero => omega
  | succ n ih =>
    have e : subkeyHalves ksz key nonce i (n + 1) =
        subkeyHalves ksz key nonce i n ++ subkeyHalf ksz key nonce (i + n) := by
      unfold subkeyHalves
      rw [List.range_succ, List.flatMap_append]
      simp
    rw [e, getD_append, length_subkeyHalves]
    split
    · rename_i h2
      exact ih h2
    · rename_i h2
      unfold subkeyHalf
      rw [getD_bytesOf _ _ _ (by omega), show j / 8 = n by omega, show j % 8 = j - 8 * n by omega]

end Sys2Proof.Machine
end

