-- ==== Sys2Proof/Laws/PerInstr.lean ====
section
/-! SUPPORT. One family of facts about each operation as syntax: its code decodes to it and lies in the unit the
table gives it (rules R80, R81). -/

namespace Sys2Proof.Laws.CodeRoundTrip

/-- The code of the operation decodes to it, whatever bytes follow, and its UNIT and OP fields are the operation's. -/
def Statement (i : Instr) : Prop :=
  (∀ rest, decode (encode i ++ rest) = .ok (i, rest)) ∧
    unitField (encodeCode i) = i.unitCode ∧ opField (encodeCode i) = i.opCode

theorem encrypt : Statement .encrypt := ⟨fun _ => rfl, by decide, by decide⟩
theorem decrypt : Statement .decrypt := ⟨fun _ => rfl, by decide, by decide⟩
theorem aesEnc128 : Statement .aesEnc128 := ⟨fun _ => rfl, by decide, by decide⟩
theorem aesEnc256 : Statement .aesEnc256 := ⟨fun _ => rfl, by decide, by decide⟩
theorem pvInit : Statement .pvInit := ⟨fun _ => rfl, by decide, by decide⟩
theorem pvAbsorb : Statement .pvAbsorb := ⟨fun _ => rfl, by decide, by decide⟩
theorem pvRead : Statement .pvRead := ⟨fun _ => rfl, by decide, by decide⟩
theorem kdfDerive128 : Statement .kdfDerive128 := ⟨fun _ => rfl, by decide, by decide⟩
theorem kdfDerive256 : Statement .kdfDerive256 := ⟨fun _ => rfl, by decide, by decide⟩
theorem ctrInit : Statement .ctrInit := ⟨fun _ => rfl, by decide, by decide⟩
theorem ctrNext : Statement .ctrNext := ⟨fun _ => rfl, by decide, by decide⟩
theorem ctrXor : Statement .ctrXor := ⟨fun _ => rfl, by decide, by decide⟩

end Sys2Proof.Laws.CodeRoundTrip
end

