-- ==== Sys2Proof/Laws/Phases.lean ====
section
/-! SUPPORT. What each phase does, said once (rules R223, R232, R240, R244, R250): its successor, and the only registers
and spaces it writes. -/

namespace Sys2Proof.Machine

/-! ### The sequencer -/

theorem phaseStep_idle {s : State} (h : s.phase = .idle) : phaseStep s = s := by
  unfold phaseStep; rw [h]
theorem phaseStep_init {s : State} (h : s.phase = .init) : phaseStep s = initPhase s := by
  unfold phaseStep; rw [h]
theorem phaseStep_hash {s : State} (h : s.phase = .hash) : phaseStep s = hashPhase s := by
  unfold phaseStep; rw [h]
theorem phaseStep_deriveTag {s : State} (h : s.phase = .deriveTag) :
    phaseStep s = deriveTagPhase s := by
  unfold phaseStep; rw [h]
theorem phaseStep_keystream {s : State} (h : s.phase = .keystream) :
    phaseStep s = keystreamPhase s := by
  unfold phaseStep; rw [h]
theorem phaseStep_finalize {s : State} (h : s.phase = .finalize) :
    phaseStep s = finalizePhase s := by
  unfold phaseStep; rw [h]

theorem runPhases_idle (n : Nat) {s : State} (h : s.phase = .idle) : runPhases n s = s := by
  induction n generalizing s with
  | zero => rfl
  | succ n ih => rw [runPhases, phaseStep_idle h, ih h]

/-! ### INIT -/

theorem keyIs32_latchLengths (s : State) : (latchLengths s).ksz = s.keyIs32 := rfl
@[simp] theorem keyIs32_acceptCommand (d : Bool) (s : State) :
    (acceptCommand d s).keyIs32 = s.keyIs32 := rfl
@[simp] theorem inputKey_acceptCommand (d : Bool) (s : State) :
    (acceptCommand d s).inputKey = s.inputKey := by
  unfold State.inputKey
  rw [keyIs32_acceptCommand, keyOperand_acceptCommand]
theorem bodyLength_acceptCommand (d : Bool) (s : State) :
    bodyLength (acceptCommand d s) = if d then s.msglen.toNat - 16 else s.msglen.toNat := rfl

/-- The checks INIT makes of a command just accepted, in terms of what the host has set up (rule R223). -/
theorem initError_acceptCommand (d : Bool) (s : State) :
    initError (acceptCommand d s) =
      if d && decide (s.msglen.toNat < 16) then some .malformedCiphertext
      else if s.noncelen.toNat ≠ 12 then some .invalidNonceSize
      else if s.keylen.toNat ≠ 16 ∧ s.keylen.toNat ≠ 32 then some .invalidKeySize
      else if (if d then s.msglen.toNat - 16 else s.msglen.toNat) + s.aadlen.toNat
          > Config.maxInputBytes then some .inputTooLarge
      else none := rfl

theorem initError_encrypt {s : State} (h : EncryptRuns s) :
    initError (acceptCommand false s) = none := by
  have h1 := h.nonce
  have h2 := h.key
  have h3 := h.size
  rw [initError_acceptCommand, if_neg (by simp), if_neg (by omega), if_neg (by omega),
    if_neg (by simp; omega)]

theorem initError_decrypt {s : State} (h : DecryptRuns s) :
    initError (acceptCommand true s) = none := by
  have h1 := h.nonce
  have h2 := h.key
  have h3 := h.size
  have h4 := h.hasTag
  rw [initError_acceptCommand, if_neg (by simp; omega), if_neg (by omega), if_neg (by omega),
    if_neg (by simp; omega)]

/-- What the size check leaves (rule R226). -/
theorem bodyLength_le {s : State} (h : initError s = none) :
    bodyLength s + s.aadlen.toNat ≤ Config.maxInputBytes := by
  by_contra hc
  unfold initError at h
  repeat' split at h
  all_goals first | omega | cases h

@[simp] theorem issueDerive_eq (s : State) :
    issueDerive s = s.setKeys (deriveAuthKey s.ksz (keyOperand s.ksz s) (nonceOperand s))
      (deriveEncKey s.ksz (keyOperand s.ksz s) (nonceOperand s)) := by
  unfold issueDerive kdfDerive256 kdfDerive128
  cases s.ksz <;> simp

theorem latchReceivedTag_eq (s : State) :
    latchReceivedTag s =
      s.setRtag (if s.dir then bits 128 (s.memRead .inmem (s.msglen.toNat - 16) 16) else s.rtag) := by
  unfold latchReceivedTag
  cases s.dir <;> rfl

/-- INIT when a check fails (rule R292). -/
theorem initPhase_error {s : State} {k : ErrorKind} (h : initError s = some k) :
    initPhase s = raise k s := by
  unfold initPhase
  rw [h]

/-- INIT when every check passes. -/
theorem initPhase_ok {s : State} (h : initError s = none) :
    initPhase s =
      ((((latchLengths s).setRtag
          (if s.dir then bits 128 (s.memRead .inmem (s.msglen.toNat - 16) 16) else s.rtag)).setKeys
        (deriveAuthKey s.keyIs32 s.inputKey (nonceOperand s))
        (deriveEncKey s.keyIs32 s.inputKey (nonceOperand s))).setPhase
      (if s.dir then .keystream else .hash)) := by
  unfold initPhase
  rw [h]
  simp only [latchReceivedTag_eq, issueDerive_eq, latchLengths_dir, memRead_latchLengths,
    latchLengths_msglen, latchLengths_rtag, setRtag_ksz, latchLengths_ksz, keyOperand_setRtag,
    keyOperand_latchLengths, nonceOperand_setRtag, nonceOperand_latchLengths]
  rfl

/-! ### HASH -/

theorem hashPhase_eq (s : State) :
    hashPhase s =
      ((pvInit s).setPolyS
        (polyval s.authkey
          (paddedBlocks (s.memRead .aadmem 0 s.lAad.toNat)
            ++ paddedBlocks (s.memRead (messageSpace s) 0 s.lMsg.toNat)
            ++ [lengthBlock s.lAad.toNat s.lMsg.toNat]))).setPhase .deriveTag := by
  unfold hashPhase hashInput
  rw [absorbBlocks_eq, hashBlocks_eq, hashBlocks_eq, polyval_eq_absorbAll, pvInit_polyH, pvInit_polyS]

/-! ### DERIVE_TAG -/

/-- The tag DERIVE_TAG computes. -/
def tagOf (s : State) : Block := blockEncrypt s.ksz s.enckey (tagInput s.polyS (nonceOperand s))

theorem computeTag_eq (s : State) : computeTag s = s.setTag (tagOf s) := rfl

theorem deriveTagPhase_encrypt {s : State} (h : s.dir = false) :
    deriveTagPhase s = (s.setTag (tagOf s)).setPhase .keystream := by
  unfold deriveTagPhase
  rw [h, computeTag_eq]
  simp

theorem xor_ne_zero_iff (a b : Block) : a ^^^ b ≠ 0 ↔ a ≠ b := by
  rw [not_iff_not]
  constructor
  · intro h
    have := congrArg (· ^^^ b) h
    simpa [BitVec.xor_assoc] using this
  · rintro rfl
    simp

theorem deriveTagPhase_decrypt {s : State} (h : s.dir = true) :
    deriveTagPhase s =
      if tagOf s = s.rtag then (s.setTag (tagOf s)).setPhase .finalize
      else raise .authenticationFailure (s.setTag (tagOf s)) := by
  unfold deriveTagPhase
  rw [h, computeTag_eq]
  simp only [if_true, setTag_tag, setTag_rtag, xor_ne_zero_iff, ne_eq, ite_not]

/-! ### KEYSTREAM -/

theorem keystreamPhase_shape (s : State) :
    ∃ k c m, keystreamPhase s =
      ((s.setCtr k c).setMem .work m).setPhase (if s.dir then .hash else .finalize) := by
  obtain ⟨k, c, m, h⟩ := keystreamPass_shape (if s.dir then s.rtag else s.tag) s.lMsg.toNat s
  exact ⟨k, c, m, by unfold keystreamPhase; rw [h]⟩

theorem memRead_keystreamPhase (s : State) :
    (keystreamPhase s).memRead .work 0 s.lMsg.toNat =
      applyKeystream s.ksz s.enckey (if s.dir then s.rtag else s.tag)
        (s.memRead .inmem 0 s.lMsg.toNat) := by
  unfold keystreamPhase
  rw [memRead_setPhase, memRead_keystreamPass]

/-! ### FINALIZE -/

theorem endCommand_of_result (n : Length) (v : BitVec 32) (s : State) :
    (zeroize (s.setResult n v)).setPhase .idle = endCommand n v s := rfl

/-- FINALIZE after a success. -/
theorem finalizePhase_success {s : State} (h : s.errl = 0) :
    finalizePhase s =
      if s.dir then
        endCommand s.lMsg statusSuccess (s.memWrite .outmem 0 (s.memRead .work 0 s.lMsg.toNat))
      else
        endCommand (s.lMsg + 16) statusSuccess
          ((s.memWrite .outmem 0 (s.memRead .work 0 s.lMsg.toNat)).memWrite .outmem s.lMsg.toNat
            (bytes16 s.tag)) := by
  unfold finalizePhase releaseOutput
  rw [if_pos h]
  by_cases hd : s.dir = true
  · simp only [hd, if_true]
    exact endCommand_of_result ..
  · simp only [hd]
    exact endCommand_of_result ..

/-- FINALIZE after an error. -/
theorem finalizePhase_error {s : State} (h : s.errl ≠ 0) :
    finalizePhase s = endCommand 0 (statusFailure s.errl) s := by
  unfold finalizePhase withholdOutput
  rw [if_neg h, endCommand_of_result]

/-- FINALIZE ends a command whatever the state (rule R326). -/
theorem finalizePhase_ends (s : State) : ∃ n v t, finalizePhase s = endCommand n v t := by
  by_cases h : s.errl = 0
  · rw [finalizePhase_success h]
    split <;> exact ⟨_, _, _, rfl⟩
  · rw [finalizePhase_error h]
    exact ⟨_, _, _, rfl⟩

/-- What no phase changes: the length registers, the five buffers but OUTMEM, and the model's own fields. -/
theorem phaseStep_outside (s : State) :
    endCommand 0 0 ((phaseStep s).setMem .outmem s.outmem) = endCommand 0 0 s := by
  rw [endCommand_setMem_outmem]
  suffices h : ∃ t, (endCommand 0 0 (phaseStep s)).setMem .outmem s.outmem =
      (endCommand 0 0 t).setMem .outmem s.outmem ∧ endCommand 0 0 t = endCommand 0 0 s by
    obtain ⟨t, h1, h2⟩ := h
    rw [h1, h2, endCommand_setMem_own]
  cases h : s.phase with
  | idle => exact ⟨s, by rw [phaseStep_idle h], rfl⟩
  | init =>
    rw [phaseStep_init h]
    cases hi : initError s with
    | some k => exact ⟨s, by rw [initPhase_error hi, endCommand_raise], rfl⟩
    | none =>
      refine ⟨s, ?_, rfl⟩
      rw [initPhase_ok hi, endCommand_setPhase, endCommand_setKeys, endCommand_setRtag,
        endCommand_latchLengths]
  | hash =>
    refine ⟨s, ?_, rfl⟩
    rw [phaseStep_hash h, hashPhase_eq, endCommand_setPhase, endCommand_setPolyS, endCommand_pvInit]
  | deriveTag =>
    refine ⟨s, ?_, rfl⟩
    rw [phaseStep_deriveTag h]
    cases hd : s.dir with
    | false => rw [deriveTagPhase_encrypt hd, endCommand_setPhase, endCommand_setTag]
    | true =>
      rw [deriveTagPhase_decrypt hd]
      split
      · rw [endCommand_setPhase, endCommand_setTag]
      · rw [endCommand_raise, endCommand_setTag]
  | keystream =>
    obtain ⟨k, c, m, hk⟩ := keystreamPhase_shape s
    refine ⟨s, ?_, rfl⟩
    rw [phaseStep_keystream h, hk, endCommand_setPhase, endCommand_setMem_work, endCommand_setCtr]
  | finalize =>
    refine ⟨s, ?_, rfl⟩
    rw [phaseStep_finalize h]
    by_cases he : s.errl = 0
    · rw [finalizePhase_success he]
      split
      · rw [endCommand_endCommand, endCommand_memWrite_outmem, setMem_memWrite_outmem]
      · rw [endCommand_endCommand, endCommand_memWrite_outmem, endCommand_memWrite_outmem,
          setMem_memWrite_outmem, setMem_memWrite_outmem]
    · rw [finalizePhase_error he, endCommand_endCommand]

theorem phaseStep_pending (s : State) : (phaseStep s).pending = s.pending := by
  have h := congrArg State.pending (phaseStep_outside s)
  rwa [endCommand_pending, endCommand_pending, setMem_pending] at h

/-- DIR is constant until FINALIZE clears it (rules R29, R44). -/
theorem phaseStep_dir {s : State} (h : s.phase ≠ .finalize) : (phaseStep s).dir = s.dir := by
  cases hp : s.phase with
  | idle => rw [phaseStep_idle hp]
  | finalize => exact absurd hp h
  | init =>
    rw [phaseStep_init hp]
    cases hi : initError s with
    | some k => rw [initPhase_error hi, raise_dir]
    | none => rw [initPhase_ok hi]; simp
  | hash => rw [phaseStep_hash hp, hashPhase_eq]; simp
  | deriveTag =>
    rw [phaseStep_deriveTag hp]
    cases hd : s.dir with
    | false => rw [deriveTagPhase_encrypt hd]; simp [hd]
    | true => rw [deriveTagPhase_decrypt hd]; split <;> simp [hd]
  | keystream =>
    rw [phaseStep_keystream hp]
    obtain ⟨k, c, m, hk⟩ := keystreamPhase_shape s
    rw [hk]
    simp

/-- What a raised error comes to (rule R292). -/
theorem phaseStep_raise (k : ErrorKind) (s : State) :
    phaseStep (raise k s) = endCommand 0 (statusFailure k.code) s := by
  rw [phaseStep_finalize rfl, finalizePhase_error (by rw [raise_errl]; cases k <;> decide),
    raise_errl, endCommand_raise]

/-- A command whose INIT raises (rules R223, R292). -/
theorem runCommand_raise {d : Bool} {s : State} {k : ErrorKind}
    (h : initError (acceptCommand d s) = some k) :
    runCommand d s = endCommand 0 (statusFailure k.code) s := by
  unfold runCommand
  rw [runPhases, phaseStep_init rfl, initPhase_error h, runPhases, phaseStep_raise,
    runPhases_idle _ (endCommand_phase ..), endCommand_acceptCommand]

theorem exec_encrypt {s : State} (h : s.busy = false) :
    exec .encrypt s = .next (runCommand false s) := by
  unfold exec execEncrypt
  rw [h, if_neg Bool.false_ne_true]

theorem exec_decrypt {s : State} (h : s.busy = false) :
    exec .decrypt s = .next (runCommand true s) := by
  unfold exec execDecrypt
  rw [h, if_neg Bool.false_ne_true]

end Sys2Proof.Machine
end

