-- ==== Sys2Proof/Laws/Polyval.lean ====
section
/-! SUPPORT. The POLYVAL field: multiplication by x is additive, and so is the product in its first operand; a map
that is additive and commutes with multiplication by x passes through the product loop. -/

namespace Sys2Proof.Machine

theorem mulx_xor (a b : Block) : mulx (a ^^^ b) = mulx a ^^^ mulx b := by
  have e : (a ^^^ b) <<< 1 = a <<< 1 ^^^ b <<< 1 := by
    ext i
    simp
    cases i <;> simp
  have c : ∀ x y r : Block, x ^^^ r ^^^ (y ^^^ r) = x ^^^ y := by
    intro x y r
    have h : x ^^^ r ^^^ (y ^^^ r) = x ^^^ y ^^^ (r ^^^ r) := by ac_rfl
    rw [h, BitVec.xor_self, BitVec.xor_zero]
  unfold mulx
  rw [BitVec.getLsbD_xor]
  cases a.getLsbD 127 <;> cases b.getLsbD 127 <;>
    simp only [Bool.xor_false, Bool.xor_true, Bool.not_false, Bool.not_true, if_true,
      Bool.false_eq_true, if_false, e, c] <;> ac_rfl

theorem mulx_zero : mulx 0 = 0 := by decide

/-- The product loop is additive in its two locals together. -/
theorem fmulLoop_xor (b : Block) (n i : Nat) (r r' t t' : Block) :
    fmulLoop b n i (r ^^^ r') (t ^^^ t') = fmulLoop b n i r t ^^^ fmulLoop b n i r' t' := by
  induction n generalizing i r r' t t' with
  | zero => rfl
  | succ n ih =>
    simp only [fmulLoop]
    split
    · have h : r ^^^ r' ^^^ (t ^^^ t') = (r ^^^ t) ^^^ (r' ^^^ t') := by ac_rfl
      rw [h, mulx_xor, ih]
    · rw [mulx_xor, ih]

/-- The plain product is additive in its first operand (rule R142). -/
theorem fmul_xor (a c b : Block) : fmul (a ^^^ c) b = fmul a b ^^^ fmul c b := by
  unfold fmul
  have h := fmulLoop_xor b 128 0 0 0 a c
  rwa [BitVec.xor_self] at h

/-- A map that is additive and commutes with multiplication by x passes through the product loop. -/
theorem fmulLoop_map (f : Block → Block) (hx : ∀ a b, f (a ^^^ b) = f a ^^^ f b)
    (hm : ∀ a, f (mulx a) = mulx (f a)) (b : Block) (n i : Nat) (r t : Block) :
    f (fmulLoop b n i r t) = fmulLoop b n i (f r) (f t) := by
  induction n generalizing i r t with
  | zero => rfl
  | succ n ih =>
    simp only [fmulLoop]
    rw [ih, hm]
    split
    · rw [hx]
    · rfl

theorem dot_eq (a b : Block) : dot a b = fmul (fmul a b) polyXInv128 := by
  unfold dot
  rfl

end Sys2Proof.Machine
end

