-- ==== Sys2Proof/Laws/Step.lean ====
section
/-! SUPPORT. The step, case by case: which agent takes it, and what it comes to (rules R16, R31, R43). -/

namespace Sys2Proof.Machine

theorem busy_setPending (l : List Issue) (s : State) : (s.setPending l).busy = s.busy := rfl

/-- Nothing is to happen: the orchestrator's step, or none in IDLE. -/
theorem step_of_nil {s : State} (h : s.pending = []) : step s = .next (phaseStep s) := by
  unfold step advance
  rw [h]

/-- A unit request is taken at once. -/
theorem step_of_unit {s : State} {c : BitVec 8} {rest : List Issue}
    (h : s.pending = .unit c :: rest) : step s = unitRequest c (s.setPending rest) := by
  unfold step advance
  rw [h]

/-- A host move is taken when no command is in its phases, the reset event always. -/
theorem step_of_host {s : State} {m : HostMove} {rest : List Issue}
    (h : s.pending = .host m :: rest) (hm : m = .reset ∨ s.phase = .idle) :
    step s = hostMove m (s.setPending rest) := by
  unfold step advance
  rw [h]
  exact if_pos hm

/-- A host move waits while a command is in its phases. -/
theorem step_of_wait {s : State} {m : HostMove} {rest : List Issue}
    (h : s.pending = .host m :: rest) (hm : ¬(m = .reset ∨ s.phase = .idle)) :
    step s = .next (phaseStep s) := by
  unfold step advance
  rw [h]
  exact if_neg hm

/-- A step is one of the four. -/
theorem step_cases (s : State) :
    step s = .next (phaseStep s) ∨
    (∃ c rest, s.pending = .unit c :: rest ∧ step s = unitRequest c (s.setPending rest)) ∨
    (∃ m rest, s.pending = .host m :: rest ∧ (m = .reset ∨ s.phase = .idle) ∧
      step s = hostMove m (s.setPending rest)) := by
  cases h : s.pending with
  | nil => exact .inl (step_of_nil h)
  | cons i rest =>
    cases i with
    | unit c => exact .inr (.inl ⟨c, rest, rfl, step_of_unit h⟩)
    | host m =>
      by_cases hm : m = .reset ∨ s.phase = .idle
      · exact .inr (.inr ⟨m, rest, rfl, hm, step_of_host h hm⟩)
      · exact .inl (step_of_wait h hm)

end Sys2Proof.Machine
end

