-- ==== Sys2Proof/Tests/Slice0.lean ====
section
/-! SUPPORT. Tests on fixed values, each with its source in the spec, and for every statement with hypotheses a
witness: a concrete state and operands that meet all of them together, at the ends of each clause's range. -/

namespace Sys2Proof.Tests

open Sys2Proof.Machine

/-! ### Helpers -/

/-- `n` bytes from the hexadecimal notation of 95_test_vectors.md, byte 0 first. -/
def hex (n v : Nat) : List Byte := (bytesOf n (BitVec.ofNat (8 * n) v)).reverse

/-- A 16-byte block in that notation. -/
def block (v : Nat) : Block := bits 128 (hex 16 v)

/-- The reset state with a descriptor and the bytes of the four input buffers written by the host. -/
def setup (kl al ml key nonce aad msg : Nat) : State :=
  { ((((State.reset.memWrite .keybuf 0 (hex kl key)).memWrite .noncebuf 0 (hex 12 nonce)).memWrite
      .aadmem 0 (hex al aad)).memWrite .inmem 0 (hex ml msg)) with
    keylen := BitVec.ofNat 64 kl
    noncelen := 12
    aadlen := BitVec.ofNat 64 al
    msglen := BitVec.ofNat 64 ml }

/-- The reset state with the four length registers written. -/
def lengths (kl nl al ml : Nat) : State :=
  { State.reset with
    keylen := BitVec.ofNat 64 kl
    noncelen := BitVec.ofNat 64 nl
    aadlen := BitVec.ofNat 64 al
    msglen := BitVec.ofNat 64 ml }

/-- One value of the next state, if there is one. -/
def after {α : Type} (f : State → α) (o : Host.Outcome State Fault Refusal) : Option α :=
  match o with
  | .next t => some (f t)
  | .fault _ => none
  | .refused _ => none

/-- STATUS, OUTLEN and the bytes OUTLEN covers, after a step. -/
def ends (o : Host.Outcome State Fault Refusal) : Option (BitVec 32 × Length × List Byte) :=
  after State.observation o

/-! ### Decode: every row of the table of rule R81, UNIT in bits 7 to 4, OP in bits 3 to 0 -/

theorem test_decode_encrypt : decode [0b0000#4 ++ 0b0001#4] = .ok (.encrypt, []) := by rfl
theorem test_decode_decrypt : decode [0b0000#4 ++ 0b0010#4] = .ok (.decrypt, []) := by rfl
theorem test_decode_aesEnc128 : decode [0b0001#4 ++ 0b0000#4] = .ok (.aesEnc128, []) := by rfl
theorem test_decode_aesEnc256 : decode [0b0001#4 ++ 0b0001#4] = .ok (.aesEnc256, []) := by rfl
theorem test_decode_pvInit : decode [0b0010#4 ++ 0b0000#4] = .ok (.pvInit, []) := by rfl
theorem test_decode_pvAbsorb : decode [0b0010#4 ++ 0b0001#4] = .ok (.pvAbsorb, []) := by rfl
theorem test_decode_pvRead : decode [0b0010#4 ++ 0b0010#4] = .ok (.pvRead, []) := by rfl
theorem test_decode_kdfDerive128 : decode [0b0011#4 ++ 0b0000#4] = .ok (.kdfDerive128, []) := by rfl
theorem test_decode_kdfDerive256 : decode [0b0011#4 ++ 0b0001#4] = .ok (.kdfDerive256, []) := by rfl
theorem test_decode_ctrInit : decode [0b0100#4 ++ 0b0000#4] = .ok (.ctrInit, []) := by rfl
theorem test_decode_ctrNext : decode [0b0100#4 ++ 0b0001#4] = .ok (.ctrNext, []) := by rfl
theorem test_decode_ctrXor : decode [0b0100#4 ++ 0b0010#4] = .ok (.ctrXor, []) := by rfl

/-- Reserved codes next to used ones (rules R80, R81), by name. -/
theorem test_decode_reserved :
    decode [0x00#8] = .error (.reservedOp 0 0) ∧ decode [0x03#8] = .error (.reservedOp 0 3) ∧
    decode [0x12#8] = .error (.reservedOp 1 2) ∧ decode [0x23#8] = .error (.reservedOp 2 3) ∧
    decode [0x32#8] = .error (.reservedOp 3 2) ∧ decode [0x43#8] = .error (.reservedOp 4 3) ∧
    decode [0x50#8] = .error (.reservedUnit 5) ∧ decode [0xff#8] = .error (.reservedUnit 15) ∧
    decode [] = .error .noByte :=
  ⟨rfl, rfl, rfl, rfl, rfl, rfl, rfl, rfl, rfl⟩

/-! ### WellFormed: an ill-formed term for each check, and a well-formed one beside it -/

theorem test_wellFormed_every_operation :
    [Instr.encrypt, .decrypt, .aesEnc128, .aesEnc256, .pvInit, .pvAbsorb, .pvRead, .kdfDerive128,
      .kdfDerive256, .ctrInit, .ctrNext, .ctrXor].all Instr.wellFormed = true := by decide

/-- Rule R92: a reserved CMD write. -/
theorem test_wellFormed_cmd :
    (HostMove.writeCmd 0x10#8).wellFormed = false ∧ (HostMove.writeCmd 0x00#8).wellFormed = false ∧
    (HostMove.writeCmd 0x02#8).wellFormed = true := by decide

/-- Rule R53: no write to OUTMEM or WORK, no read of WORK. -/
theorem test_wellFormed_no_such_access :
    (HostMove.writeBuf .outmem 0 [1#8]).wellFormed = false ∧
    (HostMove.writeBuf .work 0 [1#8]).wellFormed = false ∧
    (HostMove.readBuf .work 0 1).wellFormed = false ∧
    (HostMove.readBuf .outmem 0 1).wellFormed = true := by decide

/-- Rule R53: `addr + n` not above the size of the space, in unbounded integers. -/
theorem test_wellFormed_range :
    (HostMove.writeBuf .noncebuf 0 (zeros 13)).wellFormed = false ∧
    (HostMove.writeBuf .noncebuf 0 (zeros 12)).wellFormed = true ∧
    (HostMove.readBuf .keybuf 31 2).wellFormed = false ∧
    (HostMove.readBuf .keybuf 31 1).wellFormed = true ∧
    (HostMove.readBuf .inmem 0xffffffffffffffff#64 2).wellFormed = false := by decide

/-! ### State and memory -/

theorem test_reset_memory_wf : ∀ sp, Memory.wf sp (State.reset.mem sp) = true := by
  intro sp
  cases sp <;> rfl

/-- Writing the value an unlisted index of WORK reads as takes the entry out (canonical form). -/
theorem test_work_write_zero_removes :
    Memory.write .work 3 0 (Memory.write .work 3 7 []) = [] := by decide

/-- Indices are kept rising whatever the order of the writes; a second write replaces. -/
theorem test_memory_order :
    Memory.write .inmem 5 9 (Memory.write .inmem 2 0 (Memory.write .inmem 5 1 [])) =
      [(2, 0), (5, 9)] := by decide

/-- Rule R9: byte 0 is the least significant. -/
theorem test_byte_order : (block 0x00010203040506070809000000000080).getLsbD 127 = true ∧
    byteAt (block 0x00010203040506070809000000000080) 1 = 0x01#8 := by decide

/-! ### One small run of each operation, results from 95_test_vectors.md -/

/-- V5.12: bytes distinct everywhere, 3 bytes of AAD, a message of one block and one byte. -/
theorem test_encrypt_V5_12 :
    ends (exec .encrypt (setup 16 3 17 0x101112131415161718191a1b1c1d1e1f
      0xa0a1a2a3a4a5a6a7a8a9aaab 0x686472 0x68656c6c6f20776f726c642c2053495621)) =
    some (0x02#32, 33,
      hex 33 0x20eb990e63ae1323522d0f904c3402c88a603505729a28daad3b5ce5415b6f83d9) := by
  decide +kernel

/-- V5.30: the sum of the lengths is not taken modulo 2^64. -/
theorem test_encrypt_V5_30 :
    ends (exec .encrypt (lengths 16 12 (2 ^ 64 - 1) (2 ^ 64 - 1))) = some (0x36#32, 0, []) := by
  decide +kernel

/-- V5.11's output with its AAD, a 32-byte key and two keystream blocks: the round trip of P4. -/
theorem test_decrypt_P4 :
    ends (exec .decrypt (setup 32 18 36
      0x0100000000000000000000000000000000000000000000000000000000000000
      0x030000000000000000000000 0x010000000000000000000000000000000200
      0x43dd0163cdb48f9fe3212bf61b201976067f342bb879ad976d8242acc188ab59cabfe307)) =
    some (0x02#32, 20, hex 20 0x0300000000000000000000000000000004000000) := by
  decide +kernel

/-- V5.17: the one tag bit that the counter block forces is compared all the same. -/
theorem test_decrypt_V5_17 :
    ends (exec .decrypt (setup 16 0 24 0x01000000000000000000000000000000
      0x030000000000000000000000 0 0xb5d839330ac7b786578782fff6013b815b287c22493a36cc)) =
    some (0x56#32, 0, []) := by
  decide +kernel

/-- V2.4. -/
theorem test_aesEnc128_V2_4 :
    after State.aesOut (exec .aesEnc128 { State.reset with
      aesKey := bits 256 (hex 16 0x2b7e151628aed2a6abf7158809cf4f3c)
      aesIn := block 0x3243f6a8885a308d313198a2e0370734 }) =
    some (block 0x3925841d02dc09fbdc118597196a0b32) := by decide +kernel

/-- V2.10. -/
theorem test_aesEnc128_V2_10 :
    after State.aesOut (exec .aesEnc128 { State.reset with
      aesKey := BitVec.allOnes 256, aesIn := BitVec.allOnes 128 }) =
    some (block 0xbcbf217cb280cf30b2517052193ab979) := by decide +kernel

/-- V2.13. -/
theorem test_aesEnc256_V2_13 :
    after State.aesOut (exec .aesEnc256 { State.reset with
      aesKey := bits 256
        (hex 32 0xb914f4742be9e1d7a2f84addbf96dec3456e3c6c05ecc157cdbf0700fedad222)
      aesIn := block 0x03000000000000000000000000000000 }) =
    some (block 0x07f5f4169bbf55a8400cd47ea6fd400f) := by decide +kernel

/-- V2.10. -/
theorem test_aesEnc256_V2_10 :
    after State.aesOut (exec .aesEnc256 { State.reset with
      aesKey := BitVec.allOnes 256, aesIn := BitVec.allOnes 128 }) =
    some (block 0xd5f93d6d3311cb309f23621b02fbd5e2) := by decide +kernel

/-- V2.2 and V2.3: the last round keys of the two key expansions. -/
theorem test_expandKey_last_round_keys :
    roundKey (expandKey 4 (bits 256 (hex 16 0x2b7e151628aed2a6abf7158809cf4f3c))) 10 =
      block 0xd014f9a8c9ee2589e13f0cc8b6630ca6 ∧
    roundKey (expandKey 8 (bits 256
      (hex 32 0x603deb1015ca71be2b73aef0857d77811f352c073b6108d72d9810a30914dff4))) 14 =
      block 0xfe4890d1e6188d0b046df344706c631e := by decide +kernel

/-- V2.7: the four transformations of round 1. -/
theorem test_round_transformations_V2_7 :
    subBytes (block 0x00102030405060708090a0b0c0d0e0f0) = block 0x63cab7040953d051cd60e0e7ba70e18c ∧
    shiftRows (block 0x63cab7040953d051cd60e0e7ba70e18c) =
      block 0x6353e08c0960e104cd70b751bacad0e7 ∧
    mixColumns (block 0x6353e08c0960e104cd70b751bacad0e7) =
      block 0x5f72641557f5bc92f7be3b291db9f91a ∧
    addRoundKey (block 0x5f72641557f5bc92f7be3b291db9f91a)
      (block 0xd6aa74fdd2af72fadaa678f1d6ab76fe) = block 0x89d810e8855ace682d1843d8cb128fe4 := by
  decide +kernel

/-- V3.10: PV.INIT takes H from AUTHKEY and clears S. -/
theorem test_pvInit_V3_10 :
    after (fun t => (t.polyH, t.polyS)) (exec .pvInit { State.reset with
      authkey := block 0x25629347589242761d31f826ba4b757b, polyS := 1 }) =
    some (block 0x25629347589242761d31f826ba4b757b, 0) := by decide +kernel

/-- V3.10: the second block of the example. -/
theorem test_pvAbsorb_V3_10 :
    after State.polyS (exec .pvAbsorb { State.reset with
      polyH := block 0x25629347589242761d31f826ba4b757b
      polyS := block 0xcedac64537ff50989c16011551086d77
      pvIn := block 0xd1a24ddd2721d006bbe45f20d3c9f362 }) =
    some (block 0xf7a3b47b846119fae5b7866cf5e5b77e) := by decide +kernel

/-- V3.16. -/
theorem test_pvAbsorb_V3_16 :
    after State.polyS (exec .pvAbsorb { State.reset with
      polyH := BitVec.allOnes 128, pvIn := BitVec.allOnes 128 }) =
    some (block 0x5555555555555555555555555555017a) := by decide +kernel

/-- V3.10: PV.READ delivers S and keeps it. -/
theorem test_pvRead_V3_10 :
    after (fun t => (t.pvOut, t.polyS)) (exec .pvRead { State.reset with
      polyS := block 0xf7a3b47b846119fae5b7866cf5e5b77e }) =
    some (block 0xf7a3b47b846119fae5b7866cf5e5b77e, block 0xf7a3b47b846119fae5b7866cf5e5b77e) := by
  decide +kernel

/-- V3.5 and V3.7: `dot` is not the plain product, and 1 is not its identity. -/
theorem test_dot_V3_5_V3_7 :
    dot (block 0x0123456789abcdeffedcba9876543210) 1 = block 0x0770f89ff88f07de0770f89ff88f038e ∧
    dot (block 0x0123456789abcdeffedcba9876543210) (block 0x25629347589242761d31f826ba4b757b) =
      block 0x4d5a2c9c7bdd9fedaa9d98e330da073b ∧
    fmul (block 0x0123456789abcdeffedcba9876543210) (block 0x25629347589242761d31f826ba4b757b) =
      block 0x31b4cc9af685fd71dc371e67f740b580 := by decide +kernel

/-- V4.5: a nonce whose bytes are distinct. -/
theorem test_kdfDerive128_V4_5 :
    after (fun t => (t.authkey, t.enckey)) (exec .kdfDerive128
      (setup 16 0 0 0x101112131415161718191a1b1c1d1e1f 0xa0a1a2a3a4a5a6a7a8a9aaab 0 0)) =
    some (block 0x6de2eff4af66bb44ec8b1133c4b9f8ff,
      bits 256 (hex 16 0xbb05b9d872e9b0e9ddb0342b01f590cb)) := by decide +kernel

/-- V4.4: zero key, zero nonce. -/
theorem test_kdfDerive256_V4_4 :
    after (fun t => (t.authkey, t.enckey)) (exec .kdfDerive256 (setup 32 0 0 0 0 0 0)) =
    some (block 0xdc95c078a24089895275f3d86b4fb868, bits 256
      (hex 32 0x779b38d15bffb63d39d6e9ae76a9b2f375d11b0e3a68c422845c7d4690fa594f)) := by
  decide +kernel

/-- V4.11: bit 7 of byte 15 is set, the other bits stay. -/
theorem test_ctrInit_V4_11 :
    after State.cb (exec .ctrInit { State.reset with
      ctrSeed := block 0xfeffffff0102030405060708090a0b7f }) =
    some (block 0xfeffffff0102030405060708090a0bff) := by decide +kernel

/-- V4.10: the counter wraps and nothing carries into byte 4. -/
theorem test_ctrNext_V4_10 :
    after (fun t => (t.ks, t.cb)) (exec .ctrNext { State.reset with
      enckey := bits 256 (hex 16 0x4004a0dcd862f2a57360219d2d44ef6c)
      cb := block 0xffffffff000000000000000000000080 }) =
    some (block 0x80c80623ed16efaee796b428f06624a0, block 0x00000000000000000000000000000080) := by
  decide +kernel

/-- V4.12: KSZ = 1 selects AES.ENC256. -/
theorem test_ctrNext_V4_12 :
    after State.ks (exec .ctrNext { State.reset with
      ksz := true
      enckey := bits 256
        (hex 32 0xb914f4742be9e1d7a2f84addbf96dec3456e3c6c05ecc157cdbf0700fedad222)
      cb := block 0x000000000102030405060708090a0b8c }) =
    some (block 0xa7a9aa417ab746e3124c70c7365e96cd) := by decide +kernel

/-- V4.7: 8 bytes of data, the keystream bytes 8 to 15 discarded. -/
theorem test_ctrXor_V4_7 :
    after (fun t => bytesOf 8 t.ctrOut) (exec .ctrXor { State.reset with
      ks := block 0xb4d839330ac7b786a779523a099ca598, ctrIn := 1, ctrLen := 8 }) =
    some (hex 8 0xb5d839330ac7b786) := by decide +kernel

/-- V5.5: a whole block (r = 16). -/
theorem test_ctrXor_V5_5 :
    after State.ctrOut (exec .ctrXor { State.reset with
      ks := block 0x85e07e62ba83a6585417245d7ec413a9, ctrIn := 1, ctrLen := 16 }) =
    some (block 0x84e07e62ba83a6585417245d7ec413a9) := by decide +kernel

/-! ### The step -/

/-- What withFetchWord places from reset runs next: each table code gives a next state. -/
theorem test_fetched_word_runs :
    [0x01, 0x02, 0x10, 0x11, 0x20, 0x21, 0x22, 0x30, 0x31, 0x40, 0x41, 0x42].all
      (fun w => (after (fun _ => ()) (step (State.reset.withFetchWord 8 w))).isSome) = true := by
  decide +kernel

/-- P6's write: refused by name (log 4). -/
theorem test_reserved_cmd_refused :
    hostMove (.writeCmd 0x10#8) State.reset = .refused (.reservedCommand 0x10#8) := by rfl

/-- V5.34: the first check of DECRYPT comes first, taken through a CMD write and a step. -/
theorem test_step_V5_34 :
    ends (step { lengths 5 3 (2 ^ 40) 15 with pending := [.host (.writeCmd 0x02#8)] }) =
      some (0x46#32, 0, []) := by decide +kernel

/-! ### Witnesses: for each statement with hypotheses, a concrete input that meets all of them -/

/-- A state in the phase `p` whose STATUS is BUSY, on the direction `d`. -/
def inPhase (p : Phase) (d : Bool) : State :=
  { setup 16 1 24 0x01000000000000000000000000000000 0x030000000000000000000000 0x01
      0xb5d839330ac7b786578782fff6013b815b287c22493a364c with
    phase := p, dir := d, status := 0x01#32 }

/-- The descriptor of V5.2. -/
def sealInput : State :=
  setup 16 0 8 0x01000000000000000000000000000000 0x030000000000000000000000 0 0x0100000000000000

/-- The descriptor of V5.14. -/
def openInput : State :=
  setup 16 0 24 0x01000000000000000000000000000000 0x030000000000000000000000 0
    0xb5d839330ac7b786578782fff6013b815b287c22493a364c

/-- The descriptor of V5.15 (last tag byte 4d). -/
def openInputBad : State :=
  setup 16 0 24 0x01000000000000000000000000000000 0x030000000000000000000000 0
    0xb5d839330ac7b786578782fff6013b815b287c22493a364d

/-- The descriptor of V5.17 (bit 7 of the last tag byte flipped). -/
def openInputForced : State :=
  setup 16 0 24 0x01000000000000000000000000000000 0x030000000000000000000000 0
    0xb5d839330ac7b786578782fff6013b815b287c22493a36cc

theorem sealInput_runs : EncryptRuns sealInput :=
  ⟨by decide, by decide, by decide, by decide⟩

theorem openInput_runs : DecryptRuns openInput :=
  ⟨by decide, by decide, by decide, by decide, by decide⟩

theorem openInputForced_runs : DecryptRuns openInputForced :=
  ⟨by decide, by decide, by decide, by decide, by decide⟩

theorem witness_DecodeAndEncodeAgree :
    (Instr.ctrXor).wellFormed = true ∧ decodeCode 0x42#8 = .ok .ctrXor := ⟨rfl, rfl⟩

/-- The values next to the two codes. -/
theorem witness_CmdKnowsTwoCodesAndRefusesTheRest :
    State.reset.busy = false ∧ (0x00#8 ≠ 0x01#8 ∧ 0x00#8 ≠ 0x02#8) ∧
      (0x03#8 ≠ 0x01#8 ∧ 0x03#8 ≠ 0x02#8) := by decide

theorem witness_StepRunsTheDecodedOperation :
    ((inPhase .hash false).setPending [.unit 0x10#8]).pending = .unit 0x10#8 :: [] ∧
    decodeUnitCode 0x10#8 = some .aesEnc128 ∧
    (sealInput.setPending [.host (.writeCmd 0x01#8)]).pending = .host (.writeCmd 0x01#8) :: [] ∧
    (sealInput.setPending [.host (.writeCmd 0x01#8)]).phase = .idle ∧
    (sealInput.setPending [.host (.writeCmd 0x01#8)]).busy = false ∧
    decodeCmd 0x01#8 = some .encrypt := by decide

/-- The third clause: a buffer read in IDLE, and the reset event in the middle of a command. -/
theorem witness_StepRunsTheDecodedOperation_host :
    (sealInput.setPending [.host (.readBuf .inmem 0 8)]).pending = .host (.readBuf .inmem 0 8) :: [] ∧
    (sealInput.setPending [.host (.readBuf .inmem 0 8)]).phase = .idle ∧
    ((inPhase .hash true).setPending [.host .reset]).pending = .host .reset :: [] ∧
    HostMove.reset = .reset := by decide

theorem witness_FetchedWordRunsNext :
    hostIssuable .pvRead = false ∧ State.reset.phase = .idle ∧ State.reset.busy = false := by decide

theorem witness_OrchestratorStepsBeforeTheHost :
    (inPhase .init false).phase ≠ .idle ∧ HostMove.readCmd ≠ .reset ∧
    ((inPhase .init false).setPending [.host .readCmd]).pending = .host .readCmd :: [] ∧
    (inPhase .init false).pending = [] ∧ State.reset.phase = .idle ∧ State.reset.pending = [] := by
  decide

theorem witness_CommandEqualsItsPhaseSteps : sealInput.busy = false ∧ sealInput.pending = [] := by
  decide

/-- The reset event in the middle of a command. -/
theorem witness_ResetEventFromAnyState :
    ((inPhase .keystream true).setPending [.host .reset]).pending = .host .reset :: [] := by rfl

theorem setup_wf_sealInput : ∀ sp, Memory.wf sp (sealInput.mem sp) = true := by
  intro sp
  cases sp <;> decide

/-- An idle CORE about to run ENCRYPT, and one in the middle of a command. -/
theorem witness_EveryStepKeepsTheInvariant :
    Inv (sealInput.setPending [.host (.writeCmd 0x01#8)]) ∧
    (∃ t, step (sealInput.setPending [.host (.writeCmd 0x01#8)]) = .next t) ∧
    Inv (acceptCommand true sealInput) ∧ ∃ t, step (acceptCommand true sealInput) = .next t := by
  refine ⟨⟨setup_wf_sealInput, by decide, by decide, by decide, by decide⟩, ⟨_, rfl⟩,
    ⟨setup_wf_sealInput, by decide, by decide, by decide, by decide⟩, ⟨_, step_of_nil rfl⟩⟩

theorem witness_IdleStaysCleanAtEveryStep :
    CleanWhenIdle (sealInput.setPending [.host (.writeCmd 0x01#8)]) ∧
      ∃ t, step (sealInput.setPending [.host (.writeCmd 0x01#8)]) = .next t := by
  refine ⟨⟨?_, fun _ => rfl⟩, ⟨_, rfl⟩⟩
  intro i hi
  exact ⟨.writeCmd 0x01#8, by simpa using hi⟩

theorem witness_LengthRegistersReadBackUnchanged : sealInput.busy = false := by decide

theorem witness_StatusAndOutlenAreReadOnly : { sealInput with status := 0x56#32 }.busy = false := by
  decide

/-- An access that ends exactly at the end of its space, and one byte more. -/
theorem witness_HostBufferAccess :
    State.reset.busy = false ∧ Space.keybuf ≠ .outmem ∧ Space.keybuf ≠ .work ∧
    (16#64).toNat + (zeros 16).length ≤ Config.spaceSize .keybuf ∧
    Config.spaceSize .keybuf < (17#64).toNat + (zeros 16).length ∧
    Space.outmem ≠ .work ∧ (0xffffffffffffffff#64).toNat + 1 ≤ Config.spaceSize .outmem ∧
    Config.spaceSize .outmem < (0xffffffffffffffff#64).toNat + 2 ∧
    (inPhase .hash true).busy = true := by decide

theorem witness_HostAccessWhileBusyIsRefused :
    (inPhase .hash true).busy = true ∧ HostMove.readCmd ≠ .reset := by decide

/-- Two keys that differ in their upper halves only. -/
theorem witness_AesEnc128EncryptsOneBlock :
    ∀ j, j < 16 → byteAt (0 : KeyBits) j = byteAt (BitVec.twoPow 256 128) j := by decide

theorem witness_SboxIsInverseThenAffineMap : (0x00#8 = 0) ∧ (0xff#8 ≠ 0) ∧ 0 < 8 ∧ 7 < 8 := by decide

theorem witness_RoundTransformationsByteByByte : (0 < 16 ∧ 15 < 16) ∧ (0 < 4 ∧ 3 < 4) := by decide

/-- Both key sizes, with the words at the ends of the ranges: the last word of the key, the first and the last
computed word, and each of the three cases of the recurrence. -/
theorem witness_KeyExpansionRecurrence :
    ((4 = 4 ∨ 4 = 8) ∧ 3 < 4 ∧ 4 ≤ 43 ∧ 43 < 4 * (4 + 6 + 1) ∧ 40 % 4 = 0) ∧
    ((8 = 4 ∨ 8 = 8) ∧ 7 < 8 ∧ 8 ≤ 59 ∧ 59 < 4 * (8 + 6 + 1) ∧ 12 % 8 = 4 ∧ 9 % 8 ≠ 0) := by decide

theorem witness_CipherRoundStructure : 1 ≤ 10 ∧ 1 ≤ 9 ∧ 9 < 10 := by decide

/-- Each case of each direction (V3.4). -/
theorem witness_MulxAndDivxAreInverse :
    (1#128).getLsbD 127 = false ∧ (BitVec.twoPow 128 127).getLsbD 127 = true ∧
    (2#128).getLsbD 0 = false ∧ (1#128).getLsbD 0 = true := by decide

theorem witness_PvInitLoadsHAndClearsS :
    { State.reset with polyS := 1, pvIn := 1 }.polyH = 0 := by rfl

theorem witness_PvAbsorbMultipliesIntoS :
    { State.reset with polyH := 1 }.pvIn = 0 ∧ { State.reset with polyH := 1 }.polyS = 0 := ⟨rfl, rfl⟩

theorem witness_PvReadDeliversS :
    ∃ t u, exec .pvInit { State.reset with authkey := 1, polyS := 1 } = .next t ∧
      exec .pvRead t = .next u := ⟨_, _, rfl, rfl⟩

/-- 1 byte of AAD and 17 of message: one block of AAD, two of message, the last one short. -/
theorem witness_HashAbsorbsTheInputBlocks :
    ({ inPhase .hash false with lAad := 1, lMsg := 17 } : State).phase = .hash ∧
    (0 < (1 + 15) / 16 ∧ 15 < 16) ∧ (1 < (17 + 15) / 16 ∧ 16 * 1 + 0 < 17) ∧ ¬16 * 1 + 1 < 17 :=
  ⟨rfl, by decide, by decide, by decide⟩

theorem witness_DataBlockLayouts :
    (hex 12 0xa0a1a2a3a4a5a6a7a8a9aaab).length = 12 ∧ 5 ≤ 5 ∧ (1 ≤ 3 ∧ 3 < 4) ∧ 11 < 12 ∧
    Config.maxInputBytes < 2 ^ 61 ∧ (12 ≤ 14 ∧ 14 < 15) := by decide

theorem witness_KdfDerive128FormsBothKeys :
    sealInput.memRead .keybuf 0 16 = [1, 0, 0, 0, 0, 0, 0, 0, 0, 0, 0, 0, 0, 0, 0, 0] ∧
    sealInput.memRead .noncebuf 0 12 = [3, 0, 0, 0, 0, 0, 0, 0, 0, 0, 0, 0] ∧ 15 < 16 ∧
    (16 ≤ 31 ∧ 31 < 32) := ⟨by rfl, by rfl, by decide, by decide⟩

theorem witness_KdfDerive256FormsBothKeys :
    (setup 32 0 0 0x0100000000000000000000000000000000000000000000000000000000000000
        0x030000000000000000000000 0 0).memRead .keybuf 0 32 =
      [1, 0, 0, 0, 0, 0, 0, 0, 0, 0, 0, 0, 0, 0, 0, 0,
        0, 0, 0, 0, 0, 0, 0, 0, 0, 0, 0, 0, 0, 0, 0, 0] ∧
    (setup 32 0 0 0x0100000000000000000000000000000000000000000000000000000000000000
        0x030000000000000000000000 0 0).memRead .noncebuf 0 12 =
      [3, 0, 0, 0, 0, 0, 0, 0, 0, 0, 0, 0] := ⟨by rfl, by rfl⟩

theorem witness_CtrInitSetsTheTopBit :
    (byteAt ({ State.reset with ctrSeed := BitVec.allOnes 128 } : State).ctrSeed 15).getLsbD 7 = true ∧
      14 < 15 := by decide

theorem witness_CtrNextEncryptsAndAdvances :
    ∃ s : State, s.ksz = false ∧
      s.enckey = bits 256 [0x40, 0x04, 0xa0, 0xdc, 0xd8, 0x62, 0xf2, 0xa5,
        0x73, 0x60, 0x21, 0x9d, 0x2d, 0x44, 0xef, 0x6c] ∧
      s.cb = bits 128 [0x57, 0x87, 0x82, 0xff, 0xf6, 0x01, 0x3b, 0x81,
        0x5b, 0x28, 0x7c, 0x22, 0x49, 0x3a, 0x36, 0xcc] :=
  ⟨{ State.reset with
      enckey := bits 256 [0x40, 0x04, 0xa0, 0xdc, 0xd8, 0x62, 0xf2, 0xa5,
        0x73, 0x60, 0x21, 0x9d, 0x2d, 0x44, 0xef, 0x6c]
      cb := bits 128 [0x57, 0x87, 0x82, 0xff, 0xf6, 0x01, 0x3b, 0x81,
        0x5b, 0x28, 0x7c, 0x22, 0x49, 0x3a, 0x36, 0xcc] }, rfl, rfl, rfl⟩

/-- A request of 8 bytes has both kinds of index; r = 16 has no byte beyond, r = 0 only those. -/
theorem witness_CtrXorAppliesTheKeystream :
    7 < ({ State.reset with ctrLen := 8 } : State).ctrLen.val ∧
    ({ State.reset with ctrLen := 8 } : State).ctrLen.val ≤ 8 ∧
    15 < ({ State.reset with ctrLen := 16 } : State).ctrLen.val ∧
    State.reset.ctrLen.val ≤ 0 := by decide

theorem witness_CounterBlockOfEveryIndex : (4 ≤ 4 ∧ 4 < 15) ∧ (4 ≤ 14 ∧ 14 < 15) := by decide

/-- The longest admissible message and its last two counter blocks. -/
theorem witness_CounterBlocksNeverRepeatInACommand :
    Config.maxInputBytes ≤ Config.maxInputBytes ∧ 4294967293 < 4294967294 ∧
      4294967294 < blockCount Config.maxInputBytes := by decide

/-- Each phase occurs. -/
theorem witness_PhaseSuccessors :
    State.reset.phase = .idle ∧ (inPhase .init true).phase = .init ∧
    (inPhase .hash true).phase = .hash ∧ (inPhase .deriveTag true).phase = .deriveTag ∧
    (inPhase .keystream true).phase = .keystream ∧ (inPhase .finalize true).phase = .finalize :=
  ⟨rfl, rfl, rfl, rfl, rfl, rfl⟩

theorem witness_PhaseOrderOfEachCommand : EncryptRuns sealInput ∧ DecryptRuns openInput :=
  ⟨sealInput_runs, openInput_runs⟩

/-- Each branch of INIT: a DECRYPT of 15 bytes and one of 16, a wrong nonce, a wrong key, one byte too many, and
the longest input that passes. -/
theorem witness_InitChecksThenLatchesAndDerives :
    (∀ s, s ∈ [{ lengths 5 3 0 15 with phase := .init, dir := true },
        { lengths 5 3 0 16 with phase := .init, dir := true },
        { lengths 31 12 0 16 with phase := .init, dir := true },
        { lengths 16 12 Config.maxInputBytes 1 with phase := .init },
        { lengths 32 12 (Config.maxInputBytes - 1) 1 with phase := .init }] →
      s.phase = .init) ∧
    15 < 16 ∧ 16 ≤ 16 ∧ (lengths 5 3 0 16).noncelen.toNat ≠ 12 ∧
    (lengths 31 12 0 16).noncelen.toNat = 12 ∧ (lengths 31 12 0 16).keylen.toNat ≠ 16 ∧
    (lengths 31 12 0 16).keylen.toNat ≠ 32 ∧
    Config.maxInputBytes < (lengths 16 12 Config.maxInputBytes 1).msglen.toNat +
      (lengths 16 12 Config.maxInputBytes 1).aadlen.toNat ∧
    (lengths 32 12 (Config.maxInputBytes - 1) 1).msglen.toNat +
      (lengths 32 12 (Config.maxInputBytes - 1) 1).aadlen.toNat ≤ Config.maxInputBytes := by
  refine ⟨?_, by decide, by decide, by decide, by decide, by decide, by decide, by decide,
    by decide⟩
  intro s hs
  simp only [List.mem_cons, List.not_mem_nil, or_false] at hs
  rcases hs with rfl | rfl | rfl | rfl | rfl <;> rfl

/-- ENCRYPT, and DECRYPT with the right and with a wrong received tag (V5.14, V5.15). -/
theorem witness_DeriveTagEncryptsTheTagInput :
    (inPhase .deriveTag false).phase = .deriveTag ∧ (inPhase .deriveTag false).dir = false ∧
    ∃ s : State, s.phase = .deriveTag ∧ s.dir = true ∧
      aesEnc128 s.enckey (tagInput s.polyS (s.memRead .noncebuf 0 12)) = s.rtag ∧
      aesEnc128 s.enckey (tagInput s.polyS (s.memRead .noncebuf 0 12)) ≠ s.rtag ^^^ 1 :=
  ⟨rfl, rfl, { inPhase .deriveTag true with
    enckey := bits 256 (hex 16 0x4004a0dcd862f2a57360219d2d44ef6c)
    polyS := block 0xeb93b7740962c5e49d2a90a7dc5cec74
    rtag := block 0x578782fff6013b815b287c22493a364c }, rfl, rfl, by decide +kernel, by decide +kernel⟩

/-- Both directions, an empty message and one of a block and one byte: an index on each side of L_MSG. -/
theorem witness_KeystreamPhaseWritesWork :
    (inPhase .keystream false).phase = .keystream ∧ (inPhase .keystream true).phase = .keystream ∧
    (inPhase .keystream true).rtag =
      (if (inPhase .keystream true).dir then (inPhase .keystream true).rtag
        else (inPhase .keystream true).tag) ∧
    (inPhase .keystream false).lMsg = 0 ∧ 0 ≤ 0 ∧
    16 < ({ inPhase .keystream true with lMsg := 17 } : State).lMsg.toNat ∧
    ({ inPhase .keystream true with lMsg := 17 } : State).lMsg.toNat ≤ 17 := by decide

theorem witness_FinalizeReleasesOrWithholds :
    (inPhase .finalize false).phase = .finalize ∧ (inPhase .finalize false).errl = 0 ∧
    (inPhase .finalize false).dir = false ∧ (inPhase .finalize true).errl = 0 ∧
    (inPhase .finalize true).dir = true ∧ (raise .authenticationFailure State.reset).errl ≠ 0 ∧
    (raise .authenticationFailure State.reset).phase = .finalize := by decide

/-- V5.2's descriptor, and the lengths of V5.25, V5.24 and V5.28. -/
theorem witness_EncryptIsTheSealFunction :
    EncryptRuns sealInput ∧ sealInput.keylen = 16 ∧ sealInput.aadlen = 0 ∧ sealInput.msglen = 8 ∧
    sealInput.memRead .keybuf 0 16 = [1, 0, 0, 0, 0, 0, 0, 0, 0, 0, 0, 0, 0, 0, 0, 0] ∧
    sealInput.memRead .noncebuf 0 12 = [3, 0, 0, 0, 0, 0, 0, 0, 0, 0, 0, 0] ∧
    sealInput.memRead .inmem 0 8 = [1, 0, 0, 0, 0, 0, 0, 0] ∧
    ((lengths 16 11 0 0).busy = false ∧ (lengths 16 11 0 0).noncelen.toNat ≠ 12) ∧
    ((lengths 0 12 0 0).noncelen.toNat = 12 ∧ (lengths 0 12 0 0).keylen.toNat ≠ 16 ∧
      (lengths 0 12 0 0).keylen.toNat ≠ 32) ∧
    Config.maxInputBytes < (lengths 16 12 0 (Config.maxInputBytes + 1)).msglen.toNat +
      (lengths 16 12 0 (Config.maxInputBytes + 1)).aadlen.toNat :=
  ⟨sealInput_runs, by rfl, by rfl, by rfl, by rfl, by rfl, by rfl, by decide, by decide, by decide⟩

/-- V5.14's and V5.15's descriptors, and the lengths of V5.32, V5.35, V5.36 and V5.37. -/
theorem witness_DecryptIsTheOpenFunction :
    DecryptRuns openInput ∧ openInput.keylen = 16 ∧ openInput.aadlen = 0 ∧ openInput.msglen = 24 ∧
    openInput.memRead .keybuf 0 16 = [1, 0, 0, 0, 0, 0, 0, 0, 0, 0, 0, 0, 0, 0, 0, 0] ∧
    openInput.memRead .noncebuf 0 12 = [3, 0, 0, 0, 0, 0, 0, 0, 0, 0, 0, 0] ∧
    openInput.memRead .inmem 0 23 = [0xb5, 0xd8, 0x39, 0x33, 0x0a, 0xc7, 0xb7, 0x86,
        0x57, 0x87, 0x82, 0xff, 0xf6, 0x01, 0x3b, 0x81,
        0x5b, 0x28, 0x7c, 0x22, 0x49, 0x3a, 0x36] ∧
    openInput.peek .inmem 23 = 0x4c ∧
    openInputBad.memRead .inmem 0 23 = openInput.memRead .inmem 0 23 ∧
    openInputBad.peek .inmem 23 = 0x4d ∧
    (lengths 16 12 0 15).msglen.toNat < 16 ∧
    (16 ≤ (lengths 5 3 0 16).msglen.toNat ∧ (lengths 5 3 0 16).noncelen.toNat ≠ 12) ∧
    ((lengths 31 12 0 40).keylen.toNat ≠ 16 ∧ (lengths 31 12 0 40).keylen.toNat ≠ 32) ∧
    Config.maxInputBytes < (lengths 16 12 0 (Config.maxInputBytes + 17)).msglen.toNat - 16 +
      (lengths 16 12 0 (Config.maxInputBytes + 17)).aadlen.toNat :=
  ⟨openInput_runs, by rfl, by rfl, by rfl, by rfl, by rfl, by rfl, by rfl, by rfl, by rfl, by decide,
    by decide, by decide, by decide⟩

theorem witness_OutlenAndStatusAfterACommand :
    sealInput.busy = false ∧ (lengths 0 0 0 0).busy = false := by decide

/-- V5.24 and V5.32. -/
theorem witness_FailedCommandReleasesNothing :
    (after (fun t => statusError t.status) (exec .encrypt (lengths 0 12 0 0)) = some true) ∧
    (after (fun t => statusError t.status) (exec .decrypt (lengths 16 12 0 15)) = some true) := by
  decide +kernel

theorem witness_EveryCommandZeroizes :
    sealInput.busy = false ∧ (Instr.decrypt = .encrypt ∨ Instr.decrypt = .decrypt) := by decide

/-- V5.2 into V5.14: the decrypting CORE holds the bytes that ENCRYPT left in OUTMEM. -/
theorem witness_DecryptOfEncryptReturnsThePlaintext :
    EncryptRuns sealInput ∧ openInput.busy = false ∧ openInput.keylen = sealInput.keylen ∧
    openInput.noncelen = sealInput.noncelen ∧ openInput.aadlen = sealInput.aadlen ∧
    openInput.memRead .keybuf 0 16 = sealInput.memRead .keybuf 0 16 ∧
    openInput.memRead .noncebuf 0 12 = sealInput.memRead .noncebuf 0 12 ∧
    after (fun t => (t.outlen, t.memRead .outmem 0 t.outlen.toNat)) (exec .encrypt sealInput) =
      some (openInput.msglen, openInput.memRead .inmem 0 24) :=
  ⟨sealInput_runs, by rfl, by rfl, by rfl, by rfl, by rfl, by rfl, by decide +kernel⟩

/-- V5.14 and V5.17. -/
theorem witness_ForcedTagBitIsStillCompared :
    DecryptRuns openInput ∧ DecryptRuns openInputForced ∧
    openInputForced.keylen = openInput.keylen ∧ openInputForced.aadlen = openInput.aadlen ∧
    openInputForced.msglen = openInput.msglen ∧
    openInputForced.memRead .keybuf 0 16 = openInput.memRead .keybuf 0 16 ∧
    openInputForced.memRead .noncebuf 0 12 = openInput.memRead .noncebuf 0 12 ∧
    openInputForced.memRead .inmem 0 23 = openInput.memRead .inmem 0 23 ∧
    openInputForced.peek .inmem 23 = openInput.peek .inmem 23 ^^^ 0x80#8 ∧
    after State.status (exec .decrypt openInput) = some 0x02#32 ∧
    (after State.status (exec .decrypt openInputForced)).isSome = true :=
  ⟨openInput_runs, openInputForced_runs, by rfl, by rfl, by rfl, by rfl, by rfl, by rfl, by rfl,
    by decide +kernel, by decide +kernel⟩

/-- Two CORE instances that differ in what the command may not read: a byte of INMEM beyond MSGLEN, the old
OUTMEM and OUTLEN, and the internal keys. -/
theorem witness_CommandReadsOnlyItsInputs :
    sealInput.busy = false ∧
    ∃ u : State, u = { (sealInput.memWrite .inmem 8 [0xff]).memWrite .outmem 0 [1, 2, 3] with
        outlen := 3, authkey := 1 } ∧
      u.busy = false ∧ u.keylen = sealInput.keylen ∧ u.noncelen = sealInput.noncelen ∧
      u.aadlen = sealInput.aadlen ∧ u.msglen = sealInput.msglen ∧
      u.memRead .keybuf 0 16 = sealInput.memRead .keybuf 0 16 ∧
      u.memRead .noncebuf 0 12 = sealInput.memRead .noncebuf 0 12 ∧
      u.memRead .aadmem 0 0 = sealInput.memRead .aadmem 0 0 ∧
      u.memRead .inmem 0 8 = sealInput.memRead .inmem 0 8 ∧ u ≠ sealInput :=
  ⟨by rfl, _, rfl, by rfl, by rfl, by rfl, by rfl, by rfl, by rfl, by rfl, by rfl, by rfl,
    fun h => absurd (congrArg State.authkey h) (by decide)⟩

/-- Two idle CORE instances with different secrets inside, both of which step. -/
theorem witness_IdleStepsHideTheInternalState :
    ∃ s u : State, s.phase = .idle ∧ u.phase = .idle ∧ s.hostView = u.hostView ∧ s ≠ u ∧
      (∃ s', step s = .next s') ∧ ∃ u', step u = .next u' :=
  ⟨{ sealInput with enckey := 1, work := [(0, 7)] }, { sealInput with enckey := 2, tag := 5 }, rfl, rfl,
    rfl, fun h => absurd (congrArg State.enckey h) (by decide), ⟨_, step_of_nil rfl⟩,
    ⟨_, step_of_nil rfl⟩⟩

theorem witness_InputsAreNeverWritten : ∃ t, exec .kdfDerive128 sealInput = .next t := ⟨_, rfl⟩

theorem witness_CommandFrame :
    (Instr.encrypt = .encrypt ∨ Instr.encrypt = .decrypt) ∧
      (after (fun _ => ()) (exec .encrypt sealInput)).isSome = true := by decide +kernel

theorem witness_UnitOperationFrame :
    hostIssuable .aesEnc128 = false ∧ hostIssuable .ctrXor = false := by decide

end Sys2Proof.Tests
end

section
/-! PROOFS of the statements of 00_scope.md. The two commands as functions of their inputs (the latches carried from
INIT to FINALIZE, then one equation per command); from it, that nothing internal reaches the host through a step
of an idle CORE; and which agent steps. -/

namespace Sys2Proof.Machine

/-! ### The latches of a command under way -/

/-- What holds of `t` from INIT to FINALIZE of a command that `s` accepted and INIT raised nothing on: the latches and
the two keys are those of the inputs in `s`, and beyond the internal registers and WORK nothing has changed. It
does not name PHASE, so it serves both orders of the phases. -/
structure Latched (d : Bool) (s t : State) : Prop where
  outside : ∀ n v, endCommand n v t = endCommand n v s
  dir : t.dir = d
  errl : t.errl = 0
  ksz : t.ksz = s.keyIs32
  lAad : t.lAad = s.aadlen
  lMsg : t.lMsg = BitVec.ofNat 64 (bodyLength (acceptCommand d s))
  authkey : t.authkey = deriveAuthKey s.keyIs32 s.inputKey (nonceOperand s)
  enckey : t.enckey = deriveEncKey s.keyIs32 s.inputKey (nonceOperand s)

theorem latched_initPhase {d : Bool} {s : State} (h : initError (acceptCommand d s) = none) :
    Latched d s (initPhase (acceptCommand d s)) := by
  rw [initPhase_ok h, keyIs32_acceptCommand, inputKey_acceptCommand, nonceOperand_acceptCommand]
  exact ⟨fun _ _ => rfl, rfl, rfl, rfl, rfl, rfl, rfl, rfl⟩

namespace Latched

variable {d : Bool} {s t : State}

theorem after_keystreamPhase (h : Latched d s t) : Latched d s (keystreamPhase t) := by
  obtain ⟨k, c, m, e⟩ := keystreamPhase_shape t
  rw [e]
  exact ⟨h.outside, h.dir, h.errl, h.ksz, h.lAad, h.lMsg, h.authkey, h.enckey⟩

theorem after_hashPhase (h : Latched d s t) : Latched d s (hashPhase t) := by
  rw [hashPhase_eq]
  exact ⟨h.outside, h.dir, h.errl, h.ksz, h.lAad, h.lMsg, h.authkey, h.enckey⟩

theorem setTag_setPhase (h : Latched d s t) (v : Block) (p : Phase) :
    Latched d s ((t.setTag v).setPhase p) :=
  ⟨h.outside, h.dir, h.errl, h.ksz, h.lAad, h.lMsg, h.authkey, h.enckey⟩

theorem memRead_eq (h : Latched d s t) (sp : Space) (p n : Nat) (hsp : sp ≠ .work) :
    t.memRead sp p n = s.memRead sp p n := by
  rw [← memRead_endCommand 0 0 t sp p n hsp, h.outside, memRead_endCommand 0 0 s sp p n hsp]

theorem nonceOperand_eq (h : Latched d s t) : nonceOperand t = nonceOperand s := by
  unfold nonceOperand
  exact h.memRead_eq .noncebuf 0 12 (by decide)

end Latched

/-! ### The order of the phases -/

theorem initPhase_phase {s : State} (h : initError s = none) :
    (initPhase s).phase = if s.dir then .keystream else .hash := by
  rw [initPhase_ok h]
  rfl

theorem hashPhase_phase (s : State) : (hashPhase s).phase = .deriveTag := rfl

theorem keystreamPhase_phase (s : State) :
    (keystreamPhase s).phase = if s.dir then .hash else .finalize := rfl

theorem deriveTagPhase_phase_decrypt {s : State} (h : s.dir = true) :
    (deriveTagPhase s).phase = .finalize := by
  rw [deriveTagPhase_decrypt h]
  split <;> rfl

/-- The order of an ENCRYPT that INIT raises nothing on (rule R231). -/
theorem runCommand_encrypt_phases {s : State} (h : initError (acceptCommand false s) = none) :
    runCommand false s =
      finalizePhase (keystreamPhase (deriveTagPhase (hashPhase (initPhase (acceptCommand false s))))) := by
  have hi := initPhase_phase h
  have hd := (latched_initPhase h).after_hashPhase.dir
  have hk : (keystreamPhase (deriveTagPhase (hashPhase (initPhase (acceptCommand false s))))).phase
      = .finalize := by
    rw [keystreamPhase_phase, deriveTagPhase_encrypt hd, setPhase_dir, setTag_dir, hd]
    rfl
  have ht : (deriveTagPhase (hashPhase (initPhase (acceptCommand false s)))).phase
      = .keystream := by
    rw [deriveTagPhase_encrypt hd, setPhase_phase]
  unfold runCommand
  simp only [runPhases, phaseStep_init (acceptCommand_phase ..), phaseStep_hash hi,
    phaseStep_deriveTag (hashPhase_phase _), phaseStep_keystream ht, phaseStep_finalize hk]

/-- The order of a DECRYPT that INIT raises nothing on: KEYSTREAM comes before HASH (rule R231). -/
theorem runCommand_decrypt_phases {s : State} (h : initError (acceptCommand true s) = none) :
    runCommand true s =
      finalizePhase (deriveTagPhase (hashPhase (keystreamPhase (initPhase (acceptCommand true s))))) := by
  have hi := initPhase_phase h
  have hl := latched_initPhase h
  have hk : (keystreamPhase (initPhase (acceptCommand true s))).phase = .hash := by
    rw [keystreamPhase_phase, hl.dir]
    rfl
  unfold runCommand
  simp only [runPhases, phaseStep_init (acceptCommand_phase ..), phaseStep_keystream hi,
    phaseStep_hash hk, phaseStep_deriveTag (hashPhase_phase _),
    phaseStep_finalize (deriveTagPhase_phase_decrypt hl.after_keystreamPhase.after_hashPhase.dir)]

/-! ### Reading part of a string -/

theorem memRead_split {k n : Nat} (sp : Space) (s : State) (h : k ≤ n) :
    s.memRead sp 0 n = s.memRead sp 0 k ++ s.memRead sp k (n - k) := by
  have e := memRead_append sp 0 k (n - k) s
  rwa [Nat.add_sub_cancel' h, Nat.zero_add] at e

theorem take_memRead {k n : Nat} (sp : Space) (s : State) (h : k ≤ n) :
    (s.memRead sp 0 n).take k = s.memRead sp 0 k := by
  rw [memRead_split sp s h, List.take_left' (length_memRead ..)]

theorem drop_memRead {k n : Nat} (sp : Space) (s : State) (h : k ≤ n) :
    (s.memRead sp 0 n).drop k = s.memRead sp k (n - k) := by
  rw [memRead_split sp s h, List.drop_left' (length_memRead ..)]

/-! ### What the phases compute from the latches -/

theorem keystreamPhase_tag (s : State) : (keystreamPhase s).tag = s.tag := by
  obtain ⟨k, c, m, h⟩ := keystreamPhase_shape s
  rw [h, setPhase_tag, setMem_tag, setCtr_tag]

theorem keystreamPhase_rtag (s : State) : (keystreamPhase s).rtag = s.rtag := by
  obtain ⟨k, c, m, h⟩ := keystreamPhase_shape s
  rw [h, setPhase_rtag, setMem_rtag, setCtr_rtag]

theorem hashPhase_rtag (s : State) : (hashPhase s).rtag = s.rtag := by
  rw [hashPhase_eq]
  rfl

theorem memRead_hashPhase (s : State) (sp : Space) (p n : Nat) :
    (hashPhase s).memRead sp p n = s.memRead sp p n := by
  rw [hashPhase_eq, memRead_setPhase, memRead_setPolyS, memRead_pvInit]

namespace Latched

variable {d : Bool} {s t : State}

/-- The latched message length is the number the size check let through (rule R226). -/
theorem lMsg_toNat (h : Latched d s t) (hi : initError (acceptCommand d s) = none) :
    t.lMsg.toNat = bodyLength (acceptCommand d s) := by
  have hb := bodyLength_le hi
  have hm : Config.maxInputBytes < 2 ^ 64 := by decide
  rw [h.lMsg, BitVec.toNat_ofNat, Nat.mod_eq_of_lt (by omega)]

/-- The tag DERIVE_TAG computes after HASH, from the message in the space HASH reads (rules R232, R240). -/
theorem tagOf_hashPhase (h : Latched d s t) :
    tagOf (hashPhase t) = messageTag s.keyIs32 s.inputKey (nonceOperand s)
      (t.memRead (messageSpace t) 0 t.lMsg.toNat) s.inputAad := by
  have hS : (hashPhase t).polyS = polyval t.authkey
      (paddedBlocks (t.memRead .aadmem 0 t.lAad.toNat)
        ++ paddedBlocks (t.memRead (messageSpace t) 0 t.lMsg.toNat)
        ++ [lengthBlock t.lAad.toNat t.lMsg.toNat]) := by
    rw [hashPhase_eq]
    rfl
  unfold tagOf messageTag State.inputAad
  rw [hS, h.after_hashPhase.ksz, h.after_hashPhase.enckey, h.after_hashPhase.nonceOperand_eq,
    h.authkey, h.lAad, h.memRead_eq .aadmem _ _ (by decide), length_memRead, length_memRead]

/-- What KEYSTREAM leaves in WORK (rule R244). -/
theorem memRead_keystreamPhase (h : Latched d s t) :
    (keystreamPhase t).memRead .work 0 t.lMsg.toNat =
      applyKeystream s.keyIs32 (deriveEncKey s.keyIs32 s.inputKey (nonceOperand s))
        (if d then t.rtag else t.tag) (s.memRead .inmem 0 t.lMsg.toNat) := by
  rw [Machine.memRead_keystreamPhase, h.ksz, h.enckey, h.dir, h.memRead_eq .inmem _ _ (by decide)]

/-- What FINALIZE makes of an ENCRYPT (rule R250). -/
theorem finalizePhase_encrypt (h : Latched false s t) :
    finalizePhase t = endCommand (t.lMsg + 16) statusSuccess
      (s.memWrite .outmem 0 (t.memRead .work 0 t.lMsg.toNat ++ bytes16 t.tag)) := by
  rw [finalizePhase_success h.errl, if_neg (by simp [h.dir]), memWrite_append, length_memRead,
    Nat.zero_add]
  simp only [endCommand_memWrite_outmem, h.outside]

/-- What FINALIZE makes of a DECRYPT whose tag was accepted (rule R250). -/
theorem finalizePhase_decrypt (h : Latched true s t) :
    finalizePhase t = endCommand t.lMsg statusSuccess
      (s.memWrite .outmem 0 (t.memRead .work 0 t.lMsg.toNat)) := by
  rw [finalizePhase_success h.errl, if_pos h.dir, endCommand_memWrite_outmem,
    endCommand_memWrite_outmem, h.outside]

end Latched

/-! ### The two commands as functions of their inputs -/

/-- ENCRYPT when INIT raises nothing (rule R251). -/
theorem runCommand_encrypt {s : State} (hi : initError (acceptCommand false s) = none) :
    runCommand false s = endCommand (s.msglen + 16) statusSuccess (s.memWrite .outmem 0
      (sealMessage s.keyIs32 s.inputKey (nonceOperand s) s.inputMsg s.inputAad)) := by
  have hl := latched_initPhase hi
  have hL : ∀ t, Latched false s t → t.lMsg = s.msglen := fun t h =>
    h.lMsg.trans (BitVec.ofNat_toNat ..)
  rw [runCommand_encrypt_phases hi, deriveTagPhase_encrypt hl.after_hashPhase.dir]
  generalize initPhase (acceptCommand false s) = t at hl
  have htag : tagOf (hashPhase t) = messageTag s.keyIs32 s.inputKey (nonceOperand s)
      s.inputMsg s.inputAad := by
    rw [hl.tagOf_hashPhase, messageSpace, hl.dir, hl.memRead_eq _ _ _ (by decide), hL t hl]
    rfl
  have hk := hl.after_hashPhase.setTag_setPhase (tagOf (hashPhase t)) .keystream
  have hw := hk.memRead_keystreamPhase
  rw [hL _ hk] at hw
  rw [hk.after_keystreamPhase.finalizePhase_encrypt, hL _ hk.after_keystreamPhase, hw,
    keystreamPhase_tag, setPhase_tag, setTag_tag, htag]
  rfl

/-- An input that passes INIT on DECRYPT holds a tag (rule R224). -/
theorem tag_le_msglen {s : State} (hi : initError (acceptCommand true s) = none) :
    16 ≤ s.msglen.toNat := by
  by_contra hlt
  rw [initError_acceptCommand, if_pos (by simpa using hlt)] at hi
  cases hi

theorem ofNat_bodyLength_decrypt {s : State} (hi : initError (acceptCommand true s) = none) :
    BitVec.ofNat 64 (bodyLength (acceptCommand true s)) = s.msglen - 16 := by
  have h16 := tag_le_msglen hi
  rw [bodyLength_acceptCommand, if_pos rfl]
  bv_omega

/-- The tag INIT latches on DECRYPT (rule R230). -/
theorem initPhase_rtag_decrypt {s : State} (hi : initError (acceptCommand true s) = none) :
    (initPhase (acceptCommand true s)).rtag = receivedTag s.inputMsg := by
  have h16 := tag_le_msglen hi
  have e : s.msglen.toNat - (s.msglen.toNat - 16) = 16 := by omega
  unfold receivedTag State.inputMsg
  rw [initPhase_ok hi, length_memRead, drop_memRead _ _ (Nat.sub_le _ _), e]
  rfl

/-- WORK after KEYSTREAM on DECRYPT (rule R252). -/
theorem memRead_keystreamPhase_decrypt {s : State}
    (hi : initError (acceptCommand true s) = none) :
    (keystreamPhase (initPhase (acceptCommand true s))).memRead .work 0 (s.msglen.toNat - 16) =
      candidatePlaintext s.keyIs32 s.inputKey (nonceOperand s) s.inputMsg := by
  have hl := latched_initPhase hi
  have hL : (initPhase (acceptCommand true s)).lMsg.toNat = s.msglen.toNat - 16 := hl.lMsg_toNat hi
  have hw := hl.memRead_keystreamPhase
  rw [hL, initPhase_rtag_decrypt hi] at hw
  unfold candidatePlaintext
  rw [hw, State.inputMsg, length_memRead, take_memRead _ _ (Nat.sub_le _ _)]
  rfl

/-- DECRYPT when INIT raises nothing (rule R252). -/
theorem runCommand_decrypt {s : State} (hi : initError (acceptCommand true s) = none) :
    runCommand true s =
      match openMessage s.keyIs32 s.inputKey (nonceOperand s) s.inputMsg s.inputAad with
      | some pt => endCommand (s.msglen - 16) statusSuccess (s.memWrite .outmem 0 pt)
      | none => endCommand 0 (statusFailure ErrorKind.authenticationFailure.code) s := by
  have hl := latched_initPhase hi
  have hk := hl.after_keystreamPhase
  have hL : ∀ t, Latched true s t → t.lMsg.toNat = s.msglen.toNat - 16 := fun _ h => h.lMsg_toNat hi
  have hw := memRead_keystreamPhase_decrypt hi
  have hr := initPhase_rtag_decrypt hi
  rw [runCommand_decrypt_phases hi, deriveTagPhase_decrypt hk.after_hashPhase.dir]
  generalize initPhase (acceptCommand true s) = t at *
  have htag : tagOf (hashPhase (keystreamPhase t)) = messageTag s.keyIs32 s.inputKey
      (nonceOperand s) (candidatePlaintext s.keyIs32 s.inputKey (nonceOperand s) s.inputMsg)
      s.inputAad := by
    rw [hk.tagOf_hashPhase, messageSpace, hk.dir, hL _ hk, ← hw]
    rfl
  have hrt : (hashPhase (keystreamPhase t)).rtag = receivedTag s.inputMsg :=
    (hashPhase_rtag _).trans ((keystreamPhase_rtag t).trans hr)
  unfold openMessage
  rw [htag, hrt]
  split
  · have hf := hk.after_hashPhase.setTag_setPhase (tagOf (hashPhase (keystreamPhase t))) .finalize
    rw [← htag, hf.finalizePhase_decrypt, hL _ hf, hf.lMsg, ofNat_bodyLength_decrypt hi,
      memRead_setPhase, memRead_setTag, memRead_hashPhase, hw]
  · rw [← phaseStep_finalize (raise_phase ..), phaseStep_raise, endCommand_setTag,
      hk.after_hashPhase.outside]

/-! ### What the host can reach decides what a step does to it -/

@[simp] theorem hostView_hostView (s : State) : s.hostView.hostView = s.hostView := rfl
@[simp] theorem hostView_busy (s : State) : s.hostView.busy = s.busy := rfl
@[simp] theorem hostView_msglen (s : State) : s.hostView.msglen = s.msglen := rfl
@[simp] theorem hostView_pending (s : State) : s.hostView.pending = s.pending := rfl
@[simp] theorem hostView_phase (s : State) : s.hostView.phase = .idle := rfl
@[simp] theorem setHostRead_hostView (r : HostResult) (s : State) :
    s.hostView.setHostRead r = (s.setHostRead r).hostView := rfl
@[simp] theorem endCommand_hostView (n : Length) (v : BitVec 32) (s : State) :
    endCommand n v s.hostView = (endCommand n v s).hostView := rfl
@[simp] theorem hostRegValue_hostView (r : HostReg) (s : State) :
    hostRegValue r s.hostView = hostRegValue r s := by
  cases r <;> rfl

theorem mem_hostView {sp : Space} (s : State) (h : sp ≠ .work) : s.hostView.mem sp = s.mem sp := by
  cases sp with
  | work => exact absurd rfl h
  | keybuf | noncebuf | aadmem | inmem | outmem => rfl

theorem memRead_hostView {sp : Space} (s : State) (p n : Nat) (h : sp ≠ .work) :
    s.hostView.memRead sp p n = s.memRead sp p n :=
  memRead_congr sp p n (mem_hostView s h) rfl

theorem memWrite_hostView {sp : Space} (s : State) (p : Nat) (v : List Byte) (h : sp ≠ .work) :
    s.hostView.memWrite sp p v = (s.memWrite sp p v).hostView := by
  cases sp with
  | work => exact absurd rfl h
  | keybuf | noncebuf | aadmem | inmem | outmem => rfl

@[simp] theorem inputKey_hostView (s : State) : s.hostView.inputKey = s.inputKey :=
  keyOperand_congr s.keyIs32 rfl rfl

@[simp] theorem nonceOperand_hostView (s : State) : nonceOperand s.hostView = nonceOperand s :=
  nonceOperand_congr rfl rfl

@[simp] theorem inputMsg_hostView (s : State) : s.hostView.inputMsg = s.inputMsg :=
  memRead_hostView s _ _ (by decide)

@[simp] theorem inputAad_hostView (s : State) : s.hostView.inputAad = s.inputAad :=
  memRead_hostView s _ _ (by decide)

@[simp] theorem keyIs32_hostView (s : State) : s.hostView.keyIs32 = s.keyIs32 := rfl

theorem initError_hostView (d : Bool) (s : State) :
    initError (acceptCommand d s.hostView) = initError (acceptCommand d s) := rfl

/-- A command run from what the host can reach ends in the host's view of how it ends (rules R18, R45). -/
theorem runCommand_hostView (d : Bool) (s : State) :
    runCommand d s.hostView = (runCommand d s).hostView := by
  cases hi : initError (acceptCommand d s) with
  | some k =>
    have hv := (initError_hostView d s).trans hi
    rw [runCommand_raise hi, runCommand_raise hv, endCommand_hostView]
  | none =>
    have hv := (initError_hostView d s).trans hi
    cases d with
    | false =>
      rw [runCommand_encrypt hi, runCommand_encrypt hv, keyIs32_hostView, inputKey_hostView,
        nonceOperand_hostView, inputMsg_hostView, inputAad_hostView, hostView_msglen,
        memWrite_hostView _ _ _ (by decide), endCommand_hostView]
    | true =>
      rw [runCommand_decrypt hi, runCommand_decrypt hv, keyIs32_hostView, inputKey_hostView,
        nonceOperand_hostView, inputMsg_hostView, inputAad_hostView, hostView_msglen]
      split
      · rw [memWrite_hostView _ _ _ (by decide), endCommand_hostView]
      · rw [endCommand_hostView]

/-- Every command is back in IDLE (rule R231). -/
theorem runCommand_phase (d : Bool) (s : State) : (runCommand d s).phase = .idle := by
  cases hi : initError (acceptCommand d s) with
  | some k => rw [runCommand_raise hi, endCommand_phase]
  | none =>
    cases d with
    | false => rw [runCommand_encrypt hi, endCommand_phase]
    | true =>
      rw [runCommand_decrypt hi]
      split <;> rfl

/-! ### Each kind of step -/

/-- A unit operation issued alone completes and touches nothing the host can reach, and no phase (rules R81, R111,
R174). -/
theorem exec_unit_hostView {i : Instr} (h : hostIssuable i = false) (s : State) :
    ∃ t, exec i s = .next t ∧ t.hostView = s.hostView ∧ t.phase = s.phase := by
  cases i with
  | encrypt | decrypt => cases h
  | aesEnc128 | aesEnc256 | pvInit | pvAbsorb | pvRead | kdfDerive128 | kdfDerive256 | ctrInit | ctrNext
  | ctrXor => exact ⟨_, rfl, rfl, rfl⟩

/-- A step taken from an idle CORE shows nothing internal: the host sees the same outcome as from a CORE with
everything internal blanked, and the CORE is idle again. -/
structure HidesInternals (f : State → Host.Outcome State Fault Refusal) : Prop where
  view : ∀ s, viewOutcome (f s.hostView) = viewOutcome (f s)
  idle : ∀ s t, s.phase = .idle → f s = .next t → t.phase = .idle

namespace HidesInternals

variable {f : State → Host.Outcome State Fault Refusal}

theorem of_next {g : State → State} (hv : ∀ s, (g s.hostView).hostView = (g s).hostView)
    (hp : ∀ s, s.phase = .idle → (g s).phase = .idle) : HidesInternals fun s => .next (g s) where
  view s := congrArg Host.Outcome.next (hv s)
  idle s t hs ht := by
    cases ht
    exact hp s hs

theorem of_refused (r : Refusal) : HidesInternals fun _ => .refused r where
  view _ := rfl
  idle _ _ _ ht := by cases ht

theorem of_fault (r : Fault) : HidesInternals fun _ => .fault r where
  view _ := rfl
  idle _ _ _ ht := by cases ht

/-- The refusal of rule R31 rests on STATUS, which the host sees. -/
theorem unlessBusy (h : HidesInternals f) :
    HidesInternals fun s => if s.busy then .refused .accessWhileBusy else f s where
  view s := by
    rw [hostView_busy]
    split
    · rfl
    · exact h.view s
  idle s t hs ht := by
    split at ht
    · cases ht
    · exact h.idle s t hs ht

theorem setPending (h : HidesInternals f) (l : List Issue) :
    HidesInternals fun s => f (s.setPending l) where
  view s := h.view (s.setPending l)
  idle s := h.idle (s.setPending l)

end HidesInternals

theorem exec_hidesInternals (i : Instr) : HidesInternals (exec i) := by
  have hrun (d : Bool) : HidesInternals fun s => if s.busy then .refused .accessWhileBusy
      else .next (runCommand d s) :=
    .unlessBusy (.of_next (fun s => by rw [runCommand_hostView, hostView_hostView])
      (fun s _ => runCommand_phase d s))
  by_cases h : hostIssuable i = true
  · cases i with
    | encrypt => exact hrun false
    | decrypt => exact hrun true
    | aesEnc128 | aesEnc256 | pvInit | pvAbsorb | pvRead | kdfDerive128 | kdfDerive256 | ctrInit
    | ctrNext | ctrXor => cases h
  · have hu := exec_unit_hostView (Bool.eq_false_of_not_eq_true h)
    refine ⟨fun s => ?_, fun s t hs ht => ?_⟩
    · obtain ⟨t, ht, hv, -⟩ := hu s
      obtain ⟨t', ht', hv', -⟩ := hu s.hostView
      rw [ht, ht', viewOutcome, viewOutcome, hv, hv', hostView_hostView]
    · obtain ⟨t', ht', -, hp⟩ := hu s
      cases ht.symm.trans ht'
      exact hp.trans hs

theorem unitRequest_hidesInternals (c : BitVec 8) : HidesInternals (unitRequest c) := by
  unfold unitRequest
  cases decodeUnitCode c with
  | some i => exact exec_hidesInternals i
  | none => exact .of_refused _

theorem hostWriteCmd_hidesInternals (v : BitVec 8) : HidesInternals (hostWriteCmd v) := by
  unfold hostWriteCmd
  cases decodeCmd v with
  | some i => exact exec_hidesInternals i
  | none => exact .of_refused _

theorem hostWrite_hidesInternals (sp : Space) (addr : BitVec 64) (v : List Byte) :
    HidesInternals (hostWrite sp addr v) := by
  unfold hostWrite
  cases hw : hostWritable sp with
  | false => exact .of_refused _
  | true =>
    have hsp : sp ≠ .work := by
      rintro rfl
      cases hw
    cases insideSpace sp addr v.length with
    | false => exact .of_fault _
    | true =>
      exact .of_next (fun s => by rw [memWrite_hostView s _ _ hsp, hostView_hostView])
        (fun s hs => (memWrite_phase ..).trans hs)

/-- A host read shows nothing internal when the host can reach what it reads. -/
theorem setHostRead_hidesInternals {r : State → HostResult} (h : ∀ s, r s.hostView = r s) :
    HidesInternals fun s => .next (s.setHostRead (r s)) :=
  .of_next (fun s => by rw [h, setHostRead_hostView, hostView_hostView]) (fun _ hs => hs)

theorem hostReadBuf_hidesInternals (sp : Space) (addr : BitVec 64) (n : Nat) :
    HidesInternals (hostReadBuf sp addr n) := by
  unfold hostReadBuf
  cases hr : hostReadable sp with
  | false => exact .of_refused _
  | true =>
    have hsp : sp ≠ .work := by
      rintro rfl
      cases hr
    cases insideSpace sp addr n with
    | false => exact .of_fault _
    | true =>
      exact setHostRead_hidesInternals fun s =>
        congrArg HostResult.bytes (memRead_hostView s _ _ hsp)

theorem setHostReg_hidesInternals (r : HostReg) (v : BitVec 64) :
    HidesInternals fun s => .next (setHostReg r v s) := by
  cases r with
  | keylen | noncelen | aadlen | msglen | status | outlen => exact .of_next (fun _ => rfl) (fun _ hs => hs)

theorem hostMove_hidesInternals (m : HostMove) : HidesInternals (hostMove m) := by
  cases m with
  | reset => exact .of_next (g := resetEvent) (fun _ => rfl) (fun _ _ => rfl)
  | writeCmd v => exact (hostWriteCmd_hidesInternals v).unlessBusy
  | readCmd => exact (setHostRead_hidesInternals fun _ => rfl).unlessBusy
  | writeReg r v => exact (setHostReg_hidesInternals r v).unlessBusy
  | readReg r =>
    exact (setHostRead_hidesInternals fun s =>
      congrArg HostResult.value (hostRegValue_hostView r s)).unlessBusy
  | writeBuf sp addr v => exact (hostWrite_hidesInternals sp addr v).unlessBusy
  | readBuf sp addr n => exact (hostReadBuf_hidesInternals sp addr n).unlessBusy

/-- One step function that hides the internal state serves an idle CORE and its host's view alike, because the list
of what is still to happen is in the host's view. -/
theorem step_of_idle {s : State} (h : s.phase = .idle) :
    ∃ f, HidesInternals f ∧ step s = f s ∧ step s.hostView = f s.hostView := by
  cases hp : s.pending with
  | nil =>
    refine ⟨.next, .of_next (g := id) (fun _ => rfl) (fun _ hs => hs), ?_, ?_⟩
    · rw [step_of_nil hp, phaseStep_idle h]
    · rw [step_of_nil (hostView_pending s ▸ hp), phaseStep_idle (hostView_phase s)]
  | cons i rest =>
    cases i with
    | unit c =>
      exact ⟨_, (unitRequest_hidesInternals c).setPending rest, step_of_unit hp,
        step_of_unit (hostView_pending s ▸ hp)⟩
    | host m =>
      exact ⟨_, (hostMove_hidesInternals m).setPending rest, step_of_host hp (.inr h),
        step_of_host (hostView_pending s ▸ hp) (.inr (hostView_phase s))⟩

theorem viewOutcome_step_hostView {s : State} (h : s.phase = .idle) :
    viewOutcome (step s.hostView) = viewOutcome (step s) := by
  obtain ⟨f, hf, hs, hv⟩ := step_of_idle h
  rw [hs, hv, hf.view]

theorem step_keeps_idle {s t : State} (h : s.phase = .idle) (ht : step s = .next t) :
    t.phase = .idle := by
  obtain ⟨f, hf, hs, -⟩ := step_of_idle h
  exact hf.idle s t h (hs.symm.trans ht)

/-- Settles O57: of an idle CORE the step, as the host sees it, is the step of its host view, and two states with one
host view share it. -/
theorem idleStepsHideTheInternalState : Obligations.IdleStepsHideTheInternalState := by
  intro s u hs hu hv
  refine ⟨?_, fun _ => step_keeps_idle hs, fun _ => step_keeps_idle hu⟩
  rw [← viewOutcome_step_hostView hs, hv, viewOutcome_step_hostView hu]

/-- Settles O6: a host move other than reset waits while a command is in its phases, and an idle sequencer stays. -/
theorem orchestratorStepsBeforeTheHost : Obligations.OrchestratorStepsBeforeTheHost := by
  refine ⟨fun s m rest hp hm h => ?_, fun s _ h => step_of_nil h, fun s hp h => ?_⟩
  · exact step_of_wait h (not_or.2 ⟨hm, hp⟩)
  · rw [step_of_nil h, phaseStep_idle hp]

end Sys2Proof.Machine
end

section
/-! PROOFS of the statements of 10_state.md. The phases as steps of the machine; how every command reports its result in
STATUS and OUTLEN; the values after reset; and the host's access to the registers. -/

namespace Sys2Proof.Machine

/-! ### The phases as steps of the machine -/

theorem run_succ_of_next {M : Host.Core} {s t : M.State} (h : M.step s = .next t) (n : Nat) :
    M.run (n + 1) s = M.run n t := by
  simp only [Host.Core.run, h]

/-- With nothing listed to happen, the steps of the machine are the orchestrator's own (rules R16, R31): no phase
lists anything. -/
theorem run_core_eq_runPhases (n : Nat) {s : State} (h : s.pending = []) :
    Host.Core.run core n s = .next (runPhases n s) := by
  induction n generalizing s with
  | zero => rfl
  | succ n ih =>
    exact (run_succ_of_next (step_of_nil h) n).trans (ih ((phaseStep_pending s).trans h))

/-- Settles O7: five steps of the machine are five steps of the sequencer, and those are the command. -/
theorem commandEqualsItsPhaseSteps : Obligations.CommandEqualsItsPhaseSteps := by
  have hrun (d : Bool) (s : State) (hp : s.pending = []) :
      Host.Core.run core 5 (acceptCommand d s) = .next (runCommand d s) :=
    run_core_eq_runPhases 5 ((acceptCommand_pending d s).trans hp)
  exact ⟨fun s hb hp => (hrun false s hp).trans (exec_encrypt hb).symm,
    fun s hb hp => (hrun true s hp).trans (exec_decrypt hb).symm⟩

/-! ### STATUS and OUTLEN after a command -/

/-- How the registers of `t` report a command (rules R24, R26): OUTLEN is `n` unless ERROR is set, 0 if it is, and
STATUS is one of the values `vs`. -/
structure Reports (n : Nat) (vs : List (BitVec 32)) (t : State) : Prop where
  success : statusError t.status = false → t.outlen.toNat = n
  failure : statusError t.status = true → t.outlen = 0
  status : t.status ∈ vs

theorem statusError_statusSuccess : statusError statusSuccess = false := by decide

theorem statusError_statusFailure (k : ErrorKind) : statusError (statusFailure k.code) = true := by
  cases k <;> decide

theorem reports_endCommand_success {l : Length} {n : Nat} {vs : List (BitVec 32)} (hl : l.toNat = n)
    (hv : statusSuccess ∈ vs) (s : State) : Reports n vs (endCommand l statusSuccess s) where
  success _ := hl
  failure he := absurd (statusError_statusSuccess.symm.trans he) Bool.false_ne_true
  status := hv

theorem reports_endCommand_failure {k : ErrorKind} {vs : List (BitVec 32)}
    (hv : statusFailure k.code ∈ vs) (n : Nat) (s : State) :
    Reports n vs (endCommand 0 (statusFailure k.code) s) where
  success he := absurd (he.symm.trans (statusError_statusFailure k)) Bool.false_ne_true
  failure _ := rfl
  status := hv

/-- The tag-length check is DECRYPT's alone (rule R285), and INIT compares no tags. -/
theorem initError_encrypt_kind {s : State} {k : ErrorKind}
    (h : initError (acceptCommand false s) = some k) :
    k = .invalidNonceSize ∨ k = .invalidKeySize ∨ k = .inputTooLarge := by
  simp only [initError_acceptCommand, Bool.false_and, Bool.false_eq_true, if_false] at h
  split at h
  · exact .inl (Option.some.inj h).symm
  · split at h
    · exact .inr (.inl (Option.some.inj h).symm)
    · split at h
      · exact .inr (.inr (Option.some.inj h).symm)
      · cases h

/-- The size check leaves room for the tag in a 64-bit OUTLEN (rule R226). -/
theorem toNat_msglen_add_tag {s : State} (hi : initError (acceptCommand false s) = none) :
    (s.msglen + 16).toNat = s.msglen.toNat + 16 := by
  have hb : s.msglen.toNat + s.aadlen.toNat ≤ 2 ^ 36 - 31 := bodyLength_le hi
  bv_omega

theorem toNat_msglen_sub_tag {s : State} (hi : initError (acceptCommand true s) = none) :
    (s.msglen - 16).toNat = s.msglen.toNat - 16 := by
  have h16 := tag_le_msglen hi
  bv_omega

theorem runCommand_encrypt_reports (s : State) :
    Reports (s.msglen.toNat + 16) [0x02#32, 0x16#32, 0x26#32, 0x36#32] (runCommand false s) := by
  cases hi : initError (acceptCommand false s) with
  | some k =>
    rw [runCommand_raise hi]
    obtain rfl | rfl | rfl := initError_encrypt_kind hi <;>
      exact reports_endCommand_failure (by decide) _ s
  | none =>
    rw [runCommand_encrypt hi]
    exact reports_endCommand_success (toNat_msglen_add_tag hi) (by decide) _

theorem runCommand_decrypt_reports (s : State) :
    Reports (s.msglen.toNat - 16) [0x02#32, 0x16#32, 0x26#32, 0x36#32, 0x46#32, 0x56#32]
      (runCommand true s) := by
  cases hi : initError (acceptCommand true s) with
  | some k =>
    rw [runCommand_raise hi]
    exact reports_endCommand_failure (by cases k <;> decide) _ s
  | none =>
    rw [runCommand_decrypt hi]
    split
    · exact reports_endCommand_success (toNat_msglen_sub_tag hi) (by decide) _
    · exact reports_endCommand_failure (by decide) _ s

/-- Settles O51: INIT raises, or the command comes to its success or, on DECRYPT, to a tag mismatch. -/
theorem outlenAndStatusAfterACommand : Obligations.OutlenAndStatusAfterACommand := by
  intro s hb
  obtain ⟨he, he', hev⟩ := runCommand_encrypt_reports s
  obtain ⟨hd, hd', hdv⟩ := runCommand_decrypt_reports s
  exact ⟨⟨_, exec_encrypt hb, he, he', hev⟩, ⟨_, exec_decrypt hb, hd, hd', hdv⟩⟩

/-! ### Reset -/

theorem peek_reset_work (a : Nat) : State.reset.peek .work a = 0 := rfl

/-- Settles O8: the registers one by one, in the order of rule R41. -/
theorem resetValues : Obligations.ResetValues :=
  ⟨rfl, rfl, rfl, rfl, rfl, rfl, rfl, rfl, rfl, rfl, rfl, rfl, rfl, rfl, rfl, rfl, rfl, rfl, rfl, rfl,
    peek_reset_work⟩

/-! ### The host's access to the registers -/

theorem hostMove_writeReg {s : State} (h : s.busy = false) (r : HostReg) (v : BitVec 64) :
    hostMove (.writeReg r v) s = .next (setHostReg r v s) :=
  if_neg (Bool.eq_false_iff.1 h)

theorem hostMove_readReg {s : State} (h : s.busy = false) (r : HostReg) :
    hostMove (.readReg r) s = .next (s.setHostRead (.value (hostRegValue r s))) :=
  if_neg (Bool.eq_false_iff.1 h)

theorem hostMove_readCmd {s : State} (h : s.busy = false) :
    hostMove .readCmd s = .next (s.setHostRead (.value 0)) :=
  if_neg (Bool.eq_false_iff.1 h)

theorem busy_setHostReg (r : HostReg) (v : BitVec 64) (s : State) :
    (setHostReg r v s).busy = s.busy := by
  cases r <;> rfl

/-- A register holds what the host writes to it, the two read-only ones excepted (rule R22). -/
theorem hostRegValue_setHostReg {r : HostReg} (hs : r ≠ .status) (ho : r ≠ .outlen) (v : BitVec 64)
    (s : State) : hostRegValue r (setHostReg r v s) = v := by
  cases r with
  | keylen | noncelen | aadlen | msglen => rfl
  | status => exact absurd rfl hs
  | outlen => exact absurd rfl ho

/-- A host write and the read after it, for any register the host can write (rule R22). -/
theorem hostMove_writeReg_readReg {s : State} (h : s.busy = false) {r : HostReg} (hs : r ≠ .status)
    (ho : r ≠ .outlen) (v : BitVec 64) :
    hostMove (.writeReg r v) s = .next (setHostReg r v s) ∧
      hostMove (.readReg r) (setHostReg r v s) =
        .next ((setHostReg r v s).setHostRead (.value v)) := by
  refine ⟨hostMove_writeReg h r v, ?_⟩
  rw [hostMove_readReg ((busy_setHostReg r v s).trans h), hostRegValue_setHostReg hs ho]

/-- Settles O13: one rule for a written register, at each of the four. -/
theorem lengthRegistersReadBackUnchanged : Obligations.LengthRegistersReadBackUnchanged := by
  intro s v hb
  have hrw {r : HostReg} (hs : r ≠ .status) (ho : r ≠ .outlen) := hostMove_writeReg_readReg hb hs ho v
  exact ⟨hrw (r := .keylen) nofun nofun, hrw (r := .noncelen) nofun nofun,
    hrw (r := .aadlen) nofun nofun, hrw (r := .msglen) nofun nofun⟩

/-- Settles O14: the write leaves the state, the read returns the register zero-extended. -/
theorem statusAndOutlenAreReadOnly : Obligations.StatusAndOutlenAreReadOnly := by
  intro s v hb
  refine ⟨hostMove_writeReg hb .status v, hostMove_writeReg hb .outlen v, ?_,
    hostMove_readReg hb .outlen, hostMove_readCmd hb⟩
  rw [hostMove_readReg hb, BitVec.ofNat_toNat]
  rfl

end Sys2Proof.Machine
end

section
/-! PROOFS of the statements of 20_memory.md. The host's access to the buffers: which spaces it can write and read, what
an access in range and out of range comes to, and that BUSY refuses it. -/

namespace Sys2Proof.Machine

/-! ### BUSY -/

/-- Every access of the host but the reset event needs BUSY = 0 (rules R31, R53). -/
theorem hostMove_of_busy {s : State} (h : s.busy = true) {m : HostMove} (hm : m ≠ .reset) :
    hostMove m s = .refused .accessWhileBusy := by
  cases m with
  | reset => exact absurd rfl hm
  | writeCmd | readCmd | writeReg | readReg | writeBuf | readBuf => exact if_pos h

theorem hostMove_writeBuf {s : State} (h : s.busy = false) (sp : Space) (addr : BitVec 64)
    (v : List Byte) : hostMove (.writeBuf sp addr v) s = hostWrite sp addr v s :=
  if_neg (Bool.eq_false_iff.1 h)

theorem hostMove_readBuf {s : State} (h : s.busy = false) (sp : Space) (addr : BitVec 64) (n : Nat) :
    hostMove (.readBuf sp addr n) s = hostReadBuf sp addr n s :=
  if_neg (Bool.eq_false_iff.1 h)

/-! ### Which spaces the host can write and read -/

theorem hostWritable_of_ne {sp : Space} (ho : sp ≠ .outmem) (hw : sp ≠ .work) :
    hostWritable sp = true := by
  cases sp with
  | keybuf | noncebuf | aadmem | inmem => rfl
  | outmem => exact absurd rfl ho
  | work => exact absurd rfl hw

theorem hostReadable_of_ne {sp : Space} (hw : sp ≠ .work) : hostReadable sp = true := by
  cases sp with
  | keybuf | noncebuf | aadmem | inmem | outmem => rfl
  | work => exact absurd rfl hw

theorem insideSpace_of_le {sp : Space} {addr : BitVec 64} {n : Nat}
    (h : addr.toNat + n ≤ Config.spaceSize sp) : insideSpace sp addr n = true :=
  decide_eq_true h

theorem insideSpace_of_lt {sp : Space} {addr : BitVec 64} {n : Nat}
    (h : Config.spaceSize sp < addr.toNat + n) : insideSpace sp addr n = false :=
  decide_eq_false (Nat.not_le_of_lt h)

/-! ### HostWrite and HostRead, outcome by outcome (rule R53) -/

theorem hostWrite_inside {sp : Space} {addr : BitVec 64} {v : List Byte}
    (hw : hostWritable sp = true) (hi : insideSpace sp addr v.length = true) (s : State) :
    hostWrite sp addr v s = .next (s.memWrite sp addr.toNat v) :=
  (if_pos hw).trans (if_pos hi)

theorem hostWrite_outside {sp : Space} {addr : BitVec 64} {v : List Byte}
    (hw : hostWritable sp = true) (hi : insideSpace sp addr v.length = false) (s : State) :
    hostWrite sp addr v s = .fault (.outsideSpace sp) :=
  (if_pos hw).trans (if_neg (Bool.eq_false_iff.1 hi))

theorem hostWrite_noSuchAccess {sp : Space} (hw : hostWritable sp = false) (addr : BitVec 64)
    (v : List Byte) (s : State) : hostWrite sp addr v s = .refused (.noSuchAccess sp) :=
  if_neg (Bool.eq_false_iff.1 hw)

theorem hostReadBuf_inside {sp : Space} {addr : BitVec 64} {n : Nat}
    (hr : hostReadable sp = true) (hi : insideSpace sp addr n = true) (s : State) :
    hostReadBuf sp addr n s = .next (s.setHostRead (.bytes (s.memRead sp addr.toNat n))) :=
  (if_pos hr).trans (if_pos hi)

theorem hostReadBuf_outside {sp : Space} {addr : BitVec 64} {n : Nat}
    (hr : hostReadable sp = true) (hi : insideSpace sp addr n = false) (s : State) :
    hostReadBuf sp addr n s = .fault (.outsideSpace sp) :=
  (if_pos hr).trans (if_neg (Bool.eq_false_iff.1 hi))

theorem hostReadBuf_noSuchAccess {sp : Space} (hr : hostReadable sp = false) (addr : BitVec 64)
    (n : Nat) (s : State) : hostReadBuf sp addr n s = .refused (.noSuchAccess sp) :=
  if_neg (Bool.eq_false_iff.1 hr)

/-! ### The host's access to the buffers -/

/-- MemWrite changes no byte but the ones it names. -/
theorem peek_memWrite_outside {sp sp' : Space} {p a : Nat} {v : List Byte}
    (h : ¬(sp' = sp ∧ p ≤ a ∧ a < p + v.length)) (s : State) :
    (s.memWrite sp p v).peek sp' a = s.peek sp' a := by
  rw [peek_memWrite, if_neg h]

/-- Settles O15: an access in range is MemWrite or MemRead of its space, and the rest is its guards. -/
theorem hostBufferAccess : Obligations.HostBufferAccess := by
  refine ⟨fun s sp addr v hb ho hw => ?_, fun s sp addr n hb hw => ?_, fun s addr v n hb => ?_,
    fun s sp addr v n hb => ⟨hostMove_of_busy hb nofun, hostMove_of_busy hb nofun⟩⟩
  · have hwr := hostWritable_of_ne ho hw
    rw [hostMove_writeBuf hb]
    exact ⟨fun hle => ⟨Memory.writeBytes sp addr.toNat v (s.mem sp),
        hostWrite_inside hwr (insideSpace_of_le hle) s, memRead_memWrite sp addr.toNat v s,
        fun _ _ hn => peek_memWrite_outside hn s⟩,
      fun hlt => hostWrite_outside hwr (insideSpace_of_lt hlt) s⟩
  · have hrd := hostReadable_of_ne hw
    rw [hostMove_readBuf hb]
    exact ⟨fun hle => hostReadBuf_inside hrd (insideSpace_of_le hle) s,
      fun hlt => hostReadBuf_outside hrd (insideSpace_of_lt hlt) s⟩
  · rw [hostMove_writeBuf hb, hostMove_writeBuf hb, hostMove_readBuf hb]
    exact ⟨hostWrite_noSuchAccess rfl addr v s, hostWrite_noSuchAccess rfl addr v s,
      hostReadBuf_noSuchAccess rfl addr n s⟩

end Sys2Proof.Machine
end

section
/-! PROOFS of the statements of 30_encoding.md. What a step does with a decoded code and with a host move; the layouts of
the derivation block, the length block and the tag input; and the counter block after any number of advances. -/

namespace Sys2Proof.Machine

/-! ### Decoded codes -/

theorem unitRequest_of_decodeUnitCode {c : BitVec 8} {i : Instr} (h : decodeUnitCode c = some i)
    (s : State) : unitRequest c s = exec i s := by
  rw [unitRequest, h]

theorem hostWriteCmd_of_decodeCmd {v : BitVec 8} {i : Instr} (h : decodeCmd v = some i) (s : State) :
    hostWriteCmd v s = exec i s := by
  rw [hostWriteCmd, h]

theorem hostMove_writeCmd {s : State} (h : s.busy = false) (v : BitVec 8) :
    hostMove (.writeCmd v) s = hostWriteCmd v s :=
  if_neg (Bool.eq_false_iff.1 h)

/-- Settles O4: a unit request and the reset event are taken in every phase, any other move of the host in IDLE, and a
code that decodes runs its operation. -/
theorem stepRunsTheDecodedOperation : Obligations.StepRunsTheDecodedOperation := by
  refine ⟨fun s c rest i h hi => ?_, fun s v rest i h hp hb hi => ?_, fun s m rest h hm => ?_⟩
  · exact (step_of_unit h).trans (unitRequest_of_decodeUnitCode hi _)
  · calc step s = hostMove (.writeCmd v) (s.setPending rest) := step_of_host h (.inr hp)
      _ = hostWriteCmd v (s.setPending rest) := hostMove_writeCmd ((busy_setPending rest s).trans hb) v
      _ = exec i (s.setPending rest) := hostWriteCmd_of_decodeCmd hi _
  · exact step_of_host h hm.symm

/-! ### Little-endian integers of byte strings -/

theorem leInt_append (a b : List Byte) : leInt (a ++ b) = leInt a + 256 ^ a.length * leInt b := by
  induction a with
  | nil => simp [leInt]
  | cons x xs ih =>
    simp only [List.cons_append, leInt, ih, List.length_cons, pow_succ]
    ring

/-- The first `n` bytes of a value hold it modulo 256^n (rules R9, R10). -/
theorem leInt_bytesOf {w : Nat} (n : Nat) (v : BitVec w) :
    leInt (bytesOf n v) = v.toNat % 256 ^ n := by
  induction n with
  | zero => simp [bytesOf, leInt, Nat.mod_one]
  | succ n ih =>
    have hsplit : bytesOf (n + 1) v = bytesOf n v ++ [byteAt v n] := by
      simp [bytesOf, List.range_succ]
    rw [hsplit, leInt_append, ih, length_bytesOf, Nat.mod_pow_succ, leInt, leInt, byteAt_toNat,
      mul_zero, add_zero]

/-! ### The data blocks (rules R84 to R86) -/

theorem byteAt_derivationBlock_index {k : Nat} (h : k < 4) (i : Nat) (nonce : List Byte) :
    byteAt (derivationBlock i nonce) k = BitVec.ofNat 8 (i >>> (8 * k)) := by
  rw [derivationBlock, byteAt_bits128 _ _ (by omega), getD_append, length_leBytes, if_pos h,
    getD_leBytes _ _ _ h]

theorem byteAt_derivationBlock_nonce {k : Nat} (h : k < 12) (i : Nat) (nonce : List Byte) :
    byteAt (derivationBlock i nonce) (4 + k) = nonce.getD k 0 := by
  rw [derivationBlock, byteAt_bits128 _ _ (by omega), getD_append, length_leBytes,
    if_neg (by omega), Nat.add_sub_cancel_left]

/-- The index fits in byte 0, so the other three bytes of LE32 are zero. -/
theorem byteAt_derivationBlock_index_high {i k : Nat} (hi : i < 256) (h1 : 1 ≤ k) (h : k < 4)
    (nonce : List Byte) : byteAt (derivationBlock i nonce) k = 0 := by
  have hpow : 2 ^ 8 ≤ 2 ^ (8 * k) := Nat.pow_le_pow_right two_pos (by omega)
  have hshift : i >>> (8 * k) = 0 := Nat.shiftRight_eq_zero i (8 * k) (hi.trans_le hpow)
  rw [byteAt_derivationBlock_index h, hshift]
  rfl

/-- The two bit counts of the length block, neither cut by its 64 bits (rule R85). -/
theorem lengthBlock_toNat {a m : Nat} (ha : a < 2 ^ 61) (hm : m < 2 ^ 61) :
    (lengthBlock a m).toNat = 8 * a + 2 ^ 64 * (8 * m) := by
  have hbytes : leInt (leBytes 8 (8 * a) ++ leBytes 8 (8 * m)) = 8 * a + 2 ^ 64 * (8 * m) := by
    rw [leInt_append, length_leBytes, leInt_leBytes 8 _ (by omega), leInt_leBytes 8 _ (by omega)]
    norm_num
  rw [lengthBlock, bits, hbytes, BitVec.toNat_ofNat]
  exact Nat.mod_eq_of_lt (by omega)

theorem byteAt_tagInput {j : Nat} (h : j < 16) (p : Block) (nonce : List Byte) :
    byteAt (tagInput p nonce) j =
      if j < 12 then byteAt p j ^^^ nonce.getD j 0
      else if j = 15 then byteAt p 15 &&& 0x7f#8
      else byteAt p j := by
  rw [tagInput, byteAt_blockOf _ _ h]

/-- Settles O31: each block read off its definition byte by byte. -/
theorem dataBlockLayouts : Obligations.DataBlockLayouts := by
  refine ⟨fun i nonce hi _ => ⟨?_, fun k h1 h4 => ?_, fun k hk => ?_⟩,
    fun a m ha hm => lengthBlock_toNat ha hm,
    fun p nonce _ => ⟨fun j hj => ?_, fun j h12 h15 => ?_, ?_⟩⟩
  · exact byteAt_derivationBlock_index (by omega) i nonce
  · exact byteAt_derivationBlock_index_high (by omega) h1 h4 nonce
  · exact byteAt_derivationBlock_nonce hk i nonce
  · rw [byteAt_tagInput (by omega), if_pos hj]
  · rw [byteAt_tagInput (by omega), if_neg (by omega), if_neg (by omega)]
  · rw [byteAt_tagInput (by omega), if_neg (by omega), if_pos rfl]

/-! ### The counter block (rules R87, R194, R195) -/

/-- No carry leaves bytes 0 to 3 (rule R195). -/
theorem byteAt_counterStep_high {k : Nat} (h : 4 ≤ k) (c : Block) :
    byteAt (counterStep c) k = byteAt c k := by
  apply BitVec.eq_of_getLsbD_eq
  intro i hi
  rw [byteAt_getLsbD _ _ _ hi, byteAt_getLsbD _ _ _ hi, counterStep, BitVec.getLsbD_append,
    if_neg (by omega), BitVec.getLsbD_extractLsb', Nat.add_sub_cancel' (by omega : 32 ≤ 8 * k + i)]
  by_cases hk : 8 * k + i < 128
  · rw [decide_eq_true (by omega), Bool.true_and]
  · rw [BitVec.getLsbD_of_ge c _ (by omega), Bool.and_false]

theorem byteAt_counterAfter_high {k : Nat} (h : 4 ≤ k) (c : Block) (j : Nat) :
    byteAt (counterStep^[j] c) k = byteAt c k := by
  induction j with
  | zero => rfl
  | succ j ih => rw [Function.iterate_succ_apply', byteAt_counterStep_high h, ih]

/-- Bytes 0 to 3 count modulo 2^32 from the seed's own, which setting bit 127 does not touch. -/
theorem leInt_counterAfter_counterStart (t : Block) (j : Nat) :
    leInt (bytesOf 4 (counterStep^[j] (counterStart t))) = (leInt (bytesOf 4 t) + j) % 2 ^ 32 := by
  rw [leInt_bytesOf, leInt_bytesOf, counterAfter_toNat, counterStart_toNat]
  omega

/-- Settles O37: the low four bytes count, and the advance leaves the upper twelve as the start set them. -/
theorem counterBlockOfEveryIndex : Obligations.CounterBlockOfEveryIndex := by
  refine fun t j => ⟨leInt_counterAfter_counterStart t j, fun k h4 h15 => ?_, ?_⟩
  · rw [byteAt_counterAfter_high h4, byteAt_counterStart t k (by omega), if_neg (by omega)]
  · rw [byteAt_counterAfter_high (by omega), byteAt_counterStart t 15 (by omega), if_pos rfl]

end Sys2Proof.Machine
end

section
/-! PROOFS of the statements of 40_aes_core.md. The S-box as a table against the field; the round transformations byte by
byte, and that each is injective; the key expansion as a recurrence; the cipher round by round, and its bijection. -/

namespace Sys2Proof.Machine

/-! ### The S-box (rules R114 to R116) -/

/-- The affine map of rule R115: bit `i` of `t.rotateRight r` is bit `(i + r) mod 8` of `t`. -/
def affineMap (t : Byte) : Byte :=
  t ^^^ t.rotateRight 4 ^^^ t.rotateRight 5 ^^^ t.rotateRight 6 ^^^ t.rotateRight 7 ^^^ 0x63#8

/-- The affine map undone: applied to an entry of the table, it gives the byte that rule R115 calls `t`. -/
def affineUnmap (s : Byte) : Byte :=
  s.rotateRight 2 ^^^ s.rotateRight 5 ^^^ s.rotateRight 7 ^^^ 0x05#8

theorem affineMap_affineUnmap : ∀ s : Byte, affineMap (affineUnmap s) = s := by decide +kernel

theorem getLsbD_rotateRight_byte (t : Byte) {r i : Nat} (hr : r < 8) (hi : i < 8) :
    (t.rotateRight r).getLsbD i = t.getLsbD ((i + r) % 8) := by
  rw [BitVec.getLsbD_rotateRight, Nat.mod_eq_of_lt hr]
  by_cases h : i < 8 - r
  · rw [decide_eq_true h, cond_true, Nat.mod_eq_of_lt (by omega), Nat.add_comm]
  · rw [decide_eq_false h, cond_false, decide_eq_true hi, Bool.true_and]
    congr 1
    omega

theorem getLsbD_affineMap (t : Byte) {i : Nat} (hi : i < 8) :
    (affineMap t).getLsbD i =
      (t.getLsbD i ^^ t.getLsbD ((i + 4) % 8) ^^ t.getLsbD ((i + 5) % 8) ^^
        t.getLsbD ((i + 6) % 8) ^^ t.getLsbD ((i + 7) % 8) ^^ (0x63#8).getLsbD i) := by
  have hrot {r : Nat} (hr : r < 8) := getLsbD_rotateRight_byte t hr hi
  simp only [affineMap, BitVec.getLsbD_xor]
  rw [hrot (by decide), hrot (by decide), hrot (by decide), hrot (by decide)]

/-- Behind the affine map the printed table holds the inverses of the field: one product per entry. -/
theorem gmul_affineUnmap_sbox : ∀ a : Byte, a ≠ 0 → gmul a (affineUnmap (sbox a)) = 1 := by
  decide +kernel

theorem affineUnmap_sbox_zero : affineUnmap (sbox 0) = 0 := by decide

/-- Settles O19: the affine map undone on the table's entry is the inverse, and the affine map gives the entry back. -/
theorem sboxIsInverseThenAffineMap : Obligations.SboxIsInverseThenAffineMap := by
  refine fun a => ⟨affineUnmap (sbox a), ?_, gmul_affineUnmap_sbox a, fun i hi => ?_⟩
  · rintro rfl
    exact affineUnmap_sbox_zero
  · rw [← getLsbD_affineMap _ hi, affineMap_affineUnmap]

/-- To take the inverse twice gives the byte back. -/
theorem affineUnmap_sbox_involutive : Function.Involutive (affineUnmap ∘ sbox) := by
  have h : ∀ a : Byte, affineUnmap (sbox (affineUnmap (sbox a))) = a := by decide +kernel
  exact h

theorem sbox_injective : Function.Injective sbox :=
  affineUnmap_sbox_involutive.injective.of_comp

/-! ### Multiplication by x and xor -/

theorem xor_left_comm_byte (a b c : Byte) : a ^^^ (b ^^^ c) = b ^^^ (a ^^^ c) := by ac_rfl

theorem xtime_xor (a b : Byte) : xtime (a ^^^ b) = xtime a ^^^ xtime b := by
  simp only [xtime, BitVec.getLsbD_xor, BitVec.shiftLeft_xor_distrib]
  cases a.getLsbD 7 <;> cases b.getLsbD 7 <;>
    simp [BitVec.xor_assoc, BitVec.xor_comm, xor_left_comm_byte]

theorem gmul2_eq_gmul (a : Byte) : gmul2 a = gmul a 2 := by
  simp [gmul2, gmul, gmulLoop]

theorem gmul3_eq_gmul (a : Byte) : gmul3 a = gmul a 3 := by
  simp [gmul3, gmul, gmulLoop, BitVec.xor_comm]

/-! ### The round transformations byte by byte (rules R117 to R120) -/

theorem byteAt_subBytes (b : Block) {k : Nat} (hk : k < 16) :
    byteAt (subBytes b) k = sbox (byteAt b k) := by
  rw [subBytes, byteAt_blockOf _ _ hk]

theorem byteAt_shiftRows (b : Block) {r c : Nat} (hr : r < 4) (hc : c < 4) :
    byteAt (shiftRows b) (r + 4 * c) = byteAt b (r + 4 * ((c + r) % 4)) := by
  rw [shiftRows, byteAt_blockOf _ _ (by omega), show (r + 4 * c) % 4 = r by omega,
    show (r + 4 * c) / 4 = c by omega]

/-- One byte of MixColumns, the row read modulo 4. -/
theorem byteAt_mixColumns (b : Block) {c : Nat} (hc : c < 4) (r : Nat) :
    byteAt (mixColumns b) (4 * c + r % 4) =
      mixByte (byteAt b (4 * c + r % 4)) (byteAt b (4 * c + (r + 1) % 4))
        (byteAt b (4 * c + (r + 2) % 4)) (byteAt b (4 * c + (r + 3) % 4)) := by
  rw [mixColumns, byteAt_blockOf _ _ (by omega), show (4 * c + r % 4) / 4 = c by omega]
  congr 3 <;> omega

/-- Settles O20: each transformation read off its definition byte by byte. -/
theorem roundTransformationsByteByByte : Obligations.RoundTransformationsByteByByte := by
  refine ⟨fun a => ⟨gmul2_eq_gmul a, gmul3_eq_gmul a⟩, fun b rk => ⟨fun k hk => byteAt_subBytes b hk,
    fun r c hr hc => byteAt_shiftRows b hr hc, fun c hc => ⟨byteAt_mixColumns b hc 0,
      (byteAt_mixColumns b hc 1).trans ?_, (byteAt_mixColumns b hc 2).trans ?_,
      (byteAt_mixColumns b hc 3).trans ?_⟩, fun k _ => byteAt_xor b rk k⟩⟩
  -- The rule lists the bytes of a column from row 0 on, `mixByte` from the row it computes.
  all_goals
    simp only [mixByte, Nat.reduceAdd, Nat.reduceMod, add_zero]
    ac_rfl

/-! ### The round transformations are injective -/

theorem subBytes_injective : Function.Injective subBytes := by
  intro a b h
  refine block_ext fun k hk => sbox_injective ?_
  rw [← byteAt_subBytes a hk, ← byteAt_subBytes b hk, h]

/-- Every byte of the input stands somewhere in the output: the rotation of its row undone. -/
theorem byteAt_eq_byteAt_shiftRows (b : Block) {k : Nat} (hk : k < 16) :
    byteAt b k = byteAt (shiftRows b) (k % 4 + 4 * ((k / 4 + (4 - k % 4)) % 4)) := by
  rw [byteAt_shiftRows b (by omega) (by omega)]
  congr 1
  omega

theorem shiftRows_injective : Function.Injective shiftRows := by
  intro a b h
  refine block_ext fun k hk => ?_
  rw [byteAt_eq_byteAt_shiftRows a hk, byteAt_eq_byteAt_shiftRows b hk, h]

/-- The square of the MixColumns matrix: rows 1 and 3 of a column drop out of row 0. -/
theorem mixByte_mixByte (a0 a1 a2 a3 : Byte) :
    mixByte (mixByte a0 a1 a2 a3) (mixByte a1 a2 a3 a0) (mixByte a2 a3 a0 a1) (mixByte a3 a0 a1 a2) =
      a0 ^^^ xtime (xtime (a0 ^^^ a2)) := by
  simp only [mixByte, gmul2, gmul3, xtime_xor, BitVec.xor_assoc, BitVec.xor_comm, xor_left_comm_byte,
    xor_cancel_left]

theorem byteAt_mixColumns_mixColumns (b : Block) {c : Nat} (hc : c < 4) (r : Nat) :
    byteAt (mixColumns (mixColumns b)) (4 * c + r % 4) =
      byteAt b (4 * c + r % 4) ^^^
        xtime (xtime (byteAt b (4 * c + r % 4) ^^^ byteAt b (4 * c + (r + 2) % 4))) := by
  rw [← mixByte_mixByte _ (byteAt b (4 * c + (r + 1) % 4)) _ (byteAt b (4 * c + (r + 3) % 4))]
  simp only [byteAt_mixColumns _ hc, Nat.add_assoc, Nat.reduceAdd, Nat.add_mod_right,
    show (r + 5) % 4 = (r + 1) % 4 by omega, show (r + 6) % 4 = (r + 2) % 4 by omega]

/-- The fourth power of the MixColumns matrix is the identity. -/
theorem mixColumns_mixColumns_involutive : Function.Involutive (mixColumns ∘ mixColumns) := by
  intro b
  refine block_ext fun k hk => ?_
  have hrow (b : Block) := byteAt_mixColumns_mixColumns b (c := k / 4) (by omega)
  rw [← Nat.div_add_mod k 4]
  simp only [Function.comp_apply, hrow, Nat.add_assoc, Nat.reduceAdd, Nat.add_mod_right]
  simp only [xtime_xor, BitVec.xor_assoc, BitVec.xor_comm, xor_left_comm_byte, xor_cancel_left,
    BitVec.xor_self]

theorem mixColumns_injective : Function.Injective mixColumns :=
  mixColumns_mixColumns_involutive.injective.of_comp

theorem addRoundKey_injective (rk : Block) : Function.Injective fun b => addRoundKey b rk :=
  fun _ _ h => (BitVec.xor_left_inj rk).1 h

/-! ### RotWord, SubWord and round keys (rule R121) -/

theorem byteAt_rotWord (t : KeyWord) {j : Nat} (hj : j < 4) :
    byteAt (rotWord t) j = byteAt t ((j + 1) % 4) := by
  rw [rotWord, byteAt_bits32 _ _ hj]
  simp [List.getD, hj]

theorem byteAt_subWord (t : KeyWord) {j : Nat} (hj : j < 4) :
    byteAt (subWord t) j = sbox (byteAt t j) := by
  rw [subWord, byteAt_bits32 _ _ hj]
  simp [List.getD, hj]

/-- The word `lo` of a longer value keeps its place. -/
theorem byteAt_append_word_low {w : Nat} (hi : BitVec w) (lo : KeyWord) {j : Nat} (hj : j < 4) :
    byteAt (hi ++ lo) j = byteAt lo j :=
  BitVec.extractLsb'_append_eq_of_add_le (by omega)

theorem byteAt_append_word_high {w : Nat} (hi : BitVec w) (lo : KeyWord) (j : Nat) :
    byteAt (hi ++ lo) (4 + j) = byteAt hi j := by
  refine (BitVec.extractLsb'_append_eq_of_le (by omega)).trans ?_
  rw [byteAt]
  congr 1
  omega

theorem byteAt_roundKey (w : List KeyWord) (r : Nat) {k j : Nat} (hk : k < 4) (hj : j < 4) :
    byteAt (roundKey w r) (4 * k + j) = byteAt (w.getD (4 * r + k) 0) j := by
  rw [roundKey]
  obtain rfl | rfl | rfl | rfl : k = 0 ∨ k = 1 ∨ k = 2 ∨ k = 3 := by omega
  · rw [mul_zero, zero_add, byteAt_append_word_low _ _ hj, add_zero]
  · rw [mul_one, byteAt_append_word_high, byteAt_append_word_low _ _ hj]
  · rw [show 4 * 2 + j = 4 + (4 + j) by omega, byteAt_append_word_high, byteAt_append_word_high,
      byteAt_append_word_low _ _ hj]
  · rw [show 4 * 3 + j = 4 + (4 + (4 + j)) by omega, byteAt_append_word_high,
      byteAt_append_word_high, byteAt_append_word_high]

/-! ### The key expansion (rule R121) -/

/-- The words of the key itself, which the expansion begins with. -/
def keyWords (nk : Nat) (key : KeyBits) : List KeyWord :=
  (List.range nk).map fun i => key.extractLsb' (32 * i) 32

theorem expandKey_eq (nk : Nat) (key : KeyBits) :
    expandKey nk key =
      (expandLoop nk (4 * (nk + 6 + 1) - nk) nk (keyWords nk key).reverse).reverse := by
  rw [expandKey]
  rfl

@[simp] theorem length_keyWords (nk : Nat) (key : KeyBits) : (keyWords nk key).length = nk := by
  simp [keyWords]

theorem byteAt_word {w : Nat} (v : BitVec w) (i : Nat) {j : Nat} (hj : j < 4) :
    byteAt (v.extractLsb' (32 * i) 32) j = byteAt v (4 * i + j) := by
  apply BitVec.eq_of_getLsbD_eq
  intro k hk
  rw [byteAt_getLsbD _ _ _ hk, byteAt_getLsbD _ _ _ hk, BitVec.getLsbD_extractLsb',
    decide_eq_true (by omega), Bool.true_and]
  congr 1
  omega

theorem byteAt_getD_keyWords {nk i j : Nat} (hi : i < nk) (hj : j < 4) (key : KeyBits) :
    byteAt ((keyWords nk key).getD i 0) j = byteAt key (4 * i + j) := by
  rw [← byteAt_word key i hj]
  simp [keyWords, List.getD, hi]

/-- The words of the key depend on its first `4 * nk` bytes alone. -/
theorem keyWords_congr {nk : Nat} {key key' : KeyBits}
    (h : ∀ j, j < 4 * nk → byteAt key j = byteAt key' j) : keyWords nk key = keyWords nk key' := by
  refine List.map_congr_left fun i hi => eq_of_byteAt (n := 4) fun j hj => ?_
  have hin := List.mem_range.1 hi
  rw [byteAt_word _ _ hj, byteAt_word _ _ hj, h _ (by omega)]

theorem length_expandLoop (nk n i : Nat) (ws : List KeyWord) :
    (expandLoop nk n i ws).length = ws.length + n := by
  induction n generalizing i ws with
  | zero => rfl
  | succ n ih =>
    rw [expandLoop, ih, List.length_cons]
    omega

/-- The loop adds words and changes none. -/
theorem getD_reverse_expandLoop_of_lt (nk n i : Nat) {ws : List KeyWord} {j : Nat}
    (hj : j < ws.length) :
    (expandLoop nk n i ws).reverse.getD j 0 = ws.reverse.getD j 0 := by
  induction n generalizing i ws with
  | zero => rfl
  | succ n ih =>
    rw [expandLoop, ih _ (by rw [List.length_cons]; omega), List.reverse_cons,
      List.getD_append _ _ _ _ (by rw [List.length_reverse]; exact hj)]

/-- Every word the loop adds obeys the recurrence. -/
theorem getD_reverse_expandLoop {nk n i : Nat} {ws : List KeyWord} (hnk : 1 ≤ nk) (hi : nk ≤ i)
    (hws : ws.length = i) {j : Nat} (hij : i ≤ j) (hj : j < i + n) :
    (expandLoop nk n i ws).reverse.getD j 0 =
      (expandLoop nk n i ws).reverse.getD (j - nk) 0 ^^^
        keyTemp nk j ((expandLoop nk n i ws).reverse.getD (j - 1) 0) := by
  induction n generalizing i ws with
  | zero => omega
  | succ n ih =>
    rw [expandLoop]
    generalize hw : ws.getD (nk - 1) 0 ^^^ keyTemp nk i (ws.getD 0 0) = w
    have hlen : (w :: ws).length = i + 1 := by rw [List.length_cons, hws]
    rcases hij.eq_or_lt with rfl | hlt
    · have hold (k : Nat) (hk : k ≤ i) :
          (expandLoop nk n (i + 1) (w :: ws)).reverse.getD k 0 = (w :: ws).getD (i - k) 0 := by
        rw [getD_reverse_expandLoop_of_lt _ _ _ (by omega), List.getD_reverse _ (by omega), hlen,
          Nat.add_sub_cancel]
      rw [hold i le_rfl, hold (i - nk) (by omega), hold (i - 1) (by omega), Nat.sub_self,
        Nat.sub_sub_self hi, Nat.sub_sub_self (hnk.trans hi)]
      obtain ⟨m, rfl⟩ := Nat.exists_eq_add_of_le' hnk
      exact hw.symm
    · exact ih (by omega) hlen hlt (by omega)

theorem length_expandKey (nk : Nat) (key : KeyBits) :
    (expandKey nk key).length = 4 * (nk + 6 + 1) := by
  rw [expandKey_eq, List.length_reverse, length_expandLoop, List.length_reverse, length_keyWords]
  omega

theorem getD_expandKey_of_lt {nk i : Nat} (hi : i < nk) (key : KeyBits) :
    (expandKey nk key).getD i 0 = (keyWords nk key).getD i 0 := by
  rw [expandKey_eq, getD_reverse_expandLoop_of_lt _ _ _ (by simpa using hi), List.reverse_reverse]

theorem getD_expandKey {nk i : Nat} (hnk : 1 ≤ nk) (hi : nk ≤ i) (h : i < 4 * (nk + 6 + 1))
    (key : KeyBits) :
    (expandKey nk key).getD i 0 =
      (expandKey nk key).getD (i - nk) 0 ^^^ keyTemp nk i ((expandKey nk key).getD (i - 1) 0) := by
  rw [expandKey_eq]
  exact getD_reverse_expandLoop hnk le_rfl (by simp) hi (by omega)

theorem expandKey_congr {nk : Nat} {key key' : KeyBits}
    (h : ∀ j, j < 4 * nk → byteAt key j = byteAt key' j) : expandKey nk key = expandKey nk key' := by
  rw [expandKey_eq, expandKey_eq, keyWords_congr h]

/-- Settles O21: the loop keeps the words it has, the key's first, and each it adds obeys the recurrence. -/
theorem keyExpansionRecurrence : Obligations.KeyExpansionRecurrence := by
  refine ⟨fun nk key hnk => ⟨length_expandKey nk key, fun i j hi hj => ?_, fun i hi h => ?_⟩,
    fun t j hj => ⟨byteAt_rotWord t hj, byteAt_subWord t hj⟩,
    fun w r k j hk hj => byteAt_roundKey w r hk hj, rfl⟩
  · rw [getD_expandKey_of_lt hi, byteAt_getD_keyWords hi hj]
  · rw [getD_expandKey (by omega) hi h, BitVec.ofNat_toNat, keyTemp]

/-! ### The cipher (rule R122) -/

theorem aesRounds_succ (w : List KeyWord) (n : Nat) (st : Block) :
    aesRounds w (n + 1) st = aesRound (roundKey w (n + 1)) (aesRounds w n st) := by
  rw [aesRounds, List.range_succ, List.foldl_concat, aesRounds]

theorem aesCipher_eq (w : List KeyWord) (nr : Nat) (blk : Block) :
    aesCipher w nr blk =
      aesLastRound (roundKey w nr) (aesRounds w (nr - 1) (addRoundKey blk (roundKey w 0))) := by
  rw [aesCipher]

/-- Settles O22: the states are those of `aesRounds` from the block xored with round key 0. -/
theorem cipherRoundStructure : Obligations.CipherRoundStructure := by
  refine ⟨fun _ _ => ⟨rfl, rfl⟩, fun w nr blk _ =>
    ⟨fun r => aesRounds w r (addRoundKey blk (roundKey w 0)), rfl, fun r h1 _ => ?_,
      aesCipher_eq w nr blk⟩⟩
  obtain ⟨n, rfl⟩ := Nat.exists_eq_add_of_le' h1
  exact aesRounds_succ w n _

/-! ### The cipher is a bijection (rule R123) -/

theorem aesLastRound_injective (rk : Block) : Function.Injective (aesLastRound rk) :=
  (addRoundKey_injective rk).comp (shiftRows_injective.comp subBytes_injective)

theorem aesRound_injective (rk : Block) : Function.Injective (aesRound rk) :=
  (addRoundKey_injective rk).comp
    (mixColumns_injective.comp (shiftRows_injective.comp subBytes_injective))

theorem aesRounds_injective (w : List KeyWord) (n : Nat) : Function.Injective (aesRounds w n) := by
  induction n with
  | zero => exact fun _ _ h => h
  | succ n ih =>
    rw [funext (aesRounds_succ w n)]
    exact (aesRound_injective _).comp ih

/-- Every step is injective, whatever the round keys are. -/
theorem aesCipher_injective (w : List KeyWord) (nr : Nat) : Function.Injective (aesCipher w nr) := by
  rw [funext (aesCipher_eq w nr)]
  exact (aesLastRound_injective _).comp ((aesRounds_injective w _).comp (addRoundKey_injective _))

theorem blockEncrypt_eq (ksz : Bool) (key : KeyBits) :
    blockEncrypt ksz key =
      if ksz then aesCipher (expandKey 8 key) 14 else aesCipher (expandKey 4 key) 10 := by
  funext blk
  rw [blockEncrypt]
  cases ksz <;> rfl

/-- Settles O23: an injective map of the finitely many blocks to themselves is a bijection. -/
theorem cipherIsABijection : Obligations.CipherIsABijection := by
  intro ksz key
  rw [blockEncrypt_eq]
  split
  · exact (aesCipher_injective _ _).bijective_of_finite
  · exact (aesCipher_injective _ _).bijective_of_finite

/-! ### AES.ENC128 (rule R125) -/

theorem exec_aesEnc128 (s : State) :
    exec .aesEnc128 s = .next (s.setAesOut (aesEnc128 s.aesKey s.aesIn)) := rfl

/-- Bytes 16 to 31 of the key port have no part. -/
theorem aesEnc128_congr {key key' : KeyBits} (h : ∀ j, j < 16 → byteAt key j = byteAt key' j)
    (b : Block) : aesEnc128 key b = aesEnc128 key' b := by
  rw [aesEnc128, expandKey_congr h, aesEnc128]

/-- The all-zero corner case (V2.9). -/
theorem aesEnc128_zero :
    aesEnc128 0 0 = bits 128 [0x66, 0xe9, 0x4b, 0xd4, 0xef, 0x8a, 0x2c, 0x3b,
      0x88, 0x4c, 0xfa, 0x59, 0xca, 0x34, 0x2b, 0x2e] := by decide +kernel

/-- The example of the rule (V2.5). -/
theorem aesEnc128_example :
    aesEnc128
        (bits 256 [0x00, 0x01, 0x02, 0x03, 0x04, 0x05, 0x06, 0x07,
          0x08, 0x09, 0x0a, 0x0b, 0x0c, 0x0d, 0x0e, 0x0f])
        (bits 128 [0x00, 0x11, 0x22, 0x33, 0x44, 0x55, 0x66, 0x77,
          0x88, 0x99, 0xaa, 0xbb, 0xcc, 0xdd, 0xee, 0xff]) =
      bits 128 [0x69, 0xc4, 0xe0, 0xd8, 0x6a, 0x7b, 0x04, 0x30,
        0xd8, 0xcd, 0xb7, 0x80, 0x70, 0xb4, 0xc5, 0x5a] := by decide +kernel

/-- Settles O17: the cipher on the request, whose key enters by its first four words. -/
theorem aesEnc128EncryptsOneBlock : Obligations.AesEnc128EncryptsOneBlock :=
  ⟨exec_aesEnc128, rfl, aesEnc128_zero, aesEnc128_example, fun _ _ b h => aesEnc128_congr h b⟩

end Sys2Proof.Machine
end

section
/-! PROOFS of the statements of 41_polyval.md. The unit's three operations as functions of the state; the product with
a zero operand; and the input blocks of the HASH phase, one by one. -/

namespace Sys2Proof.Machine

/-! ### The product with a zero operand (rules R145, R146) -/

theorem fmul_zero_left (b : Block) : fmul 0 b = 0 := by
  have h := fmul_xor 0 0 b
  rwa [BitVec.xor_self, BitVec.xor_self] at h

/-- No bit of the second operand is set, so the loop adds nothing. -/
theorem fmulLoop_zero_right (n i : Nat) (r t : Block) : fmulLoop 0 n i r t = r := by
  induction n generalizing i r t with
  | zero => rfl
  | succ n ih =>
    rw [fmulLoop, ih]
    exact if_neg (by simp)

theorem fmul_zero_right (a : Block) : fmul a 0 = 0 := by
  rw [fmul, fmulLoop_zero_right]

theorem dot_zero_left (b : Block) : dot 0 b = 0 := by
  rw [dot_eq, fmul_zero_left, fmul_zero_left]

theorem dot_zero_right (a : Block) : dot a 0 = 0 := by
  rw [dot_eq, fmul_zero_right, fmul_zero_left]

/-! ### PV.ABSORB (rule R151) -/

theorem exec_pvAbsorb (s : State) :
    exec .pvAbsorb s = .next (s.setPolyS (dot (s.polyS ^^^ s.pvIn) s.polyH)) := rfl

/-- A zero block into a zero accumulator: the write puts back what S held. -/
theorem exec_pvAbsorb_zero {s : State} (hin : s.pvIn = 0) (hS : s.polyS = 0) :
    exec .pvAbsorb s = .next s := by
  have hdot : dot (s.polyS ^^^ s.pvIn) s.polyH = s.polyS := by
    rw [hin, hS, BitVec.xor_self]
    exact dot_zero_left _
  rw [exec_pvAbsorb, hdot, setPolyS_self]

/-- Under a zero key every block leaves S zero (rule R150). -/
theorem exec_pvAbsorb_zeroKey {s : State} (hH : s.polyH = 0) :
    exec .pvAbsorb s = .next (s.setPolyS 0) := by
  rw [exec_pvAbsorb, hH, dot_zero_right]

/-- Under the key 1 the blocks 1, 0 and 0, 1 hash differently. -/
theorem absorb_order_matters : dot (dot 1 1 ^^^ 0) 1 ≠ dot (dot 0 1 ^^^ 1) 1 := by decide +kernel

/-- Under the key 1 the block 1 absorbed twice leaves S nonzero. -/
theorem absorb_twice_ne_zero : dot (dot 1 1 ^^^ 1) 1 ≠ 0 := by decide +kernel

/-- The first block of the rule's example (V3.10). -/
theorem dot_example_first_block :
    dot (bits 128 [0x4f, 0x4f, 0x95, 0x66, 0x8c, 0x83, 0xdf, 0xb6,
          0x40, 0x17, 0x62, 0xbb, 0x2d, 0x01, 0xa2, 0x62])
        (bits 128 [0x25, 0x62, 0x93, 0x47, 0x58, 0x92, 0x42, 0x76,
          0x1d, 0x31, 0xf8, 0x26, 0xba, 0x4b, 0x75, 0x7b]) =
      bits 128 [0xce, 0xda, 0xc6, 0x45, 0x37, 0xff, 0x50, 0x98,
        0x9c, 0x16, 0x01, 0x15, 0x51, 0x08, 0x6d, 0x77] := by decide +kernel

/-- The second block of the rule's example, absorbed into the result of the first (V3.10). -/
theorem dot_example_second_block :
    dot (bits 128 [0xce, 0xda, 0xc6, 0x45, 0x37, 0xff, 0x50, 0x98,
          0x9c, 0x16, 0x01, 0x15, 0x51, 0x08, 0x6d, 0x77] ^^^
        bits 128 [0xd1, 0xa2, 0x4d, 0xdd, 0x27, 0x21, 0xd0, 0x06,
          0xbb, 0xe4, 0x5f, 0x20, 0xd3, 0xc9, 0xf3, 0x62])
        (bits 128 [0x25, 0x62, 0x93, 0x47, 0x58, 0x92, 0x42, 0x76,
          0x1d, 0x31, 0xf8, 0x26, 0xba, 0x4b, 0x75, 0x7b]) =
      bits 128 [0xf7, 0xa3, 0xb4, 0x7b, 0x84, 0x61, 0x19, 0xfa,
        0xe5, 0xb7, 0x86, 0x6c, 0xf5, 0xe5, 0xb7, 0x7e] := by decide +kernel

/-- Settles O28: the accumulator's product, which a zero first operand makes zero; the examples are evaluated. -/
theorem pvAbsorbMultipliesIntoS : Obligations.PvAbsorbMultipliesIntoS :=
  ⟨exec_pvAbsorb, rfl, fun _ hin hS => exec_pvAbsorb_zero hin hS, ⟨1, 1, 0, absorb_order_matters⟩,
    ⟨1, 1, absorb_twice_ne_zero⟩, dot_example_first_block, dot_example_second_block⟩

/-! ### PV.INIT and PV.READ (rules R150, R152) -/

theorem exec_pvInit (s : State) : exec .pvInit s = .next (pvInit s) := rfl

theorem exec_pvRead (s : State) : exec .pvRead s = .next (s.setPvOut s.polyS) := rfl

/-- Settles O27: the two register writes, and a product with a zero key. -/
theorem pvInitLoadsHAndClearsS : Obligations.PvInitLoadsHAndClearsS :=
  ⟨exec_pvInit, rfl, fun _ hH => exec_pvAbsorb_zeroKey hH⟩

/-- Settles O29: the response field alone is written, with the S that PV.INIT has just cleared. -/
theorem pvReadDeliversS : Obligations.PvReadDeliversS := by
  refine ⟨exec_pvRead, rfl, fun s t u hinit hread => ?_⟩
  rw [exec_pvInit] at hinit
  rw [exec_pvRead] at hread
  obtain rfl := Host.Outcome.next.inj hinit
  obtain rfl := Host.Outcome.next.inj hread
  rw [setPvOut_pvOut, pvInit_polyS]

/-! ### HASH (rules R154, R232) -/

theorem getD_hashBlocks {sp : Space} {L i : Nat} (h : i < blockCount L) (s : State) :
    (hashBlocks sp L s).getD i 0 = hashBlock sp L i s := by
  rw [List.getD_eq_getElem _ _ (by rwa [length_hashBlocks])]
  simp [hashBlocks]

theorem length_hashInput (s : State) :
    (hashInput s).length = blockCount s.lAad.toNat + blockCount s.lMsg.toNat + 1 := by
  simp [hashInput, Nat.add_assoc]

/-- The AAD's blocks come first. -/
theorem getD_hashInput_aad {s : State} {i : Nat} (h : i < blockCount s.lAad.toNat) :
    (hashInput s).getD i 0 = hashBlock .aadmem s.lAad.toNat i s := by
  rw [hashInput, List.append_assoc, List.getD_append _ _ _ _ (by rwa [length_hashBlocks]),
    getD_hashBlocks h]

/-- The message's blocks follow them. -/
theorem getD_hashInput_msg {s : State} {i : Nat} (h : i < blockCount s.lMsg.toNat) :
    (hashInput s).getD (blockCount s.lAad.toNat + i) 0 =
      hashBlock (messageSpace s) s.lMsg.toNat i s := by
  rw [hashInput, List.append_assoc, List.getD_append_right _ _ _ _ (by simp),
    length_hashBlocks, Nat.add_sub_cancel_left,
    List.getD_append _ _ _ _ (by rwa [length_hashBlocks]), getD_hashBlocks h]

/-- The length block is the last. -/
theorem getD_hashInput_last (s : State) :
    (hashInput s).getD (blockCount s.lAad.toNat + blockCount s.lMsg.toNat) 0 =
      lengthBlock s.lAad.toNat s.lMsg.toNat := by
  rw [hashInput, List.getD_append_right _ _ _ _ (by simp)]
  simp

/-- The phase writes H, S and PHASE: S is the input blocks absorbed from 0 under the key just loaded. -/
theorem hashPhase_eq_absorbAll (s : State) :
    hashPhase s =
      ((pvInit s).setPolyS (absorbAll s.authkey (hashInput s) 0)).setPhase .deriveTag := by
  rw [hashPhase, absorbBlocks_eq, pvInit_polyH, pvInit_polyS]

/-- Settles O30: a block of the sequence is a block of one of its three parts, and those are known byte by byte. -/
theorem hashAbsorbsTheInputBlocks : Obligations.HashAbsorbsTheInputBlocks := by
  refine fun s => ⟨length_hashInput s, fun i k hi hk => ?_, fun i k hi hk => ?_, ?_, fun hp => ?_⟩
  · rw [getD_hashInput_aad hi, byteAt_hashBlock _ _ _ _ _ hk]
  · exact (congrArg (byteAt · k) (getD_hashInput_msg hi)).trans (byteAt_hashBlock _ _ _ _ _ hk)
  · exact (getD_hashInput_last s).trans (by rw [lengthBlock])
  · exact (phaseStep_hash hp).trans (hashPhase_eq_absorbAll s)

end Sys2Proof.Machine
end

section
/-! PROOFS of the statements of 42_subkey_derivation.md. The bytes of the two derived keys for either key size, the AES
outputs they come from, and the two examples. -/

namespace Sys2Proof.Machine

/-! ### The derived keys byte by byte (rules R89, R172) -/

/-- The halves of `auth_key` are those of AES outputs 0 and 1. -/
theorem byteAt_deriveAuthKey {j : Nat} (hj : j < 16) (ksz : Bool) (key : KeyBits)
    (nonce : List Byte) :
    byteAt (deriveAuthKey ksz key nonce) j =
      byteAt (blockEncrypt ksz key (derivationBlock (j / 8) nonce)) (j % 8) := by
  rw [deriveAuthKey, byteAt_bits128 _ _ hj, getD_subkeyHalves _ _ _ _ _ _ hj, Nat.zero_add]

/-- `enc_key` starts at AES output 2 and is as long as the long-term key. -/
theorem byteAt_deriveEncKey {ksz : Bool} {j : Nat} (hj : j < if ksz then 32 else 16) (key : KeyBits)
    (nonce : List Byte) :
    byteAt (deriveEncKey ksz key nonce) j =
      byteAt (blockEncrypt ksz key (derivationBlock (2 + j / 8) nonce)) (j % 8) := by
  have hport : j < 32 := lt_of_lt_of_le hj (by split <;> omega)
  have hhalves : j < 8 * if ksz then 4 else 2 := by cases ksz <;> exact hj
  rw [deriveEncKey, byteAt_bits256 _ _ hport, getD_subkeyHalves _ _ _ _ _ _ hhalves]

/-- The two halves for a 16-byte key end before byte 16, and `bits` fills up with zeros. -/
theorem byteAt_deriveEncKey_false_high {j : Nat} (hlow : 16 ≤ j) (hj : j < 32) (key : KeyBits)
    (nonce : List Byte) : byteAt (deriveEncKey false key nonce) j = 0 := by
  rw [deriveEncKey, byteAt_bits256 _ _ hj, List.getD_eq_default _ _ (by simpa using hlow)]

/-- AES output `i` of a derivation, from what the two buffers hold (rules R176, R177). -/
theorem blockEncrypt_derivationBlock (ksz : Bool) (s : State) (i : Nat) :
    blockEncrypt ksz (keyOperand ksz s) (derivationBlock i (nonceOperand s)) =
      (if ksz then aesEnc256 else aesEnc128)
        (bits 256 (s.memRead .keybuf 0 (if ksz then 32 else 16)))
        (bits 128 (leBytes 4 i ++ s.memRead .noncebuf 0 12)) := by
  rw [blockEncrypt, keyOperand, derivationBlock, nonceOperand]
  cases ksz <;> rfl

/-! ### KDF.DERIVE128 (rule R176) -/

theorem exec_kdfDerive128 (s : State) :
    exec .kdfDerive128 s =
      .next (s.setKeys (deriveAuthKey false (keyOperand false s) (nonceOperand s))
        (deriveEncKey false (keyOperand false s) (nonceOperand s))) := rfl

/-- The example of the rule, its first key. -/
theorem deriveAuthKey_false_example :
    deriveAuthKey false (bits 256 [1, 0, 0, 0, 0, 0, 0, 0, 0, 0, 0, 0, 0, 0, 0, 0])
        [3, 0, 0, 0, 0, 0, 0, 0, 0, 0, 0, 0] =
      bits 128 [0xd9, 0xb3, 0x60, 0x27, 0x96, 0x94, 0x94, 0x1a,
        0xc5, 0xdb, 0xc6, 0x98, 0x7a, 0xda, 0x73, 0x77] := by decide +kernel

/-- The example of the rule, its second key. -/
theorem deriveEncKey_false_example :
    deriveEncKey false (bits 256 [1, 0, 0, 0, 0, 0, 0, 0, 0, 0, 0, 0, 0, 0, 0, 0])
        [3, 0, 0, 0, 0, 0, 0, 0, 0, 0, 0, 0] =
      bits 256 [0x40, 0x04, 0xa0, 0xdc, 0xd8, 0x62, 0xf2, 0xa5,
        0x73, 0x60, 0x21, 0x9d, 0x2d, 0x44, 0xef, 0x6c] := by decide +kernel

/-- Settles O32: each byte of the two keys is a byte of one AES output, and ENCKEY's upper half is beyond them. -/
theorem kdfDerive128FormsBothKeys : Obligations.KdfDerive128FormsBothKeys := by
  refine ⟨fun s => ⟨_, _, exec_kdfDerive128 s, fun j hj => ?_, fun j hj => ?_, fun j hlow hj =>
    byteAt_deriveEncKey_false_high hlow hj _ _⟩, rfl, fun s hkey hnonce => ?_⟩
  · rw [byteAt_deriveAuthKey hj, blockEncrypt_derivationBlock]
    rfl
  · rw [byteAt_deriveEncKey hj, blockEncrypt_derivationBlock]
    rfl
  · rw [exec_kdfDerive128, keyOperand, if_neg Bool.false_ne_true, hkey, nonceOperand, hnonce,
      deriveAuthKey_false_example, deriveEncKey_false_example, State.setKeys]

/-! ### KDF.DERIVE256 (rule R177) -/

theorem exec_kdfDerive256 (s : State) :
    exec .kdfDerive256 s =
      .next (s.setKeys (deriveAuthKey true (keyOperand true s) (nonceOperand s))
        (deriveEncKey true (keyOperand true s) (nonceOperand s))) := rfl

/-- The example of the rule, its first key. -/
theorem deriveAuthKey_true_example :
    deriveAuthKey true
        (bits 256 [1, 0, 0, 0, 0, 0, 0, 0, 0, 0, 0, 0, 0, 0, 0, 0,
          0, 0, 0, 0, 0, 0, 0, 0, 0, 0, 0, 0, 0, 0, 0, 0])
        [3, 0, 0, 0, 0, 0, 0, 0, 0, 0, 0, 0] =
      bits 128 [0xb5, 0xd3, 0xc5, 0x29, 0xdf, 0xaf, 0xac, 0x43,
        0x13, 0x6d, 0x2d, 0x11, 0xbe, 0x28, 0x4d, 0x7f] := by decide +kernel

/-- The example of the rule, its second key. -/
theorem deriveEncKey_true_example :
    deriveEncKey true
        (bits 256 [1, 0, 0, 0, 0, 0, 0, 0, 0, 0, 0, 0, 0, 0, 0, 0,
          0, 0, 0, 0, 0, 0, 0, 0, 0, 0, 0, 0, 0, 0, 0, 0])
        [3, 0, 0, 0, 0, 0, 0, 0, 0, 0, 0, 0] =
      bits 256 [0xb9, 0x14, 0xf4, 0x74, 0x2b, 0xe9, 0xe1, 0xd7,
        0xa2, 0xf8, 0x4a, 0xdd, 0xbf, 0x96, 0xde, 0xc3,
        0x45, 0x6e, 0x3c, 0x6c, 0x05, 0xec, 0xc1, 0x57,
        0xcd, 0xbf, 0x07, 0x00, 0xfe, 0xda, 0xd2, 0x22] := by decide +kernel

/-- Settles O33: each byte of the two keys is a byte of one AES output. -/
theorem kdfDerive256FormsBothKeys : Obligations.KdfDerive256FormsBothKeys := by
  refine ⟨fun s => ⟨_, _, exec_kdfDerive256 s, fun j hj => ?_, fun j hj => ?_⟩, rfl,
    fun s hkey hnonce => ?_⟩
  · rw [byteAt_deriveAuthKey hj, blockEncrypt_derivationBlock]
    rfl
  · rw [byteAt_deriveEncKey hj, blockEncrypt_derivationBlock]
    rfl
  · rw [exec_kdfDerive256, keyOperand, if_pos rfl, hkey, nonceOperand, hnonce,
      deriveAuthKey_true_example, deriveEncKey_true_example, State.setKeys]

end Sys2Proof.Machine
end

section
/-! PROOFS of the statements of 43_ctr_keystream.md. CTR.INIT and CTR.NEXT as functions of the state: the starting
counter block of a seed, one advance of the counter, and the examples of the two rules. -/

namespace Sys2Proof.Machine

/-! ### CTR.INIT (rule R193) -/

theorem exec_ctrInit (s : State) :
    exec .ctrInit s = .next (s.setCb (counterStart s.ctrSeed)) := rfl

theorem byte_or_topBit_of_getLsbD : ∀ b : Byte, b.getLsbD 7 = true → b ||| 0x80#8 = b := by
  decide

/-- The corner case of the rule: byte 15 is the only one the start touches, and there it sets a bit that is set. -/
theorem counterStart_eq_self {t : Block} (h : (byteAt t 15).getLsbD 7 = true) :
    counterStart t = t := by
  apply block_ext
  intro k hk
  rw [byteAt_counterStart t k hk]
  split
  · next h15 => rw [h15, byte_or_topBit_of_getLsbD _ h]
  · rfl

/-- The example of the rule. -/
theorem counterStart_example :
    counterStart (bits 128 [0x57, 0x87, 0x82, 0xff, 0xf6, 0x01, 0x3b, 0x81,
        0x5b, 0x28, 0x7c, 0x22, 0x49, 0x3a, 0x36, 0x4c]) =
      bits 128 [0x57, 0x87, 0x82, 0xff, 0xf6, 0x01, 0x3b, 0x81,
        0x5b, 0x28, 0x7c, 0x22, 0x49, 0x3a, 0x36, 0xcc] := by decide +kernel

/-- Settles O34: CB alone is written, and the starting block differs from the seed in bit 7 of byte 15 at most. -/
theorem ctrInitSetsTheTopBit : Obligations.CtrInitSetsTheTopBit := by
  refine ⟨fun s => ⟨_, exec_ctrInit s, fun k hk => ?_, ?_, counterStart_eq_self⟩, rfl,
    counterStart_example⟩
  · rw [byteAt_counterStart _ k (by omega), if_neg (by omega)]
  · rw [byteAt_counterStart _ 15 (by omega), if_pos rfl]

/-! ### CTR.NEXT (rules R194, R195) -/

theorem exec_ctrNext (s : State) :
    exec .ctrNext s =
      .next (s.setCtr (if s.ksz then aesEnc256 s.enckey s.cb else aesEnc128 s.enckey s.cb)
        (counterStep s.cb)) := by
  rw [← blockEncrypt]
  rfl

/-- Bytes 0 to 3, as a little-endian integer, go up by one modulo 2^32 (rule R195). -/
theorem leInt_counterStep (c : Block) :
    leInt (bytesOf 4 (counterStep c)) = (leInt (bytesOf 4 c) + 1) % 2 ^ 32 := by
  rw [leInt_bytesOf, leInt_bytesOf, counterStep_toNat]
  omega

/-- The example of rule R194: the keystream block. -/
theorem keystream_example :
    aesEnc128 (bits 256 [0x40, 0x04, 0xa0, 0xdc, 0xd8, 0x62, 0xf2, 0xa5,
          0x73, 0x60, 0x21, 0x9d, 0x2d, 0x44, 0xef, 0x6c])
        (bits 128 [0x57, 0x87, 0x82, 0xff, 0xf6, 0x01, 0x3b, 0x81,
          0x5b, 0x28, 0x7c, 0x22, 0x49, 0x3a, 0x36, 0xcc]) =
      bits 128 [0xb4, 0xd8, 0x39, 0x33, 0x0a, 0xc7, 0xb7, 0x86,
        0xa7, 0x79, 0x52, 0x3a, 0x09, 0x9c, 0xa5, 0x98] := by decide +kernel

/-- The example of rule R194: the counter block after it. -/
theorem counterStep_example :
    counterStep (bits 128 [0x57, 0x87, 0x82, 0xff, 0xf6, 0x01, 0x3b, 0x81,
        0x5b, 0x28, 0x7c, 0x22, 0x49, 0x3a, 0x36, 0xcc]) =
      bits 128 [0x58, 0x87, 0x82, 0xff, 0xf6, 0x01, 0x3b, 0x81,
        0x5b, 0x28, 0x7c, 0x22, 0x49, 0x3a, 0x36, 0xcc] := by decide +kernel

/-- The example of rule R195: from `ff ff ff ff` the counter wraps, and byte 4 takes no carry. -/
theorem counterStep_wrap_example :
    counterStep (bits 128 [0xff, 0xff, 0xff, 0xff, 0x01, 0x02, 0x03, 0x04,
        0x05, 0x06, 0x07, 0x08, 0x09, 0x0a, 0x0b, 0xff]) =
      bits 128 [0x00, 0x00, 0x00, 0x00, 0x01, 0x02, 0x03, 0x04,
        0x05, 0x06, 0x07, 0x08, 0x09, 0x0a, 0x0b, 0xff] := by decide +kernel

/-- Settles O35: KS and CB alone are written, and the advance of CB counts in bytes 0 to 3 with no carry out. -/
theorem ctrNextEncryptsAndAdvances : Obligations.CtrNextEncryptsAndAdvances := by
  refine ⟨fun s => ⟨_, exec_ctrNext s, leInt_counterStep s.cb, fun k h4 _ =>
    byteAt_counterStep_high h4 s.cb⟩, rfl, fun s hksz hkey hcb => ?_, counterStep_wrap_example⟩
  have hks := (congrArg₂ aesEnc128 hkey hcb).trans keystream_example
  have hnext := (congrArg counterStep hcb).trans counterStep_example
  rw [exec_ctrNext, if_neg (Bool.eq_false_iff.mp hksz), hks, hnext, State.setCtr]

end Sys2Proof.Machine
end

section
/-! PROOFS of the statements of 44_aead_orchestrator.md. The order of the phases as iterates of a successor function;
DERIVE_TAG; and KEYSTREAM register by register and byte by byte. -/

namespace Sys2Proof.Machine

/-! ### The order of the phases (rules R228, R229, R231) -/

/-- The successor of each phase in a command of direction `d` that raises nothing in INIT (rule R231). -/
def successor (d : Bool) : Phase → Phase
  | .idle => .idle
  | .init => if d then .keystream else .hash
  | .hash => .deriveTag
  | .deriveTag => if d then .finalize else .keystream
  | .keystream => if d then .hash else .finalize
  | .finalize => .idle

/-- The command of `s` is over, or it has the direction `d` and INIT, where it is still to come, raises nothing. DIR counts
only before IDLE, because FINALIZE clears it. -/
def OnCourse (d : Bool) (s : State) : Prop :=
  s.phase = .idle ∨ s.dir = d ∧ (s.phase = .init → initError s = none)

theorem finalizePhase_phase (s : State) : (finalizePhase s).phase = .idle := rfl

theorem deriveTagPhase_phase (s : State) :
    (deriveTagPhase s).phase = if s.dir then .finalize else .keystream := by
  cases hd : s.dir with
  | false => rw [deriveTagPhase_encrypt hd]; rfl
  | true => exact deriveTagPhase_phase_decrypt hd

theorem phaseStep_phase {d : Bool} {s : State} (h : OnCourse d s) :
    (phaseStep s).phase = successor d s.phase := by
  obtain hp | ⟨rfl, hi⟩ := h
  · rw [phaseStep_idle hp, hp, successor]
  · cases hp : s.phase with
    | idle => rw [phaseStep_idle hp, hp, successor]
    | init => rw [phaseStep_init hp, initPhase_phase (hi hp), successor]
    | hash => rw [phaseStep_hash hp, hashPhase_phase, successor]
    | deriveTag => rw [phaseStep_deriveTag hp, deriveTagPhase_phase, successor]
    | keystream => rw [phaseStep_keystream hp, keystreamPhase_phase, successor]
    | finalize => rw [phaseStep_finalize hp, finalizePhase_phase, successor]

/-- No phase leads back to INIT. -/
theorem successor_ne_init (d : Bool) (p : Phase) : successor d p ≠ .init := by
  cases d <;> cases p <;> decide

theorem phaseStep_keeps_onCourse {d : Bool} {s : State} (h : OnCourse d s) :
    OnCourse d (phaseStep s) := by
  have hs := phaseStep_phase h
  obtain hp | ⟨hd, -⟩ := h
  · exact .inl ((phaseStep_idle hp).symm ▸ hp)
  · by_cases hf : s.phase = .finalize
    · exact .inl (by rw [hs, hf, successor])
    · exact .inr ⟨(phaseStep_dir hf).trans hd, fun hi => absurd (hs ▸ hi) (successor_ne_init d _)⟩

/-- The phases visited are the iterates of the successor function. -/
theorem runPhases_phase {d : Bool} (n : Nat) {s : State} (h : OnCourse d s) :
    (runPhases n s).phase = (successor d)^[n] s.phase := by
  induction n generalizing s with
  | zero => rfl
  | succ n ih =>
    rw [runPhases, ih (phaseStep_keeps_onCourse h), phaseStep_phase h, Function.iterate_succ_apply]

/-- The phases of a command that INIT raises nothing on. -/
theorem runPhases_acceptCommand_phase {d : Bool} {s : State}
    (h : initError (acceptCommand d s) = none) (n : Nat) :
    (runPhases n (acceptCommand d s)).phase = (successor d)^[n] .init :=
  runPhases_phase n (.inr ⟨acceptCommand_dir d s, fun _ => h⟩)

/-- Settles O42: the first six iterates of the successor function, for either direction. -/
theorem phaseOrderOfEachCommand : Obligations.PhaseOrderOfEachCommand := by
  refine ⟨fun s h => ?_, fun s h => ?_⟩
  · simp only [runPhases_acceptCommand_phase (initError_encrypt h)]
    decide
  · simp only [runPhases_acceptCommand_phase (initError_decrypt h)]
    decide

/-! ### DERIVE_TAG (rule R240) -/

/-- Byte `j` of the nonce operand is byte `j` of NONCEBUF. -/
theorem getD_nonceOperand {j : Nat} (h : j < 12) (s : State) :
    (nonceOperand s).getD j 0 = s.peek .noncebuf j := by
  rw [nonceOperand, getD_memRead _ _ _ _ _ h, Nat.zero_add]

/-- Settles O44: the tag input byte by byte, and the phase outcome by outcome. -/
theorem deriveTagEncryptsTheTagInput : Obligations.DeriveTagEncryptsTheTagInput := by
  intro s hp
  refine ⟨tagInput s.polyS (nonceOperand s), tagOf s, fun j hj => ?_, fun j h12 h15 => ?_, ?_, ?_,
    fun hd => ?_, fun hd htag => ?_, fun hd htag => ?_⟩
  · rw [byteAt_tagInput (by omega), if_pos hj, getD_nonceOperand hj]
  · rw [byteAt_tagInput (by omega), if_neg (by omega), if_neg (by omega)]
  · rw [byteAt_tagInput (by omega), if_neg (by omega), if_pos rfl]
  · rw [tagOf, blockEncrypt]
  · rw [phaseStep_deriveTag hp, deriveTagPhase_encrypt hd]
    rfl
  · rw [phaseStep_deriveTag hp, deriveTagPhase_decrypt hd, if_pos htag]
    rfl
  · rw [phaseStep_deriveTag hp, deriveTagPhase_decrypt hd, if_neg htag]
    rfl

/-! ### KEYSTREAM (rules R197, R244) -/

theorem blockCount_toNat_eq_zero_iff (L : Length) : blockCount L.toNat = 0 ↔ L = 0 := by
  rw [blockCount]
  bv_omega

/-- KS after a whole pass: the last counter block encrypted, or the old KS when the message is empty. -/
theorem keystreamAfter_ctrInit (t : Block) (L : Length) (s : State) :
    keystreamAfter (blockCount L.toNat) (ctrInit t s) =
      if L = 0 then s.ks
      else blockEncrypt s.ksz s.enckey (counterBlock t (blockCount L.toNat - 1)) := by
  simp only [keystreamAfter, blockCount_toNat_eq_zero_iff, ← counterAfter_eq_counterBlock]
  rfl

/-- A whole pass in the counter blocks of rule R87: CB stands one past the last, and beside KS only WORK changes. -/
theorem keystreamPass_eq (t : Block) (L : Length) (s : State) :
    ∃ m, keystreamPass t L.toNat s =
      (s.setCtr
        (if L = 0 then s.ks
          else blockEncrypt s.ksz s.enckey (counterBlock t (blockCount L.toNat - 1)))
        (counterBlock t (blockCount L.toNat))).setMem .work m := by
  obtain ⟨m, hm⟩ := (keystreamPass_spec t L.toNat s).shape
  refine ⟨m, hm.trans ?_⟩
  rw [keystreamAfter_ctrInit, ← counterAfter_eq_counterBlock t (blockCount L.toNat)]
  rfl

/-- A pass over `L` bytes leaves the rest of WORK. -/
theorem peek_keystreamPass_beyond (t : Block) {L a : Nat} (h : L ≤ a) (s : State) :
    (keystreamPass t L s).peek .work a = s.peek .work a := by
  rw [(keystreamPass_spec t L s).rest a (by omega), ctrInit, peek_setCb]

/-- Settles O45: the phase is one keystream pass and a write of PHASE. -/
theorem keystreamPhaseWritesWork : Obligations.KeystreamPhaseWritesWork := by
  intro s t hp ht
  have hstep : phaseStep s = (keystreamPass t s.lMsg.toNat s).setPhase
      (if s.dir then .hash else .finalize) := by
    rw [phaseStep_keystream hp, keystreamPhase, ← ht]
  obtain ⟨m, hpass⟩ := keystreamPass_eq t s.lMsg s
  simp only [hstep, peek_setPhase]
  refine ⟨m, fun j => blockEncrypt s.ksz s.enckey (counterBlock t j), fun j => ?_, ?_, fun a ha => ?_,
    fun a ha => peek_keystreamPass_beyond t ha s⟩
  · beta_reduce
    rw [blockEncrypt]
  · simp only [hpass, State.setMem, State.setCtr, State.setPhase]
  · rw [peek_keystreamPass _ _ _ _ ha, keystreamByte]

end Sys2Proof.Machine
end

section
/-! PROOFS of the statements of 60_exceptions.md. What a raised error comes to; and that a command which reports an
error ends in the state it was issued in, but for its result and the zeroization. -/

namespace Sys2Proof.Machine

/-! ### Raising an error (rules R281, R292) -/

/-- The DONE and ERROR bits do not overlap the code: rule R250's `or` is a sum. -/
theorem statusFailure_eq_ofNat :
    ∀ c : BitVec 4, statusFailure c = BitVec.ofNat 32 (6 + 16 * c.toNat) := by decide

/-- Settles O48: FINALIZE of a raised error is the end of the command with the STATUS of its code. -/
theorem raiseLeadsToFinalizeAndIdle : Obligations.RaiseLeadsToFinalizeAndIdle := by
  intro k s
  refine ⟨rfl, ?_, ?_⟩
  · rw [phaseStep_raise, statusFailure_eq_ofNat]
  · cases k <;> rfl

/-! ### A failed command (rule R294) -/

/-- A command that answers a next state runs to its end. -/
theorem eq_runCommand_of_exec_encrypt {s t : State} (h : exec .encrypt s = .next t) :
    t = runCommand false s := by
  cases hb : s.busy with
  | false => exact Host.Outcome.next.inj (h.symm.trans (exec_encrypt hb))
  | true => cases h.symm.trans (if_pos hb)

theorem eq_runCommand_of_exec_decrypt {s t : State} (h : exec .decrypt s = .next t) :
    t = runCommand true s := by
  cases hb : s.busy with
  | false => exact Host.Outcome.next.inj (h.symm.trans (exec_decrypt hb))
  | true => cases h.symm.trans (if_pos hb)

theorem statusError_endCommand_success (n : Length) (s : State) :
    statusError (endCommand n statusSuccess s).status ≠ true := by
  rw [endCommand_status, statusError_statusSuccess]
  exact Bool.false_ne_true

/-- A command that reports an error got it from INIT or from the comparison of the tags, and neither has written
OUTMEM. -/
theorem runCommand_of_statusError {d : Bool} {s : State}
    (h : statusError (runCommand d s).status = true) :
    ∃ k : ErrorKind, runCommand d s = endCommand 0 (statusFailure k.code) s := by
  cases hi : initError (acceptCommand d s) with
  | some k => exact ⟨k, runCommand_raise hi⟩
  | none =>
    cases d with
    | false =>
      rw [runCommand_encrypt hi] at h
      exact absurd h (statusError_endCommand_success _ _)
    | true =>
      rw [runCommand_decrypt hi] at h ⊢
      generalize openMessage s.keyIs32 s.inputKey (nonceOperand s) s.inputMsg s.inputAad = opened at h ⊢
      cases opened with
      | some pt => exact absurd h (statusError_endCommand_success _ _)
      | none => exact ⟨.authenticationFailure, rfl⟩

/-- Settles O52: all that the command leaves is what `endCommand` leaves of the state it was issued in. -/
theorem failedCommandReleasesNothing : Obligations.FailedCommandReleasesNothing := by
  intro s t hexec herr
  obtain ⟨d, rfl⟩ : ∃ d, t = runCommand d s :=
    hexec.elim (fun h => ⟨_, eq_runCommand_of_exec_encrypt h⟩)
      (fun h => ⟨_, eq_runCommand_of_exec_decrypt h⟩)
  obtain ⟨k, hk⟩ := runCommand_of_statusError herr
  rw [hk]
  exact ⟨endCommand_outlen .., fun a => peek_endCommand _ _ s .outmem a (by decide),
    peek_endCommand_work _ _ s, endCommand_ks .., endCommand_cb .., endCommand_polyS ..,
    endCommand_polyH .., endCommand_authkey .., endCommand_enckey ..⟩

end Sys2Proof.Machine
end

section
/-! PROOFS of the statements about codes and single operations (30_encoding.md, 10_state.md section 4, 40_aes_core.md
section 6). The twelve codes and their decoders, which operation a code placed in front runs, what BUSY refuses,
and AES.ENC256. -/

namespace Sys2Proof.Machine

/-! ### The codes (rules R80, R81) -/

/-- Settles O1: the decoder evaluated at each row of the table. -/
theorem codesDecodeAsTheTableSays : Obligations.CodesDecodeAsTheTableSays := by
  unfold Obligations.CodesDecodeAsTheTableSays
  decide

theorem codeRoundTrip (i : Instr) : Laws.CodeRoundTrip.Statement i := by
  cases i with
  | encrypt => exact Laws.CodeRoundTrip.encrypt
  | decrypt => exact Laws.CodeRoundTrip.decrypt
  | aesEnc128 => exact Laws.CodeRoundTrip.aesEnc128
  | aesEnc256 => exact Laws.CodeRoundTrip.aesEnc256
  | pvInit => exact Laws.CodeRoundTrip.pvInit
  | pvAbsorb => exact Laws.CodeRoundTrip.pvAbsorb
  | pvRead => exact Laws.CodeRoundTrip.pvRead
  | kdfDerive128 => exact Laws.CodeRoundTrip.kdfDerive128
  | kdfDerive256 => exact Laws.CodeRoundTrip.kdfDerive256
  | ctrInit => exact Laws.CodeRoundTrip.ctrInit
  | ctrNext => exact Laws.CodeRoundTrip.ctrNext
  | ctrXor => exact Laws.CodeRoundTrip.ctrXor

theorem decodeCode_encodeCode (i : Instr) : decodeCode (encodeCode i) = .ok i := by
  cases i <;> rfl

/-- A code that decodes is the code of its operation, by the 256 codes. -/
theorem encodeCode_of_mem_decodeCode :
    ∀ c : BitVec 8, ∀ i ∈ (decodeCode c).toOption, encodeCode i = c := by decide

/-- Settles O2: the round trip of each operation, and the 256 codes. -/
theorem decodeAndEncodeAgree : Obligations.DecodeAndEncodeAgree := by
  refine ⟨fun i rest _ => ?_, fun c i h => encodeCode_of_mem_decodeCode c i ?_⟩
  · obtain ⟨hdecode, -, -⟩ := codeRoundTrip i
    exact hdecode rest
  · rw [h]
    rfl

/-! ### CMD (rules R90, R92) -/

theorem decodeCmd_eq : ∀ v : BitVec 8,
    decodeCmd v = if v = 0x01#8 then some .encrypt else if v = 0x02#8 then some .decrypt else none := by
  decide

theorem decodeCmd_eq_none {v : BitVec 8} (h1 : v ≠ 0x01#8) (h2 : v ≠ 0x02#8) : decodeCmd v = none := by
  rw [decodeCmd_eq, if_neg h1, if_neg h2]

/-- CMD knows the two commands alone. -/
theorem eq_encrypt_or_decrypt_of_decodeCmd {v : BitVec 8} {i : Instr} (h : decodeCmd v = some i) :
    i = .encrypt ∨ i = .decrypt := by
  rw [decodeCmd_eq] at h
  split at h
  · exact .inl (Option.some.inj h).symm
  · split at h
    · exact .inr (Option.some.inj h).symm
    · cases h

theorem hostWriteCmd_of_decodeCmd_none {v : BitVec 8} (h : decodeCmd v = none) (s : State) :
    hostWriteCmd v s = .refused (.reservedCommand v) := by
  rw [hostWriteCmd, h]

/-- Settles O3: CMD's decoder by the 256 values, and the refusal of what it does not know. -/
theorem cmdKnowsTwoCodesAndRefusesTheRest : Obligations.CmdKnowsTwoCodesAndRefusesTheRest := by
  refine ⟨decodeCmd_eq, fun s v hb h1 h2 => ?_⟩
  rw [hostMove_writeCmd hb, hostWriteCmd_of_decodeCmd_none (decodeCmd_eq_none h1 h2)]

/-! ### A code placed in front (log 3) -/

theorem issueOf_encodeCode_unit {i : Instr} (h : hostIssuable i = false) :
    issueOf (encodeCode i) = .unit (encodeCode i) := by
  cases i with
  | encrypt | decrypt => cases h
  | aesEnc128 | aesEnc256 | pvInit | pvAbsorb | pvRead | kdfDerive128 | kdfDerive256 | ctrInit | ctrNext
  | ctrXor => rfl

theorem issueOf_encodeCode_command {i : Instr} (h : hostIssuable i = true) :
    issueOf (encodeCode i) = .host (.writeCmd (encodeCode i)) := by
  cases i with
  | encrypt | decrypt => rfl
  | aesEnc128 | aesEnc256 | pvInit | pvAbsorb | pvRead | kdfDerive128 | kdfDerive256 | ctrInit | ctrNext
  | ctrXor => cases h

theorem decodeUnitCode_encodeCode {i : Instr} (h : hostIssuable i = false) :
    decodeUnitCode (encodeCode i) = some i := by
  simp only [decodeUnitCode, decodeCode_encodeCode, h, Bool.false_eq_true, if_false]

theorem decodeCmd_encodeCode {i : Instr} (h : hostIssuable i = true) :
    decodeCmd (encodeCode i) = some i := by
  simp only [decodeCmd, decodeCode_encodeCode, h, if_true]

theorem withFetchWord_encodeCode (s : State) (i : Instr) :
    s.withFetchWord 8 (encodeCode i).toNat = s.setPending (issueOf (encodeCode i) :: s.pending) := by
  rw [State.withFetchWord, BitVec.ofNat_toNat, BitVec.setWidth_eq]

/-- Taking the entry off the list again leaves the state it was put in. -/
theorem setPending_setPending_pending (s : State) (l : List Issue) :
    (s.setPending l).setPending s.pending = s := rfl

theorem step_withFetchWord_unit {i : Instr} (h : hostIssuable i = false) (s : State) :
    step (s.withFetchWord 8 (encodeCode i).toNat) = exec i s := by
  rw [withFetchWord_encodeCode, issueOf_encodeCode_unit h, step_of_unit (setPending_pending ..),
    setPending_setPending_pending, unitRequest_of_decodeUnitCode (decodeUnitCode_encodeCode h)]

theorem step_withFetchWord_command {i : Instr} {s : State} (h : hostIssuable i = true)
    (hp : s.phase = .idle) (hb : s.busy = false) :
    step (s.withFetchWord 8 (encodeCode i).toNat) = exec i s := by
  rw [withFetchWord_encodeCode, issueOf_encodeCode_command h, step_of_host (setPending_pending ..) (.inr hp),
    setPending_setPending_pending, hostMove_writeCmd hb, hostWriteCmd_of_decodeCmd (decodeCmd_encodeCode h)]

/-- Settles O5: the placed entry is a unit request or a CMD write, and either runs what its code decodes to. -/
theorem fetchedWordRunsNext : Obligations.FetchedWordRunsNext := by
  refine ⟨fun s i h => step_withFetchWord_unit h s, fun s i hp hb => ?_⟩
  cases h : hostIssuable i with
  | false => exact step_withFetchWord_unit h s
  | true => exact step_withFetchWord_command h hp hb

/-! ### BUSY (rule R31) -/

/-- Settles O16: the guard of every access, and of the two commands. -/
theorem hostAccessWhileBusyIsRefused : Obligations.HostAccessWhileBusyIsRefused :=
  fun _ hb => ⟨fun _ hm => hostMove_of_busy hb hm, if_pos hb, if_pos hb⟩

/-! ### AES.ENC256 (rule R126) -/

theorem exec_aesEnc256 (s : State) :
    exec .aesEnc256 s = .next (s.setAesOut (aesEnc256 s.aesKey s.aesIn)) := rfl

/-- The all-zero corner case. -/
theorem aesEnc256_zero :
    aesEnc256 0 0 = bits 128 [0xdc, 0x95, 0xc0, 0x78, 0xa2, 0x40, 0x89, 0x89,
      0xad, 0x48, 0xa2, 0x14, 0x92, 0x84, 0x20, 0x87] := by decide +kernel

/-- The example of the rule. -/
theorem aesEnc256_example :
    aesEnc256
        (bits 256 [0x00, 0x01, 0x02, 0x03, 0x04, 0x05, 0x06, 0x07,
          0x08, 0x09, 0x0a, 0x0b, 0x0c, 0x0d, 0x0e, 0x0f,
          0x10, 0x11, 0x12, 0x13, 0x14, 0x15, 0x16, 0x17,
          0x18, 0x19, 0x1a, 0x1b, 0x1c, 0x1d, 0x1e, 0x1f])
        (bits 128 [0x00, 0x11, 0x22, 0x33, 0x44, 0x55, 0x66, 0x77,
          0x88, 0x99, 0xaa, 0xbb, 0xcc, 0xdd, 0xee, 0xff]) =
      bits 128 [0x8e, 0xa2, 0xb7, 0xca, 0x51, 0x67, 0x45, 0xbf,
        0xea, 0xfc, 0x49, 0x90, 0x4b, 0x49, 0x60, 0x89] := by decide +kernel

/-- Settles O18: the cipher on the request, and the two evaluated cases. -/
theorem aesEnc256EncryptsOneBlock : Obligations.AesEnc256EncryptsOneBlock :=
  ⟨exec_aesEnc256, rfl, aesEnc256_zero, aesEnc256_example⟩

end Sys2Proof.Machine
end

section
/-! PROOFS of the statements about the POLYVAL field (41_polyval.md section 2). Multiplication and division by x undo
each other; the plain product is commutative and associative, because multiplication by a fixed element is additive
and commutes with multiplication by x; the laws of `dot`; and the bit-serial form as a product divided by x 128
times. -/

namespace Sys2Proof.Machine

/-! ### Multiplication and division by x (rules R143, R144) -/

theorem mulx_of_false {a : Block} (h : a.getLsbD 127 = false) : mulx a = a <<< 1 :=
  if_neg (Bool.eq_false_iff.1 h)

theorem mulx_of_true {a : Block} (h : a.getLsbD 127 = true) : mulx a = (a <<< 1) ^^^ polyR128 :=
  if_pos h

theorem divx_of_false {a : Block} (h : a.getLsbD 0 = false) : divx a = a >>> 1 :=
  if_neg (Bool.eq_false_iff.1 h)

theorem divx_of_true {a : Block} (h : a.getLsbD 0 = true) : divx a = (a >>> 1) ^^^ polyRHalf :=
  if_pos h

/-- Shifting left and back loses bit 127 alone. -/
theorem shiftLeft_shiftRight_one (a : Block) :
    (a <<< 1) >>> 1 = a ^^^ (if a.getLsbD 127 then BitVec.twoPow 128 127 else 0#128) := by
  apply BitVec.eq_of_getLsbD_eq
  intro i hi
  rw [BitVec.getLsbD_ushiftRight, BitVec.getLsbD_shiftLeft, BitVec.getLsbD_xor]
  by_cases h : i = 127
  · subst h
    cases a.getLsbD 127 <;> decide
  · have hlt : 1 + i < 128 := by omega
    have hne : 127 ≠ i := Ne.symm h
    cases a.getLsbD 127 <;> simp [hlt, hne, BitVec.getLsbD_twoPow]

/-- Shifting right and back loses bit 0 alone. -/
theorem shiftRight_shiftLeft_one (a : Block) :
    (a >>> 1) <<< 1 = a ^^^ (if a.getLsbD 0 then 1#128 else 0#128) := by
  apply BitVec.eq_of_getLsbD_eq
  intro i hi
  rw [BitVec.getLsbD_shiftLeft, BitVec.getLsbD_ushiftRight, BitVec.getLsbD_xor]
  cases i with
  | zero => cases a.getLsbD 0 <;> simp
  | succ i => cases a.getLsbD 0 <;> simp [hi, Nat.add_comm]

theorem divx_mulx (a : Block) : divx (mulx a) = a := by
  cases h : a.getLsbD 127 with
  | false =>
    have hbit : (a <<< 1).getLsbD 0 = false := by simp
    rw [mulx_of_false h, divx_of_false hbit, shiftLeft_shiftRight_one, h]
    exact BitVec.xor_zero
  | true =>
    have hbit : ((a <<< 1) ^^^ polyR128).getLsbD 0 = true := by simp [polyR128]
    have hconst : BitVec.twoPow 128 127 ^^^ (polyR128 >>> 1 ^^^ polyRHalf) = 0#128 := by decide
    rw [mulx_of_true h, divx_of_true hbit, BitVec.ushiftRight_xor_distrib, shiftLeft_shiftRight_one, h,
      if_pos rfl, BitVec.xor_assoc, BitVec.xor_assoc, hconst, BitVec.xor_zero]

theorem mulx_divx (a : Block) : mulx (divx a) = a := by
  cases h : a.getLsbD 0 with
  | false =>
    have hbit : (a >>> 1).getLsbD 127 = false := by simp
    rw [divx_of_false h, mulx_of_false hbit, shiftRight_shiftLeft_one, h]
    exact BitVec.xor_zero
  | true =>
    have hbit : ((a >>> 1) ^^^ polyRHalf).getLsbD 127 = true := by simp [polyRHalf]
    have hconst : 1#128 ^^^ (polyRHalf <<< 1 ^^^ polyR128) = 0#128 := by decide
    rw [divx_of_true h, mulx_of_true hbit, BitVec.shiftLeft_xor_distrib, shiftRight_shiftLeft_one, h,
      if_pos rfl, BitVec.xor_assoc, BitVec.xor_assoc, hconst, BitVec.xor_zero]

theorem polyR128_eq_ofNat : polyR128 = BitVec.ofNat 128 (2 ^ 127 + 2 ^ 126 + 2 ^ 121 + 1) := by decide

theorem polyRHalf_eq_ofNat :
    polyRHalf = BitVec.ofNat 128 (2 ^ 127 + 2 ^ 126 + 2 ^ 125 + 2 ^ 120) := by decide

theorem polyXInv128_eq_ofNat :
    polyXInv128 = BitVec.ofNat 128 (2 ^ 127 + 2 ^ 124 + 2 ^ 121 + 2 ^ 114 + 1) := by decide

/-- Settles O24: the shift that follows a shift back loses one bit, and the two constants restore it. -/
theorem mulxAndDivxAreInverse : Obligations.MulxAndDivxAreInverse := by
  intro a
  rw [← polyR128_eq_ofNat, ← polyRHalf_eq_ofNat]
  exact ⟨mulx_of_false, mulx_of_true, divx_of_false, divx_of_true, divx_mulx a, mulx_divx a⟩

/-! ### The plain product (rule R145) -/

theorem fmul_eq (a b : Block) : fmul a b = fmulLoop b 128 0 0 a := by rw [fmul]

theorem mulx_twoPow {i : Nat} (h : i < 127) :
    mulx (BitVec.twoPow 128 i) = BitVec.twoPow 128 (i + 1) := by
  have hbit : (BitVec.twoPow 128 i).getLsbD 127 = false := by
    rw [BitVec.getLsbD_twoPow, decide_eq_false (by omega : i ≠ 127), Bool.and_false]
  rw [mulx_of_false hbit, BitVec.twoPow, BitVec.twoPow, BitVec.shiftLeft_add]

/-- The loop from x^i on copies the bits of the second operand from `i` on into its sum. -/
theorem getLsbD_fmulLoop_twoPow (b : Block) (n i : Nat) (r t : Block) (h : i + n = 128)
    (ht : i < 128 → t = BitVec.twoPow 128 i) (k : Nat) (hk : k < 128) :
    (fmulLoop b n i r t).getLsbD k = (r.getLsbD k ^^ (decide (i ≤ k) && b.getLsbD k)) := by
  induction n generalizing i r t with
  | zero => simp [fmulLoop, show ¬i ≤ k by omega]
  | succ n ih =>
    have hi : i < 128 := by omega
    have hnext : i + 1 < 128 → mulx t = BitVec.twoPow 128 (i + 1) := fun hlt => by
      rw [ht hi, mulx_twoPow (by omega)]
    have hsum : (if b.getLsbD i then r ^^^ t else r).getLsbD k =
        (r.getLsbD k ^^ (decide (i = k) && b.getLsbD k)) := by
      rw [ht hi]
      by_cases hik : i = k
      · subst hik
        cases b.getLsbD i <;> simp [hi]
      · cases b.getLsbD i <;> simp [BitVec.getLsbD_twoPow, hik]
    rw [fmulLoop, ih (i + 1) _ _ (by omega) hnext, hsum, Bool.xor_assoc]
    congr 1
    rcases Nat.lt_trichotomy i k with hlt | rfl | hgt
    · simp [hlt.ne, hlt.le, Nat.succ_le_of_lt hlt]
    · simp
    · simp [hgt.ne', Nat.not_le_of_gt hgt, show ¬i + 1 ≤ k by omega]

theorem fmul_one_left (b : Block) : fmul 1 b = b := by
  apply BitVec.eq_of_getLsbD_eq
  intro k hk
  rw [fmul_eq, getLsbD_fmulLoop_twoPow b 128 0 0 1 rfl (fun _ => rfl) k hk]
  simp

/-- Multiplication by a fixed element commutes with multiplication by x. -/
theorem fmul_mulx (a b : Block) : fmul (mulx a) b = mulx (fmul a b) := by
  rw [fmul_eq, fmul_eq, fmulLoop_map mulx mulx_xor (fun _ => rfl), mulx_zero]

/-- Multiplication by a fixed element passes through a product. -/
theorem fmul_fmul (a b c : Block) : fmul (fmul a b) c = fmul (fmul a c) b := by
  have h := fmulLoop_map (fmul · c) (fun x y => fmul_xor x y c) (fun x => fmul_mulx x c) b 128 0 0 a
  beta_reduce at h
  rw [fmul_eq a b, h, fmul_zero_left, ← fmul_eq]

/-- The product is the product of 1 with both, in either order. -/
theorem fmul_comm (a b : Block) : fmul a b = fmul b a :=
  calc fmul a b = fmul (fmul 1 a) b := by rw [fmul_one_left]
    _ = fmul (fmul 1 b) a := fmul_fmul 1 a b
    _ = fmul b a := by rw [fmul_one_left]

theorem fmul_one_right (a : Block) : fmul a 1 = a := by rw [fmul_comm, fmul_one_left]

theorem fmul_assoc (a b c : Block) : fmul (fmul a b) c = fmul a (fmul b c) :=
  calc fmul (fmul a b) c = fmul (fmul b a) c := by rw [fmul_comm a b]
    _ = fmul (fmul b c) a := fmul_fmul b a c
    _ = fmul a (fmul b c) := fmul_comm _ a

/-- x^128 and x^-128 (rules R143, R146). -/
theorem fmul_polyR128_polyXInv128 : fmul polyR128 polyXInv128 = 1 := by decide +kernel

/-! ### The laws of `dot` (rule R148) -/

theorem dot_comm (a b : Block) : dot a b = dot b a := by rw [dot_eq, dot_eq, fmul_comm a b]

theorem dot_xor (a c b : Block) : dot (a ^^^ c) b = dot a b ^^^ dot c b := by
  rw [dot_eq, dot_eq, dot_eq, fmul_xor, fmul_xor]

theorem dot_polyR128 (a : Block) : dot a polyR128 = a := by
  rw [dot_eq, fmul_assoc, fmul_polyR128_polyXInv128, fmul_one_right]

theorem dot_one (a : Block) : dot a 1 = fmul a polyXInv128 := by rw [dot_eq, fmul_one_right]

theorem dot_dot (a b c : Block) :
    dot (dot a b) c = fmul (fmul (fmul (fmul a b) c) polyXInv128) polyXInv128 := by
  rw [dot_eq, dot_eq, fmul_fmul (fmul a b) polyXInv128 c]

/-- Settles O25: each law from those of the plain product. -/
theorem dotLaws : Obligations.DotLaws := by
  intro a b c
  rw [← polyR128_eq_ofNat, ← polyXInv128_eq_ofNat]
  exact ⟨dot_comm a b, dot_xor a c b, dot_zero_left b, dot_polyR128 a, dot_one a, dot_dot a b c⟩

/-! ### The bit-serial form (rule R147) -/

/-- A turn of the bit-serial loop divides by x where the product's loop multiplies: `n` turns are the product's, divided
`n` times. -/
theorem iterate_mulx_dotLoop (a b : Block) (n i : Nat) (r : Block) :
    mulx^[n] (dotLoop a b n i r) = fmulLoop b n i r a := by
  induction n generalizing i r with
  | zero => rfl
  | succ n ih =>
    rw [Function.iterate_succ_apply', dotLoop, ih, fmulLoop_map mulx mulx_xor fun _ => rfl, mulx_divx,
      fmulLoop]

theorem iterate_mulx_eq_fmul (n : Nat) (a : Block) : mulx^[n] a = fmul (mulx^[n] 1) a := by
  induction n with
  | zero => exact (fmul_one_left a).symm
  | succ n ih => rw [Function.iterate_succ_apply', Function.iterate_succ_apply', ih, fmul_mulx]

theorem iterate_mulx_one : mulx^[128] 1 = polyR128 := by decide +kernel

theorem fmul_eq_dotSerial (a b : Block) : fmul a b = fmul (dotSerial a b) polyR128 := by
  rw [fmul_comm _ polyR128, ← iterate_mulx_one, ← iterate_mulx_eq_fmul, dotSerial, iterate_mulx_dotLoop,
    fmul_eq]

/-- Settles O26: the bit-serial form times x^128 is the plain product, and `dot` is that over x^128. -/
theorem bitSerialFormEqualsDot : Obligations.BitSerialFormEqualsDot := by
  intro a b
  rw [dot_eq, fmul_eq_dotSerial a b, fmul_assoc, fmul_polyR128_polyXInv128, fmul_one_right]

end Sys2Proof.Machine
end

section
/-! PROOFS of the statements about what operations and steps leave unchanged (10_state.md, 20_memory.md,
70_reset_and_hazards.md). The writes of the unit operations; how every command ends; what a host move and a step can
do; and the two invariants of the machine. -/

namespace Sys2Proof.Machine

/-! ### The unit operations (rules R81, R111, R174) -/

/-- `s` with every register that a unit operation can write blanked. -/
def blankUnitWrites (s : State) : State :=
  { s with
    authkey := 0, enckey := 0, polyH := 0, polyS := 0, cb := 0, ks := 0, aesOut := 0, pvOut := 0, ctrOut := 0 }

/-- A unit operation completes and writes nothing beside those registers. -/
theorem exec_unit {i : Instr} (h : hostIssuable i = false) (s : State) :
    ∃ t, exec i s = .next t ∧ blankUnitWrites t = blankUnitWrites s := by
  cases i with
  | encrypt | decrypt => cases h
  | aesEnc128 | aesEnc256 | pvInit | pvAbsorb | pvRead | kdfDerive128 | kdfDerive256 | ctrInit | ctrNext
  | ctrXor => exact ⟨_, rfl, rfl⟩

theorem mem_blankUnitWrites (sp : Space) (s : State) : (blankUnitWrites s).mem sp = s.mem sp := by
  cases sp <;> rfl

theorem mem_eq_of_blankUnitWrites {s t : State} (h : blankUnitWrites t = blankUnitWrites s) (sp : Space) :
    t.mem sp = s.mem sp := by
  rw [← mem_blankUnitWrites sp t, h, mem_blankUnitWrites]

/-- Settles O60: nothing named is among the registers that a unit operation writes. -/
theorem unitOperationFrame : Obligations.UnitOperationFrame := by
  intro i s hi
  obtain ⟨t, ht, h⟩ := exec_unit hi s
  have hmem := mem_eq_of_blankUnitWrites h
  have keeps {α : Type} (f : State → α) : f (blankUnitWrites t) = f (blankUnitWrites s) := congrArg f h
  exact ⟨t, ht, keeps State.hostView, fun sp a => peek_congr sp a (hmem sp) (keeps State.epoch),
    keeps State.phase, keeps State.dir, keeps State.ksz, keeps State.lAad, keeps State.lMsg,
    keeps State.errl, keeps State.tag, keeps State.rtag⟩

/-! ### How every command ends (rules R250, R326) -/

theorem length_sealMessage (ksz : Bool) (key : KeyBits) (nonce pt aad : List Byte) :
    (sealMessage ksz key nonce pt aad).length = pt.length + 16 := by
  rw [sealMessage, List.length_append, length_applyKeystream, length_bytes16]

theorem length_of_openMessage {ksz : Bool} {key : KeyBits} {nonce input aad pt : List Byte}
    (h : openMessage ksz key nonce input aad = some pt) : pt.length = input.length - 16 := by
  unfold openMessage at h
  split at h
  · rw [← Option.some.inj h, candidatePlaintext, length_applyKeystream, List.length_take]
    omega
  · cases h

theorem length_inputMsg (s : State) : s.inputMsg.length = s.msglen.toNat := length_memRead ..

/-- The values of STATUS a command can end in (rules R24, R251, R252). -/
def finalStatus : List (BitVec 32) := [0x02#32, 0x16#32, 0x26#32, 0x36#32, 0x46#32, 0x56#32]

theorem statusFailure_mem_finalStatus (k : ErrorKind) : statusFailure k.code ∈ finalStatus := by
  cases k <;> decide

/-- Every command, on every path, has written OUTMEM[0..OUTLEN) of the state it was issued in and ended. -/
theorem runCommand_ends (d : Bool) (s : State) :
    ∃ n v b, runCommand d s = endCommand n v (s.memWrite .outmem 0 b) ∧ b.length = n.toNat ∧
      v ∈ finalStatus := by
  cases hi : initError (acceptCommand d s) with
  | some k => exact ⟨0, _, [], runCommand_raise hi, rfl, statusFailure_mem_finalStatus k⟩
  | none =>
    cases d with
    | false =>
      refine ⟨_, _, _, runCommand_encrypt hi, ?_, by decide⟩
      rw [length_sealMessage, length_inputMsg, toNat_msglen_add_tag hi]
    | true =>
      rw [runCommand_decrypt hi]
      split
      · next pt hpt =>
        refine ⟨_, _, pt, rfl, ?_, by decide⟩
        rw [length_of_openMessage hpt, length_inputMsg, toNat_msglen_sub_tag hi]
      · exact ⟨0, _, [], rfl, rfl, statusFailure_mem_finalStatus _⟩

/-- A command that answers a next state is one of the two, run to its end. -/
theorem eq_runCommand_of_exec {i : Instr} {s t : State} (hi : i = .encrypt ∨ i = .decrypt)
    (h : exec i s = .next t) : ∃ d, t = runCommand d s := by
  obtain rfl | rfl := hi
  · exact ⟨false, eq_runCommand_of_exec_encrypt h⟩
  · exact ⟨true, eq_runCommand_of_exec_decrypt h⟩

theorem exec_command {i : Instr} (hi : i = .encrypt ∨ i = .decrypt) :
    ∃ d, ∀ s : State, s.busy = false → exec i s = .next (runCommand d s) := by
  obtain rfl | rfl := hi
  · exact ⟨false, fun _ hb => exec_encrypt hb⟩
  · exact ⟨true, fun _ hb => exec_decrypt hb⟩

/-- Settles O53: every command ends in `endCommand`, whose registers are zero. -/
theorem everyCommandZeroizes : Obligations.EveryCommandZeroizes := by
  intro s hb i hi
  obtain ⟨d, hd⟩ := exec_command hi
  obtain ⟨n, v, b, hend, -, -⟩ := runCommand_ends d s
  exact ⟨_, (hd s hb).trans (congrArg _ hend), endCommand_phase .., endCommand_dir .., endCommand_ksz ..,
    endCommand_lAad .., endCommand_lMsg .., endCommand_errl .., endCommand_authkey ..,
    endCommand_enckey .., endCommand_polyH .., endCommand_polyS .., endCommand_tag ..,
    endCommand_rtag .., endCommand_cb .., endCommand_ks .., peek_endCommand_work _ _ _⟩

/-- The bytes of the state a command ends in. -/
theorem peek_endCommand_memWrite {n : Length} {v : BitVec 32} {b : List Byte} (hb : b.length = n.toNat)
    (s : State) {sp : Space} {a : Nat} (hw : sp ≠ .work) (ho : ¬(sp = .outmem ∧ a < n.toNat)) :
    (endCommand n v (s.memWrite .outmem 0 b)).peek sp a = s.peek sp a := by
  rw [peek_endCommand _ _ _ _ _ hw, peek_memWrite_outside]
  rw [hb, Nat.zero_add]
  exact fun ⟨hsp, _, ha⟩ => ho ⟨hsp, ha⟩

/-- Settles O59: a command has written OUTMEM[0..OUTLEN) and ended. -/
theorem commandFrame : Obligations.CommandFrame := by
  intro i s t hi ht
  obtain ⟨d, rfl⟩ := eq_runCommand_of_exec hi ht
  obtain ⟨n, v, b, hend, hb, -⟩ := runCommand_ends d s
  rw [hend]
  exact ⟨rfl, fun sp a hw ho => peek_endCommand_memWrite hb s hw ho, peek_endCommand_work _ _ _⟩

theorem instr_unit_or_command (i : Instr) : hostIssuable i = false ∨ i = .encrypt ∨ i = .decrypt := by
  cases i with
  | encrypt | decrypt => exact .inr (by decide)
  | aesEnc128 | aesEnc256 | pvInit | pvAbsorb | pvRead | kdfDerive128 | kdfDerive256 | ctrInit | ctrNext
  | ctrXor => exact .inl rfl

/-- `s` with everything that an operation can write blanked. -/
def blankWrites (s : State) : State := blankUnitWrites (endCommand 0 0 (s.setMem .outmem []))

/-- An operation writes nothing beside that: a unit operation its registers, a command OUTMEM and what it ends with. -/
theorem exec_blankWrites {i : Instr} {s t : State} (h : exec i s = .next t) :
    blankWrites t = blankWrites s := by
  obtain hi | hi := instr_unit_or_command i
  · obtain ⟨t', ht', hblank⟩ := exec_unit hi s
    obtain rfl := Host.Outcome.next.inj (h.symm.trans ht')
    have hkeep : blankWrites (blankUnitWrites t) = blankWrites (blankUnitWrites s) :=
      congrArg blankWrites hblank
    exact hkeep
  · obtain ⟨d, rfl⟩ := eq_runCommand_of_exec hi h
    obtain ⟨n, v, b, hrun, -, -⟩ := runCommand_ends d s
    rw [hrun]
    rfl

/-- Settles O58: nothing named is among what an operation can write. -/
theorem inputsAreNeverWritten : Obligations.InputsAreNeverWritten := by
  intro i s t hexec
  have keeps {α : Type} (f : State → α) : f (blankWrites t) = f (blankWrites s) :=
    congrArg f (exec_blankWrites hexec)
  exact ⟨keeps State.keylen, keeps State.noncelen, keeps State.aadlen, keeps State.msglen,
    keeps State.keybuf, keeps State.noncebuf, keeps State.aadmem, keeps State.inmem, keeps State.pending,
    keeps State.hostRead, keeps State.epoch⟩

/-! ### Reset (rules R41, R320) -/

theorem peek_resetEvent {sp : Space} (h : sp ≠ .work) (s : State) (a : Nat) :
    (resetEvent s).peek sp a = Config.unwrittenByte (s.epoch + 1) sp a := by
  cases sp with
  | work => exact absurd rfl h
  | keybuf | noncebuf | aadmem | inmem | outmem => rfl

/-- Settles O9: the reset event is taken in every phase and lists no byte of any space. -/
theorem resetEventFromAnyState : Obligations.ResetEventFromAnyState := by
  intro s rest hp
  exact ⟨resetEvent (s.setPending rest), step_of_host hp (.inl rfl), rfl, fun _ => rfl,
    fun sp a hsp => peek_resetEvent hsp _ a⟩

/-! ### What a host move and a step can do (rules R16, R31, R53) -/

/-- What a move of the host has made of `s`. -/
inductive HostMoved (s : State) : State → Prop
  /-- A command, run to its end. -/
  | command (d : Bool) : HostMoved s (runCommand d s)
  /-- A read of a register or of a buffer. -/
  | read (r : HostResult) : HostMoved s (s.setHostRead r)
  /-- A register write. -/
  | register (r : HostReg) (v : BitVec 64) : HostMoved s (setHostReg r v s)
  /-- A buffer write inside its space. -/
  | buffer {sp : Space} {p : Nat} {v : List Byte} (hw : hostWritable sp = true)
      (hi : p + v.length ≤ Config.spaceSize sp) : HostMoved s (s.memWrite sp p v)

theorem hostMoved_of_hostWriteCmd {v : BitVec 8} {s t : State} (h : hostWriteCmd v s = .next t) :
    HostMoved s t := by
  unfold hostWriteCmd at h
  split at h
  · next i hi =>
    obtain ⟨d, rfl⟩ := eq_runCommand_of_exec (eq_encrypt_or_decrypt_of_decodeCmd hi) h
    exact .command d
  · cases h

theorem hostMoved_of_hostWrite {sp : Space} {addr : BitVec 64} {v : List Byte} {s t : State}
    (h : hostWrite sp addr v s = .next t) : HostMoved s t := by
  unfold hostWrite at h
  split at h
  · next hw =>
    split at h
    · next hi =>
      cases h
      exact .buffer hw (of_decide_eq_true hi)
    · cases h
  · cases h

theorem hostMoved_of_hostReadBuf {sp : Space} {addr : BitVec 64} {n : Nat} {s t : State}
    (h : hostReadBuf sp addr n s = .next t) : HostMoved s t := by
  unfold hostReadBuf at h
  split at h
  · split at h
    · cases h
      exact .read _
    · cases h
  · cases h

/-- The guard of rule R31 lets a next state through only from what it guards. -/
theorem eq_next_of_unlessBusy {s t : State} {o : Host.Outcome State Fault Refusal}
    (h : (if s.busy then .refused .accessWhileBusy else o) = .next t) : o = .next t := by
  split at h
  · cases h
  · exact h

theorem hostMoved_of_hostMove {m : HostMove} {s t : State} (hm : m ≠ .reset)
    (h : hostMove m s = .next t) : HostMoved s t := by
  cases m with
  | reset => exact absurd rfl hm
  | writeCmd v => exact hostMoved_of_hostWriteCmd (eq_next_of_unlessBusy h)
  | readCmd => cases eq_next_of_unlessBusy h; exact .read _
  | writeReg r v => cases eq_next_of_unlessBusy h; exact .register r v
  | readReg r => cases eq_next_of_unlessBusy h; exact .read _
  | writeBuf sp addr v => exact hostMoved_of_hostWrite (eq_next_of_unlessBusy h)
  | readBuf sp addr n => exact hostMoved_of_hostReadBuf (eq_next_of_unlessBusy h)

/-- What a step has made of `s`. -/
inductive Stepped (s : State) : State → Prop
  /-- The orchestrator's phase, or none in IDLE. -/
  | phase : Stepped s (phaseStep s)
  /-- A unit operation, its request taken off the list. -/
  | unit {c : BitVec 8} {rest : List Issue} {t : State} (hp : s.pending = .unit c :: rest)
      (ht : blankUnitWrites t = blankUnitWrites (s.setPending rest)) : Stepped s t
  /-- The reset event, taken off the list. -/
  | reset {rest : List Issue} (hp : s.pending = .host .reset :: rest) :
      Stepped s (resetEvent (s.setPending rest))
  /-- A move of the host in IDLE, taken off the list. -/
  | host {m : HostMove} {rest : List Issue} {t : State} (hp : s.pending = .host m :: rest)
      (hidle : s.phase = .idle) (ht : HostMoved (s.setPending rest) t) : Stepped s t

theorem not_hostIssuable_of_decodeUnitCode {c : BitVec 8} {i : Instr} (h : decodeUnitCode c = some i) :
    hostIssuable i = false := by
  unfold decodeUnitCode at h
  split at h
  · next j _ =>
    cases hj : hostIssuable j with
    | true => rw [hj] at h; cases h
    | false =>
      rw [hj] at h
      cases h
      exact hj
  · cases h

theorem blankUnitWrites_of_unitRequest {c : BitVec 8} {s t : State} (h : unitRequest c s = .next t) :
    blankUnitWrites t = blankUnitWrites s := by
  unfold unitRequest at h
  split at h
  · next i hi =>
    obtain ⟨t', ht', hblank⟩ := exec_unit (not_hostIssuable_of_decodeUnitCode hi) s
    obtain rfl := Host.Outcome.next.inj (h.symm.trans ht')
    exact hblank
  · cases h

/-- A step that answers a next state is one of the four. -/
theorem stepped_of_step {s t : State} (h : step s = .next t) : Stepped s t := by
  obtain hs | ⟨c, rest, hp, hs⟩ | ⟨m, rest, hp, hm, hs⟩ := step_cases s
  · obtain rfl := Host.Outcome.next.inj (h.symm.trans hs)
    exact .phase
  · exact .unit hp (blankUnitWrites_of_unitRequest (hs.symm.trans h))
  · by_cases hr : m = .reset
    · subst hr
      obtain rfl : resetEvent (s.setPending rest) = t := Host.Outcome.next.inj (hs.symm.trans h)
      exact .reset hp
    · exact .host hp (hm.resolve_left hr) (hostMoved_of_hostMove hr (hs.symm.trans h))

/-! ### The machine invariant -/

/-- A write of nothing that the invariant speaks of keeps it. -/
theorem Inv.of_eq {s t : State} (h : Inv s) (hmem : ∀ sp, t.mem sp = s.mem sp) (hst : t.status = s.status)
    (hp : t.phase = s.phase) (he : t.errl = s.errl) (hm : t.lMsg = s.lMsg) (ha : t.lAad = s.lAad) :
    Inv t where
  memories sp := by rw [hmem]; exact h.memories sp
  status := by rw [hst]; exact h.status
  busy := by rw [State.busy, hst, hp]; exact h.busy
  errl := by rw [he]; exact h.errl
  lengths := by rw [hm, ha]; exact h.lengths

theorem inv_reset : Inv State.reset where
  memories sp := by cases sp <;> exact wf_nil _
  status := by decide
  busy := by decide
  errl := by decide
  lengths := by decide

/-- A phase that leads to another keeps STATUS, so the invariant rests on the rest. -/
theorem Inv.of_phase {s t : State} (h : Inv s) (hs : s.phase ≠ .idle) (ht : t.phase ≠ .idle)
    (hst : t.status = s.status) (hmem : ∀ sp, Memory.wf sp (t.mem sp) = true) (he : t.errl.toNat ≤ 5)
    (hl : t.lMsg.toNat + t.lAad.toNat ≤ Config.maxInputBytes) : Inv t where
  memories := hmem
  status := by rw [hst]; exact h.status
  busy := ⟨fun _ => ht, fun _ => by rw [State.busy, hst]; exact h.busy.2 hs⟩
  errl := he
  lengths := hl

theorem finalStatus_legal : ∀ v ∈ finalStatus, v ∈ legalStatus ∧ statusBusy v = false := by
  simp only [finalStatus, List.forall_mem_cons, List.not_mem_nil, false_imp_iff, implies_true, and_true]
  decide

theorem inv_endCommand {v : BitVec 32} {s : State} (n : Length) (hv : v ∈ finalStatus)
    (hmem : ∀ sp, Memory.wf sp (s.mem sp) = true) : Inv (endCommand n v s) where
  memories sp := wf_endCommand n v s sp hmem
  status := (finalStatus_legal v hv).1
  busy := by
    refine ⟨fun hb => absurd ((finalStatus_legal v hv).2.symm.trans hb) Bool.false_ne_true, fun hp => ?_⟩
    exact absurd (endCommand_phase n v s) hp
  errl := by rw [endCommand_errl]; decide
  lengths := by rw [endCommand_lMsg, endCommand_lAad]; decide

theorem errorCode_le (k : ErrorKind) : k.code.toNat ≤ 5 := by cases k <;> decide

theorem Inv.raise {s : State} (h : Inv s) (hs : s.phase ≠ .idle) (k : ErrorKind) :
    Inv (Machine.raise k s) :=
  h.of_phase hs nofun rfl (fun sp => raise_mem k s sp ▸ h.memories sp) (errorCode_le k) h.lengths

theorem Inv.setTag {s : State} (h : Inv s) (v : Block) : Inv (s.setTag v) :=
  h.of_eq (setTag_mem v s) rfl rfl rfl rfl rfl

theorem Inv.setPhase {s : State} {p : Phase} (h : Inv s) (hs : s.phase ≠ .idle) (hp : p ≠ .idle) :
    Inv (s.setPhase p) :=
  h.of_phase hs hp rfl (fun sp => setPhase_mem p s sp ▸ h.memories sp) h.errl h.lengths

theorem inv_initPhase {s : State} (h : Inv s) (hs : s.phase ≠ .idle) : Inv (initPhase s) := by
  cases hi : initError s with
  | some k =>
    rw [initPhase_error hi]
    exact h.raise hs k
  | none =>
    have hp : (initPhase s).phase ≠ .idle := by
      rw [initPhase_phase hi]
      split <;> decide
    have hb := bodyLength_le hi
    have hmax : Config.maxInputBytes < 2 ^ 64 := by decide
    rw [initPhase_ok hi] at hp ⊢
    refine h.of_phase hs hp rfl (fun sp => ?_) h.errl ?_
    · simpa using h.memories sp
    · simp only [setPhase_lMsg, setPhase_lAad, setKeys_lMsg, setKeys_lAad, setRtag_lMsg, setRtag_lAad,
        latchLengths_lMsg, latchLengths_lAad, BitVec.toNat_ofNat]
      omega

theorem inv_hashPhase {s : State} (h : Inv s) (hs : s.phase ≠ .idle) : Inv (hashPhase s) := by
  rw [hashPhase_eq]
  exact h.of_phase hs nofun rfl (fun sp => by simpa using h.memories sp) h.errl h.lengths

theorem inv_deriveTagPhase {s : State} (h : Inv s) (hs : s.phase ≠ .idle) : Inv (deriveTagPhase s) := by
  have htag := h.setTag (tagOf s)
  cases hd : s.dir with
  | false =>
    rw [deriveTagPhase_encrypt hd]
    exact htag.setPhase hs nofun
  | true =>
    rw [deriveTagPhase_decrypt hd]
    split
    · exact htag.setPhase hs nofun
    · exact htag.raise hs _

theorem inv_keystreamPhase {s : State} (h : Inv s) (hs : s.phase ≠ .idle) : Inv (keystreamPhase s) := by
  have hmem (sp : Space) : Memory.wf sp ((keystreamPhase s).mem sp) = true := by
    rw [keystreamPhase, setPhase_mem]
    exact wf_keystreamPass _ _ s sp (le_trans (Nat.le_add_right ..) h.lengths) (h.memories sp)
  have hp : (keystreamPhase s).phase ≠ .idle := by
    rw [keystreamPhase_phase]
    split <;> decide
  obtain ⟨k, c, m, hk⟩ := keystreamPhase_shape s
  rw [hk] at hmem hp ⊢
  exact h.of_phase hs hp rfl hmem h.errl h.lengths

theorem statusFailure_legal : ∀ e : BitVec 4, e ≠ 0 → e.toNat ≤ 5 → statusFailure e ∈ finalStatus := by
  decide

theorem inv_finalizePhase {s : State} (h : Inv s) : Inv (finalizePhase s) := by
  by_cases he : s.errl = 0
  · have hmax : Config.maxInputBytes + 16 ≤ 2 ^ 64 := by decide
    have hlen := h.lengths
    have hbody (sp : Space) :
        Memory.wf sp ((s.memWrite .outmem 0 (s.memRead .work 0 s.lMsg.toNat)).mem sp) = true := by
      refine wf_memWrite _ _ _ _ _ (h.memories sp) ?_
      rw [length_memRead, Config.spaceSize, Config.bufBytes]
      omega
    rw [finalizePhase_success he]
    split
    · exact inv_endCommand _ (by decide) hbody
    · refine inv_endCommand _ (by decide) fun sp => wf_memWrite _ _ _ _ _ (hbody sp) ?_
      rw [length_bytes16, Config.spaceSize, Config.bufBytes]
      omega
  · rw [finalizePhase_error he]
    exact inv_endCommand 0 (statusFailure_legal _ he h.errl) h.memories

theorem inv_phaseStep {s : State} (h : Inv s) : Inv (phaseStep s) := by
  cases hp : s.phase with
  | idle => rwa [phaseStep_idle hp]
  | init => rw [phaseStep_init hp]; exact inv_initPhase h (by rw [hp]; decide)
  | hash => rw [phaseStep_hash hp]; exact inv_hashPhase h (by rw [hp]; decide)
  | deriveTag => rw [phaseStep_deriveTag hp]; exact inv_deriveTagPhase h (by rw [hp]; decide)
  | keystream => rw [phaseStep_keystream hp]; exact inv_keystreamPhase h (by rw [hp]; decide)
  | finalize => rw [phaseStep_finalize hp]; exact inv_finalizePhase h

/-- A 64-bit OUTLEN cannot reach beyond OUTMEM. -/
theorem inv_runCommand (d : Bool) {s : State} (h : Inv s) : Inv (runCommand d s) := by
  obtain ⟨n, v, b, hend, hb, hv⟩ := runCommand_ends d s
  have hn := n.isLt
  rw [hend]
  refine inv_endCommand n hv fun sp => wf_memWrite _ _ _ _ _ (h.memories sp) ?_
  rw [hb, Config.spaceSize, Config.bufBytes]
  omega

theorem inv_resetEvent (s : State) : Inv (resetEvent s) :=
  inv_reset.of_eq (fun sp => by cases sp <;> rfl) rfl rfl rfl rfl rfl

theorem inv_setHostReg {s : State} (h : Inv s) (r : HostReg) (v : BitVec 64) : Inv (setHostReg r v s) := by
  cases r with
  | keylen | noncelen | aadlen | msglen | status | outlen =>
    exact h.of_eq (fun sp => by cases sp <;> rfl) rfl rfl rfl rfl rfl

theorem inv_memWrite {sp : Space} {p : Nat} {v : List Byte} {s : State} (h : Inv s)
    (hi : p + v.length ≤ Config.spaceSize sp) : Inv (s.memWrite sp p v) where
  memories sp' := wf_memWrite sp sp' p v s (h.memories sp') hi
  status := by rw [memWrite_status]; exact h.status
  busy := by rw [State.busy, memWrite_status, memWrite_phase]; exact h.busy
  errl := by rw [memWrite_errl]; exact h.errl
  lengths := by rw [memWrite_lMsg, memWrite_lAad]; exact h.lengths

theorem inv_of_hostMoved {s t : State} (h : Inv s) (ht : HostMoved s t) : Inv t := by
  cases ht with
  | command d => exact inv_runCommand d h
  | read r => exact h.of_eq (setHostRead_mem r s) rfl rfl rfl rfl rfl
  | register r v => exact inv_setHostReg h r v
  | buffer _ hi => exact inv_memWrite h hi

theorem Inv.setPending {s : State} (h : Inv s) (l : List Issue) : Inv (s.setPending l) :=
  h.of_eq (setPending_mem l s) rfl rfl rfl rfl rfl

theorem inv_of_blankUnitWrites {s t : State} (h : Inv s) (ht : blankUnitWrites t = blankUnitWrites s) :
    Inv t := by
  have keeps {α : Type} (f : State → α) : f (blankUnitWrites t) = f (blankUnitWrites s) := congrArg f ht
  exact h.of_eq (mem_eq_of_blankUnitWrites ht) (keeps State.status) (keeps State.phase) (keeps State.errl)
    (keeps State.lMsg) (keeps State.lAad)

/-- Settles O11: each kind of step keeps the invariant. -/
theorem everyStepKeepsTheInvariant : Obligations.EveryStepKeepsTheInvariant := by
  intro s t h hstep
  cases stepped_of_step hstep with
  | phase => exact inv_phaseStep h
  | unit _ ht => exact inv_of_blankUnitWrites (h.setPending _) ht
  | reset _ => exact inv_resetEvent _
  | host _ _ ht => exact inv_of_hostMoved (h.setPending _) ht

/-! ### IDLE is clean (rules R45, R326) -/

/-- Settles O10: both hold at reset by its values, and nothing is listed to happen. -/
theorem resetMeetsTheInvariants : Obligations.ResetMeetsTheInvariants :=
  ⟨inv_reset, fun _ hi => absurd hi List.not_mem_nil, fun _ => rfl⟩

theorem internalsZero_endCommand (n : Length) (v : BitVec 32) (s : State) :
    (endCommand n v s).internalsZero := rfl

/-- A phase is followed by IDLE only when it is IDLE itself or FINALIZE. -/
theorem idle_or_finalize_of_phaseStep {s : State} (h : (phaseStep s).phase = .idle) :
    s.phase = .idle ∨ s.phase = .finalize := by
  cases hp : s.phase with
  | idle => exact .inl rfl
  | finalize => exact .inr rfl
  | init =>
    rw [phaseStep_init hp] at h
    cases hi : initError s with
    | some k => rw [initPhase_error hi] at h; cases h
    | none =>
      rw [initPhase_phase hi] at h
      split at h <;> cases h
  | hash => rw [phaseStep_hash hp] at h; cases h
  | deriveTag =>
    rw [phaseStep_deriveTag hp, deriveTagPhase_phase] at h
    split at h <;> cases h
  | keystream =>
    rw [phaseStep_keystream hp, keystreamPhase_phase] at h
    split at h <;> cases h

theorem clean_phaseStep {s : State} (h : s.phase = .idle → s.internalsZero)
    (hp : (phaseStep s).phase = .idle) : (phaseStep s).internalsZero := by
  obtain hi | hf := idle_or_finalize_of_phaseStep hp
  · rw [phaseStep_idle hi]
    exact h hi
  · obtain ⟨n, v, t, hend⟩ := finalizePhase_ends s
    rw [phaseStep_finalize hf, hend]
    exact internalsZero_endCommand n v t

/-- A write of what the internals are not leaves them zero. -/
theorem State.internalsZero.map {s : State} (h : s.internalsZero) (f : State → State)
    (hf : ∀ u, { zeroize (f u) with phase := .idle } = f { zeroize u with phase := .idle }) :
    (f s).internalsZero :=
  (hf s).trans (congrArg f h)

theorem clean_of_hostMoved {s t : State} (h : s.internalsZero) (ht : HostMoved s t) : t.internalsZero := by
  cases ht with
  | command d =>
    obtain ⟨n, v, b, hend, -, -⟩ := runCommand_ends d s
    rw [hend]
    exact internalsZero_endCommand n v _
  | read r => exact h.map (State.setHostRead r) fun _ => rfl
  | register r v =>
    cases r with
    | keylen | noncelen | aadlen | msglen | status | outlen => exact h.map (setHostReg _ v) fun _ => rfl
  | @buffer sp p v hw _ =>
    cases sp with
    | outmem | work => cases hw
    | keybuf | noncebuf | aadmem | inmem => exact h.map (State.memWrite _ p v) fun _ => rfl

theorem runCommand_pending (d : Bool) (s : State) : (runCommand d s).pending = s.pending := by
  obtain ⟨n, v, b, hend, -, -⟩ := runCommand_ends d s
  rw [hend, endCommand_pending, memWrite_pending]

theorem hostMoved_pending {s t : State} (ht : HostMoved s t) : t.pending = s.pending := by
  cases ht with
  | command d => exact runCommand_pending d s
  | read r => rfl
  | register r v => cases r <;> rfl
  | buffer _ _ => exact memWrite_pending ..

/-- A list of host moves stays one when an entry is taken off. -/
theorem hostOnly_of_cons {s t : State} {i : Issue} (h : s.hostOnly) (hp : s.pending = i :: t.pending) :
    t.hostOnly :=
  fun j hj => h j (hp ▸ List.mem_cons_of_mem i hj)

/-- Settles O12: a phase reaches IDLE by FINALIZE alone, a host move but reset is taken in IDLE and ends there clean,
and no unit request is listed. -/
theorem idleStaysCleanAtEveryStep : Obligations.IdleStaysCleanAtEveryStep := by
  intro s t ⟨hhost, hclean⟩ hstep
  cases stepped_of_step hstep with
  | phase => exact ⟨fun i hi => hhost i (phaseStep_pending s ▸ hi), clean_phaseStep hclean⟩
  | @unit c rest _ hp _ =>
    obtain ⟨m, hm⟩ := hhost (.unit c) (hp ▸ List.mem_cons_self)
    cases hm
  | reset hp => exact ⟨hostOnly_of_cons hhost hp, fun _ => rfl⟩
  | @host m rest _ hp hidle ht =>
    exact ⟨hostOnly_of_cons hhost (hp.trans (congrArg _ (hostMoved_pending ht).symm)), fun _ =>
      clean_of_hostMoved ((hclean hidle).map (State.setPending rest) fun _ => rfl) ht⟩

end Sys2Proof.Machine
end

section
/-! PROOFS of the statements about the counter and the keystream (43_ctr_keystream.md sections 2 and 3,
44_aead_orchestrator.md section 5). CTR.XOR byte by byte; that counter blocks of one command differ from each other and
from every tag input; and the keystream pass taken twice. -/

namespace Sys2Proof.Machine

/-! ### CTR.XOR (rule R196) -/

theorem exec_ctrXor (s : State) :
    exec .ctrXor s = .next (s.setCtrOut (bits 128 (xorBytes (bytesOf s.ctrLen.val s.ctrIn) s.ks))) := rfl

theorem byteAt_bits_xorBytes {r k : Nat} (hr : r ≤ 16) (hk : k < r) (d ks : Block) :
    byteAt (bits 128 (xorBytes (bytesOf r d) ks)) k = byteAt d k ^^^ byteAt ks k := by
  rw [byteAt_bits128 _ _ (by omega), getD_xorBytes _ _ _ (by rwa [length_bytesOf]) (by omega),
    getD_bytesOf _ _ _ hk]

theorem byteAt_bits_xorBytes_beyond {r k : Nat} (hk : r ≤ k) (h16 : k < 16) (d ks : Block) :
    byteAt (bits 128 (xorBytes (bytesOf r d) ks)) k = 0 := by
  rw [byteAt_bits128 _ _ h16, List.getD_eq_default]
  rw [length_xorBytes, length_bytesOf]
  omega

/-- The example of the rule. -/
theorem xorBytes_example :
    xorBytes [0x01, 0, 0, 0, 0, 0, 0, 0]
      (bits 128 [0xb4, 0xd8, 0x39, 0x33, 0x0a, 0xc7, 0xb7, 0x86,
        0xa7, 0x79, 0x52, 0x3a, 0x09, 0x9c, 0xa5, 0x98]) =
      [0xb5, 0xd8, 0x39, 0x33, 0x0a, 0xc7, 0xb7, 0x86] := by decide +kernel

/-- Settles O36: the response field alone is written, and its bytes are known on both sides of `r`. -/
theorem ctrXorAppliesTheKeystream : Obligations.CtrXorAppliesTheKeystream := by
  refine ⟨fun s => ⟨_, exec_ctrXor s, fun k hk => ?_, fun k hk h16 => ?_⟩, rfl, xorBytes_example⟩
  · exact byteAt_bits_xorBytes (Nat.le_of_lt_succ s.ctrLen.isLt) hk _ _
  · exact byteAt_bits_xorBytes_beyond hk h16 _ _

/-! ### Counter blocks (rules R195, R198, R242) -/

/-- Counter blocks whose indices differ by less than 2^32 differ. -/
theorem counterAfter_ne {i j : Nat} (h : i < j) (hj : j < i + 2 ^ 32) (c : Block) :
    counterStep^[i] c ≠ counterStep^[j] c := by
  intro heq
  have hnat := congrArg BitVec.toNat heq
  rw [counterAfter_toNat, counterAfter_toNat] at hnat
  omega

theorem blockCount_mono {L M : Nat} (h : L ≤ M) : blockCount L ≤ blockCount M :=
  Nat.div_le_div_right (Nat.add_le_add_right h 15)

theorem blockCount_maxInputBytes : blockCount Config.maxInputBytes = 2 ^ 32 - 1 := by decide

/-- Settles O38: a message within the bound has fewer than 2^32 blocks. -/
theorem counterBlocksNeverRepeatInACommand : Obligations.CounterBlocksNeverRepeatInACommand := by
  refine ⟨blockCount_maxInputBytes, fun t L i j hL hij hj => counterAfter_ne hij ?_ _⟩
  have hcount := blockCount_mono hL
  rw [blockCount_maxInputBytes] at hcount
  omega

theorem getLsbD_tagInput_top (p : Block) (nonce : List Byte) :
    (tagInput p nonce).getLsbD 127 = false := by
  have hbyte := byteAt_tagInput (j := 15) (by omega) p nonce
  rw [if_neg (by omega), if_pos rfl] at hbyte
  rw [← byteAt_getLsbD _ 15 7 (by omega), hbyte, BitVec.getLsbD_and]
  exact Bool.and_false _

theorem getLsbD_counterAfter_top (t : Block) (j : Nat) :
    (counterStep^[j] (counterStart t)).getLsbD 127 = true := by
  have hbyte := byteAt_counterAfter_high (k := 15) (by omega) (counterStart t) j
  rw [byteAt_counterStart t 15 (by omega), if_pos rfl] at hbyte
  rw [← byteAt_getLsbD _ 15 7 (by omega), hbyte, BitVec.getLsbD_or]
  exact Bool.or_true _

/-- Settles O39: bit 127 tells them apart. -/
theorem tagInputIsNeverACounterBlock : Obligations.TagInputIsNeverACounterBlock := by
  intro p t nonce j
  have htag := getLsbD_tagInput_top p nonce
  have hctr := getLsbD_counterAfter_top t j
  refine ⟨htag, hctr, fun heq => ?_⟩
  rw [heq, hctr] at htag
  cases htag

/-! ### The keystream pass twice (rule R199) -/

theorem keystreamPass_ksz (t : Block) (L : Nat) (s : State) : (keystreamPass t L s).ksz = s.ksz := by
  obtain ⟨k, c, m, h⟩ := keystreamPass_shape t L s
  rw [h, setMem_ksz, setCtr_ksz]

theorem keystreamPass_enckey (t : Block) (L : Nat) (s : State) :
    (keystreamPass t L s).enckey = s.enckey := by
  obtain ⟨k, c, m, h⟩ := keystreamPass_shape t L s
  rw [h, setMem_enckey, setCtr_enckey]

/-- Settles O40: either pass applies the keystream of the seed, and a keystream applied twice gives the data back. -/
theorem keystreamPassIsAnInvolution : Obligations.KeystreamPassIsAnInvolution := by
  intro t L s
  have hback := memRead_memWrite .inmem 0 ((keystreamPass t L s).memRead .work 0 L) (keystreamPass t L s)
  rw [length_memRead] at hback
  rw [memRead_keystreamPass, hback, memRead_keystreamPass, memWrite_ksz, memWrite_enckey, keystreamPass_ksz,
    keystreamPass_enckey, applyKeystream_twice]

end Sys2Proof.Machine
end

section
/-! PROOFS of the statements about the phases and the two commands (44_aead_orchestrator.md). The successors of the
phases and the end of every command; INIT and FINALIZE outcome by outcome; ENCRYPT and DECRYPT as the functions of
rules R251 and R252; and what a command reads. -/

namespace Sys2Proof.Machine

/-! ### The successors of the phases (rules R221, R231) -/

theorem acceptCommand_eq (d : Bool) (s : State) :
    acceptCommand d s = { s with status := 0x00000001#32, outlen := 0, dir := d, errl := 0, phase := .init } :=
  rfl

theorem initPhase_phase_eq (s : State) :
    (initPhase s).phase = if (initError s).isSome then .finalize else if s.dir then .keystream else .hash := by
  cases hi : initError s with
  | some k => rw [initPhase_error hi]; rfl
  | none => rw [initPhase_phase hi]; rfl

/-- Settles O41: the successor of each phase by the phase's own lemma. -/
theorem phaseSuccessors : Obligations.PhaseSuccessors := by
  refine fun s => ⟨fun d => acceptCommand_eq d s, phaseStep_idle, fun hp => ?_, fun hp => ?_, fun hp => ?_,
    fun hp => ?_, fun hp => ?_⟩
  · rw [phaseStep_init hp, initPhase_phase_eq]
  · rw [phaseStep_hash hp, hashPhase_phase]
  · rw [phaseStep_deriveTag hp, deriveTagPhase_phase]
  · rw [phaseStep_keystream hp, keystreamPhase_phase]
  · rw [phaseStep_finalize hp, finalizePhase_phase]

/-- Five successors lead anywhere to IDLE. -/
theorem iterate_successor_five (d : Bool) (p : Phase) : (successor d)^[5] p = .idle := by
  cases d <;> cases p <;> decide

/-- An error in INIT leaves FINALIZE alone to come. -/
theorem runPhases_phase_of_initError {s : State} {k : ErrorKind} (hp : s.phase = .init)
    (hi : initError s = some k) (n : Nat) : (runPhases (n + 2) s).phase = .idle := by
  rw [runPhases, phaseStep_init hp, initPhase_error hi, runPhases, phaseStep_raise,
    runPhases_idle n (endCommand_phase ..), endCommand_phase]

/-- Settles O47: INIT raises, or the phases follow the successor function. -/
theorem everyCommandEndsWithinFivePhases : Obligations.EveryCommandEndsWithinFivePhases := by
  intro s
  by_cases herr : s.phase = .init ∧ ∃ k, initError s = some k
  · obtain ⟨hp, k, hi⟩ := herr
    exact runPhases_phase_of_initError hp hi 3
  · have hcourse : OnCourse s.dir s := .inr ⟨rfl, fun hp =>
      Option.eq_none_iff_forall_ne_some.2 fun k hk => herr ⟨hp, k, hk⟩⟩
    rw [runPhases_phase 5 hcourse, iterate_successor_five]

/-! ### The checks of INIT in their order (rule R223) -/

section
variable {s : State}

theorem initError_malformed (hd : s.dir = true) (hm : s.msglen.toNat < 16) :
    initError s = some .malformedCiphertext := by
  rw [initError, if_pos]
  rw [hd, decide_eq_true hm, Bool.and_self]

theorem not_malformed (ht : s.dir = true → 16 ≤ s.msglen.toNat) :
    ¬(s.dir && decide (s.msglen.toNat < 16)) = true := by
  rw [Bool.and_eq_true, decide_eq_true_eq]
  exact fun ⟨hd, hm⟩ => Nat.not_le_of_lt hm (ht hd)

theorem initError_nonce (ht : s.dir = true → 16 ≤ s.msglen.toNat) (hn : s.noncelen.toNat ≠ 12) :
    initError s = some .invalidNonceSize := by
  rw [initError, if_neg (not_malformed ht), if_pos hn]

theorem initError_key (ht : s.dir = true → 16 ≤ s.msglen.toNat) (hn : s.noncelen.toNat = 12)
    (h16 : s.keylen.toNat ≠ 16) (h32 : s.keylen.toNat ≠ 32) : initError s = some .invalidKeySize := by
  rw [initError, if_neg (not_malformed ht), if_neg (not_not.2 hn), if_pos ⟨h16, h32⟩]

theorem initError_size (ht : s.dir = true → 16 ≤ s.msglen.toNat) (hn : s.noncelen.toNat = 12)
    (hk : s.keylen.toNat = 16 ∨ s.keylen.toNat = 32)
    (hl : Config.maxInputBytes < bodyLength s + s.aadlen.toNat) : initError s = some .inputTooLarge := by
  rw [initError, if_neg (not_malformed ht), if_neg (not_not.2 hn), if_neg (by omega), if_pos hl]

theorem initError_none (ht : s.dir = true → 16 ≤ s.msglen.toNat) (hn : s.noncelen.toNat = 12)
    (hk : s.keylen.toNat = 16 ∨ s.keylen.toNat = 32)
    (hl : bodyLength s + s.aadlen.toNat ≤ Config.maxInputBytes) : initError s = none := by
  rw [initError, if_neg (not_malformed ht), if_neg (not_not.2 hn), if_neg (by omega), if_neg (by omega)]

end

/-- The derive operation of the key size is what INIT issues (rules R91, R227). -/
theorem exec_derive (s : State) :
    exec (if s.keylen.toNat = 32 then .kdfDerive256 else .kdfDerive128) s =
      .next (s.setKeys (deriveAuthKey s.keyIs32 s.inputKey (nonceOperand s))
        (deriveEncKey s.keyIs32 s.inputKey (nonceOperand s))) := by
  by_cases h : s.keylen.toNat = 32
  · rw [if_pos h, exec_kdfDerive256, State.inputKey, State.keyIs32, decide_eq_true h]
  · rw [if_neg h, exec_kdfDerive128, State.inputKey, State.keyIs32, decide_eq_false h]

/-- L_MSG in 64 bits: the subtraction of the tag does not wrap when there is one. -/
theorem ofNat_bodyLength {s : State} (ht : s.dir = true → 16 ≤ s.msglen.toNat) :
    BitVec.ofNat 64 (bodyLength s) = if s.dir then s.msglen - 16 else s.msglen := by
  unfold bodyLength
  cases hd : s.dir with
  | false => exact BitVec.ofNat_toNat ..
  | true =>
    have h16 := ht hd
    simp only [if_true]
    bv_omega

/-- Settles O43: each check by its lemma, and the latches and keys of the phase that passes them. -/
theorem initChecksThenLatchesAndDerives : Obligations.InitChecksThenLatchesAndDerives := by
  intro s hp
  rw [phaseStep_init hp]
  refine ⟨fun hd hm => initPhase_error (initError_malformed hd hm), fun ht => ⟨fun hn =>
    initPhase_error (initError_nonce ht hn), fun hn => ⟨fun h16 h32 =>
    initPhase_error (initError_key ht hn h16 h32), fun hk => ⟨fun hl =>
    initPhase_error (initError_size ht hn hk hl), fun hl => ⟨_, _, exec_derive s, ?_⟩⟩⟩⟩⟩
  rw [initPhase_ok (initError_none ht hn hk hl), ← ofNat_bodyLength ht]
  rfl

/-! ### FINALIZE (rule R250) -/

/-- FINALIZE of an ENCRYPT that succeeded writes body and tag as one string. -/
theorem finalizePhase_release_encrypt {s : State} (he : s.errl = 0) (hd : s.dir = false) :
    finalizePhase s = endCommand (s.lMsg + 16) statusSuccess
      (s.memWrite .outmem 0 (s.memRead .work 0 s.lMsg.toNat ++ bytes16 s.tag)) := by
  rw [finalizePhase_success he, if_neg (by rw [hd]; decide), memWrite_append, length_memRead, Nat.zero_add]

theorem finalizePhase_release_decrypt {s : State} (he : s.errl = 0) (hd : s.dir = true) :
    finalizePhase s = endCommand s.lMsg statusSuccess
      (s.memWrite .outmem 0 (s.memRead .work 0 s.lMsg.toNat)) := by
  rw [finalizePhase_success he, if_pos hd]

/-- OUTMEM where the released string lies. -/
theorem peek_endCommand_outmem {b : List Byte} {a : Nat} (ha : a < b.length) (n : Length) (v : BitVec 32)
    (s : State) : (endCommand n v (s.memWrite .outmem 0 b)).peek .outmem a = b.getD a 0 := by
  rw [peek_endCommand _ _ _ _ _ (by decide), peek_memWrite, if_pos ⟨rfl, by omega, by omega⟩, Nat.sub_zero]

/-- OUTMEM beyond the released string. -/
theorem peek_endCommand_outmem_beyond {b : List Byte} {a : Nat} (ha : b.length ≤ a) (n : Length)
    (v : BitVec 32) (s : State) :
    (endCommand n v (s.memWrite .outmem 0 b)).peek .outmem a = s.peek .outmem a := by
  rw [peek_endCommand _ _ _ _ _ (by decide), peek_memWrite, if_neg (by omega)]

/-- Settles O46: the released string byte by byte, or the failure with nothing released. -/
theorem finalizeReleasesOrWithholds : Obligations.FinalizeReleasesOrWithholds := by
  intro s hp
  rw [phaseStep_finalize hp]
  refine ⟨fun he hd => ?_, fun he hd => ?_, fun he => ?_, rfl⟩
  · have hlen : (s.memRead .work 0 s.lMsg.toNat ++ bytes16 s.tag).length = s.lMsg.toNat + 16 := by
      rw [List.length_append, length_memRead, length_bytes16]
    rw [finalizePhase_release_encrypt he hd]
    refine ⟨_, rfl, fun a ha => ?_, fun k hk => ?_, fun a ha => ?_⟩
    · rw [peek_endCommand_outmem (by omega), getD_append, length_memRead, if_pos ha,
        getD_memRead _ _ _ _ _ ha, Nat.zero_add]
    · rw [peek_endCommand_outmem (by omega), getD_append, length_memRead, if_neg (by omega),
        Nat.add_sub_cancel_left, getD_bytes16 _ _ hk]
    · rw [peek_endCommand_outmem_beyond (by omega)]
  · rw [finalizePhase_release_decrypt he hd]
    refine ⟨_, rfl, fun a ha => ?_, fun a ha => ?_⟩
    · rw [peek_endCommand_outmem (by rwa [length_memRead]), getD_memRead _ _ _ _ _ ha, Nat.zero_add]
    · rw [peek_endCommand_outmem_beyond (by rwa [length_memRead])]
  · rw [finalizePhase_error he, statusFailure_eq_ofNat]
    rfl

/-! ### ENCRYPT (rule R251) -/

theorem nonceOperand_eq_memRead (s : State) : nonceOperand s = s.memRead .noncebuf 0 12 := by rw [nonceOperand]

theorem exec_encrypt_seal {s : State} (h : EncryptRuns s) :
    exec .encrypt s = .next (endCommand (s.msglen + 16) 0x02#32 (s.memWrite .outmem 0
      (sealMessage s.keyIs32 s.inputKey (s.memRead .noncebuf 0 12) s.inputMsg s.inputAad))) := by
  rw [exec_encrypt h.idle, runCommand_encrypt (initError_encrypt h), nonceOperand_eq_memRead]
  rfl

/-- A command whose INIT raises ends with the STATUS of the error (rules R281, R292). -/
theorem exec_encrypt_raise {s : State} {k : ErrorKind} (hb : s.busy = false)
    (hi : initError (acceptCommand false s) = some k) :
    exec .encrypt s = .next (endCommand 0 (statusFailure k.code) s) := by
  rw [exec_encrypt hb, runCommand_raise hi]

theorem exec_decrypt_raise {s : State} {k : ErrorKind} (hb : s.busy = false)
    (hi : initError (acceptCommand true s) = some k) :
    exec .decrypt s = .next (endCommand 0 (statusFailure k.code) s) := by
  rw [exec_decrypt hb, runCommand_raise hi]

/-- The key operand is KEYBUF[0..KEYLEN) for either legal key size (rule R52). -/
theorem inputKey_eq {s : State} (hk : s.keylen.toNat = 16 ∨ s.keylen.toNat = 32) :
    s.inputKey = bits 256 (s.memRead .keybuf 0 s.keylen.toNat) := by
  rw [State.inputKey, keyOperand, State.keyIs32]
  obtain hk | hk := hk <;> rw [hk] <;> rfl

theorem keyIs32_of_keylen_eq {s : State} (h : s.keylen = 16) : s.keyIs32 = false := by
  rw [State.keyIs32, h]
  rfl

theorem inputKey_of_keylen_eq {s : State} (h : s.keylen = 16) :
    s.inputKey = bits 256 (s.memRead .keybuf 0 16) := by
  rw [inputKey_eq (.inl (congrArg BitVec.toNat h)), h]
  rfl

theorem inputAad_of_aadlen_eq {s : State} (h : s.aadlen = 0) : s.inputAad = [] := by
  rw [State.inputAad, h]
  rfl

/-- The example of the rule (V5.2). -/
theorem sealMessage_example :
    sealMessage false (bits 256 [1, 0, 0, 0, 0, 0, 0, 0, 0, 0, 0, 0, 0, 0, 0, 0])
        [3, 0, 0, 0, 0, 0, 0, 0, 0, 0, 0, 0] [1, 0, 0, 0, 0, 0, 0, 0] [] =
      [0xb5, 0xd8, 0x39, 0x33, 0x0a, 0xc7, 0xb7, 0x86, 0x57, 0x87, 0x82, 0xff, 0xf6, 0x01, 0x3b, 0x81,
        0x5b, 0x28, 0x7c, 0x22, 0x49, 0x3a, 0x36, 0x4c] := by decide +kernel

/-- What a finished command has left in OUTMEM[0..OUTLEN). -/
theorem memRead_endCommand_memWrite {b : List Byte} {n : Nat} (hb : b.length = n) (l : Length)
    (v : BitVec 32) (s : State) : (endCommand l v (s.memWrite .outmem 0 b)).memRead .outmem 0 n = b := by
  rw [memRead_endCommand _ _ _ _ _ _ (by decide), ← hb, memRead_memWrite]

/-- Settles O49: the command when INIT raises nothing, each error by its check, and the example evaluated. -/
theorem encryptIsTheSealFunction : Obligations.EncryptIsTheSealFunction := by
  refine ⟨fun s h => exec_encrypt_seal h, fun s hb => ⟨fun hn => ?_, fun hn h16 h32 => ?_,
    fun hn hk hl => ?_⟩, rfl, fun s h hkey haad hmsg hkb hnb hin => ?_⟩
  · exact exec_encrypt_raise hb (initError_nonce nofun hn)
  · exact exec_encrypt_raise hb (initError_key nofun hn h16 h32)
  · exact exec_encrypt_raise hb (initError_size nofun hn hk hl)
  · have hik := (inputKey_of_keylen_eq hkey).trans (congrArg _ hkb)
    have him : s.inputMsg = [1, 0, 0, 0, 0, 0, 0, 0] := by
      rw [State.inputMsg, hmsg, ← hin]
      rfl
    refine ⟨_, exec_encrypt_seal h, endCommand_status .., ?_, ?_⟩
    · rw [endCommand_outlen, hmsg]
      rfl
    · rw [keyIs32_of_keylen_eq hkey, hik, hnb, him, inputAad_of_aadlen_eq haad, sealMessage_example]
      exact memRead_endCommand_memWrite rfl _ _ s

end Sys2Proof.Machine
end

section
/-! PROOFS of the statements about DECRYPT and about what the two commands compute (44_aead_orchestrator.md sections 5,
8 and 10, 20_memory.md). DECRYPT as the function of rule R252; the round trip; the tag bit that the counter block
forces; and that a command reads its inputs alone. -/

namespace Sys2Proof.Machine

/-! ### DECRYPT (rule R252) -/

theorem exec_decrypt_open {s : State} (h : DecryptRuns s) :
    exec .decrypt s = .next
      (match openMessage s.keyIs32 s.inputKey (s.memRead .noncebuf 0 12) s.inputMsg s.inputAad with
      | some pt => endCommand (s.msglen - 16) 0x02#32 (s.memWrite .outmem 0 pt)
      | none => endCommand 0 0x56#32 s) := by
  rw [exec_decrypt h.idle, runCommand_decrypt (initError_decrypt h), nonceOperand_eq_memRead]
  rfl

theorem exec_decrypt_accepted {s : State} (h : DecryptRuns s) {pt : List Byte}
    (ho : openMessage s.keyIs32 s.inputKey (s.memRead .noncebuf 0 12) s.inputMsg s.inputAad = some pt) :
    exec .decrypt s = .next (endCommand (s.msglen - 16) 0x02#32 (s.memWrite .outmem 0 pt)) := by
  rw [exec_decrypt_open h, ho]

theorem exec_decrypt_rejected {s : State} (h : DecryptRuns s)
    (ho : openMessage s.keyIs32 s.inputKey (s.memRead .noncebuf 0 12) s.inputMsg s.inputAad = none) :
    exec .decrypt s = .next (endCommand 0 0x56#32 s) := by
  rw [exec_decrypt_open h, ho]

/-- The example of the rule (V5.14). -/
theorem openMessage_example :
    openMessage false (bits 256 [1, 0, 0, 0, 0, 0, 0, 0, 0, 0, 0, 0, 0, 0, 0, 0])
        [3, 0, 0, 0, 0, 0, 0, 0, 0, 0, 0, 0]
        ([0xb5, 0xd8, 0x39, 0x33, 0x0a, 0xc7, 0xb7, 0x86, 0x57, 0x87, 0x82, 0xff, 0xf6, 0x01, 0x3b, 0x81,
          0x5b, 0x28, 0x7c, 0x22, 0x49, 0x3a, 0x36] ++ [0x4c]) [] =
      some [1, 0, 0, 0, 0, 0, 0, 0] := by decide +kernel

/-- Its tampered form (V5.15). -/
theorem openMessage_example_tampered :
    openMessage false (bits 256 [1, 0, 0, 0, 0, 0, 0, 0, 0, 0, 0, 0, 0, 0, 0, 0])
        [3, 0, 0, 0, 0, 0, 0, 0, 0, 0, 0, 0]
        ([0xb5, 0xd8, 0x39, 0x33, 0x0a, 0xc7, 0xb7, 0x86, 0x57, 0x87, 0x82, 0xff, 0xf6, 0x01, 0x3b, 0x81,
          0x5b, 0x28, 0x7c, 0x22, 0x49, 0x3a, 0x36] ++ [0x4d]) [] = none := by decide +kernel

/-- Settles O50: the command when INIT raises nothing, each error by its check, and the two examples evaluated. -/
theorem decryptIsTheOpenFunction : Obligations.DecryptIsTheOpenFunction := by
  refine ⟨fun s h => exec_decrypt_open h, fun s hb => ⟨fun hm => ?_, fun hm hn => ?_,
    fun hm hn h16 h32 => ?_, fun hm hn hk hl => ?_⟩, rfl, fun s h hkey haad hmsg hkb hnb hin => ?_⟩
  · exact exec_decrypt_raise hb (initError_malformed rfl hm)
  · exact exec_decrypt_raise hb (initError_nonce (fun _ => hm) hn)
  · exact exec_decrypt_raise hb (initError_key (fun _ => hm) hn h16 h32)
  · exact exec_decrypt_raise hb (initError_size (fun _ => hm) hn hk hl)
  · have hik := (inputKey_of_keylen_eq hkey).trans (congrArg _ hkb)
    have him : s.inputMsg = s.memRead .inmem 0 23 ++ [s.peek .inmem 23] := by
      rw [State.inputMsg, hmsg]
      exact memRead_append .inmem 0 23 1 s
    refine ⟨_, exec_decrypt_open h, fun hlast => ?_, fun hlast => ?_⟩
    · rw [keyIs32_of_keylen_eq hkey, hik, hnb, him, hin, inputAad_of_aadlen_eq haad, hlast,
        openMessage_example]
      exact ⟨endCommand_status .., by rw [endCommand_outlen, hmsg]; rfl,
        memRead_endCommand_memWrite rfl _ _ s⟩
    · rw [keyIs32_of_keylen_eq hkey, hik, hnb, him, hin, inputAad_of_aadlen_eq haad, hlast,
        openMessage_example_tampered]
      exact ⟨endCommand_status .., endCommand_outlen ..⟩

/-! ### The round trip on byte strings (rule R261) -/

theorem receivedTag_append {body : List Byte} {tag : Block} : receivedTag (body ++ bytes16 tag) = tag := by
  rw [receivedTag, List.length_append, length_bytes16, Nat.add_sub_cancel, List.drop_left, bits_bytes16]

theorem candidatePlaintext_append (ksz : Bool) (key : KeyBits) (nonce body : List Byte) (tag : Block) :
    candidatePlaintext ksz key nonce (body ++ bytes16 tag) =
      applyKeystream ksz (deriveEncKey ksz key nonce) tag body := by
  rw [candidatePlaintext, receivedTag_append, List.length_append, length_bytes16, Nat.add_sub_cancel,
    List.take_left]

theorem openMessage_sealMessage (ksz : Bool) (key : KeyBits) (nonce pt aad : List Byte) :
    openMessage ksz key nonce (sealMessage ksz key nonce pt aad) aad = some pt := by
  rw [openMessage, sealMessage, candidatePlaintext_append, applyKeystream_twice, receivedTag_append,
    if_pos rfl]

/-! ### States with the same inputs (rule R52) -/

/-- `u` holds the key, the nonce and the associated data of `s`. -/
structure SameKeyNonceAad (s u : State) : Prop where
  keylen : u.keylen = s.keylen
  aadlen : u.aadlen = s.aadlen
  key : u.memRead .keybuf 0 s.keylen.toNat = s.memRead .keybuf 0 s.keylen.toNat
  nonce : u.memRead .noncebuf 0 12 = s.memRead .noncebuf 0 12
  aad : u.memRead .aadmem 0 s.aadlen.toNat = s.memRead .aadmem 0 s.aadlen.toNat

namespace SameKeyNonceAad

variable {s u : State} (h : SameKeyNonceAad s u)
include h

theorem keyIs32 : u.keyIs32 = s.keyIs32 := by rw [State.keyIs32, h.keylen, State.keyIs32]

theorem inputKey (hk : s.keylen.toNat = 16 ∨ s.keylen.toNat = 32) : u.inputKey = s.inputKey := by
  rw [inputKey_eq (h.keylen ▸ hk), inputKey_eq hk, h.keylen, h.key]

theorem inputAad : u.inputAad = s.inputAad := by rw [State.inputAad, h.aadlen, h.aad, State.inputAad]

/-- What DECRYPT makes of an input in `u` is what the key, nonce and AAD of `s` make of it. -/
theorem openMessage_eq (hk : s.keylen.toNat = 16 ∨ s.keylen.toNat = 32) (input : List Byte) :
    openMessage u.keyIs32 u.inputKey (u.memRead .noncebuf 0 12) input u.inputAad =
      openMessage s.keyIs32 s.inputKey (s.memRead .noncebuf 0 12) input s.inputAad := by
  rw [h.keyIs32, h.inputKey hk, h.nonce, h.inputAad]

end SameKeyNonceAad

theorem toNat_msglen_add_tag_of_runs {s : State} (h : EncryptRuns s) :
    (s.msglen + 16).toNat = s.msglen.toNat + 16 := toNat_msglen_add_tag (initError_encrypt h)

/-- A CORE that holds the output of an ENCRYPT passes INIT on DECRYPT. -/
theorem decryptRuns_of_encryptRuns {s u : State} (h : EncryptRuns s) (hb : u.busy = false)
    (hk : u.keylen = s.keylen) (hn : u.noncelen = s.noncelen) (ha : u.aadlen = s.aadlen)
    (hm : u.msglen = s.msglen + 16) : DecryptRuns u where
  idle := hb
  hasTag := by rw [hm, toNat_msglen_add_tag_of_runs h]; omega
  nonce := by rw [hn]; exact h.nonce
  key := by rw [hk]; exact h.key
  size := by
    rw [hm, ha, toNat_msglen_add_tag_of_runs h, Nat.add_sub_cancel]
    exact h.size

/-- Settles O54: what ENCRYPT left is the sealed message, and opening it gives the plaintext back. -/
theorem decryptOfEncryptReturnsThePlaintext : Obligations.DecryptOfEncryptReturnsThePlaintext := by
  intro s h
  refine ⟨_, exec_encrypt_seal h, endCommand_status .., toNat_msglen_add_tag_of_runs h, ?_⟩
  intro u hb hkl hnl hal hml hkey hnonce haad hin
  rw [endCommand_outlen] at hml hin
  have hruns := decryptRuns_of_encryptRuns h hb hkl hnl hal hml
  have hsame : SameKeyNonceAad s u := ⟨hkl, hal, hkey, hnonce, haad⟩
  have hlen : (sealMessage s.keyIs32 s.inputKey (s.memRead .noncebuf 0 12) s.inputMsg s.inputAad).length =
      (s.msglen + 16).toNat := by
    rw [length_sealMessage, length_inputMsg, toNat_msglen_add_tag_of_runs h]
  have hmsg : u.inputMsg =
      sealMessage s.keyIs32 s.inputKey (s.memRead .noncebuf 0 12) s.inputMsg s.inputAad := by
    rw [State.inputMsg, hml, hin, memRead_endCommand_memWrite hlen]
  have hopen := (hsame.openMessage_eq h.key u.inputMsg).trans (hmsg ▸ openMessage_sealMessage ..)
  refine ⟨_, exec_decrypt_accepted hruns hopen, endCommand_status .., ?_, ?_⟩
  · rw [endCommand_outlen, hml, BitVec.add_sub_cancel]
  · exact memRead_endCommand_memWrite (length_inputMsg s) _ _ u

/-! ### The forced bit of the tag (rules R245, R252) -/

/-- Byte `k` of the received tag in INMEM (rule R230). -/
theorem byteAt_receivedTag_inputMsg {s : State} {k : Nat} (h16 : 16 ≤ s.msglen.toNat) (hk : k < 16) :
    byteAt (receivedTag s.inputMsg) k = s.peek .inmem (s.msglen.toNat - 16 + k) := by
  rw [receivedTag, byteAt_bits128 _ _ hk, length_inputMsg, State.inputMsg, drop_memRead _ _ (Nat.sub_le ..),
    getD_memRead _ _ _ _ _ (by omega)]

theorem byte_flipTop_or : ∀ b : Byte, b ^^^ 0x80#8 ||| 0x80#8 = b ||| 0x80#8 := by decide

theorem byte_flipTop_ne : ∀ b : Byte, b ^^^ 0x80#8 ≠ b := by decide

/-- The inputs of `s` and `u` differ in bit 7 of the last byte and nowhere else. -/
structure DifferInForcedBit (s u : State) : Prop where
  hasTag : 16 ≤ s.msglen.toNat
  msglen : u.msglen = s.msglen
  same : ∀ a, a < s.msglen.toNat - 1 → u.peek .inmem a = s.peek .inmem a
  last : u.peek .inmem (s.msglen.toNat - 1) = s.peek .inmem (s.msglen.toNat - 1) ^^^ 0x80#8

namespace DifferInForcedBit

variable {s u : State} (h : DifferInForcedBit s u)
include h

theorem byteAt_receivedTag {k : Nat} (hk : k < 15) :
    byteAt (receivedTag u.inputMsg) k = byteAt (receivedTag s.inputMsg) k := by
  have h16 := h.hasTag
  rw [byteAt_receivedTag_inputMsg (h.msglen ▸ h16) (by omega), byteAt_receivedTag_inputMsg h16 (by omega),
    h.msglen, h.same _ (by omega)]

theorem byteAt_receivedTag_last :
    byteAt (receivedTag u.inputMsg) 15 = byteAt (receivedTag s.inputMsg) 15 ^^^ 0x80#8 := by
  have h16 := h.hasTag
  have hlast : s.msglen.toNat - 16 + 15 = s.msglen.toNat - 1 := by omega
  rw [byteAt_receivedTag_inputMsg (h.msglen ▸ h16) (by omega), byteAt_receivedTag_inputMsg h16 (by omega),
    h.msglen, hlast, h.last]

theorem receivedTag_ne : receivedTag u.inputMsg ≠ receivedTag s.inputMsg := fun heq =>
  byte_flipTop_ne _ (h.byteAt_receivedTag_last.symm.trans (congrArg (byteAt · 15) heq))

/-- The counter block sets the bit in which the tags differ. -/
theorem counterBlock_eq (j : Nat) :
    counterBlock (receivedTag u.inputMsg) j = counterBlock (receivedTag s.inputMsg) j :=
  counterBlock_congr _ _ j (fun _ hk => h.byteAt_receivedTag hk)
    (by rw [h.byteAt_receivedTag_last, byte_flipTop_or])

theorem candidatePlaintext_eq (ksz : Bool) (key : KeyBits) (nonce : List Byte) :
    candidatePlaintext ksz key nonce u.inputMsg = candidatePlaintext ksz key nonce s.inputMsg := by
  have hbody : u.memRead .inmem 0 (s.msglen.toNat - 16) = s.memRead .inmem 0 (s.msglen.toNat - 16) :=
    memRead_eq_of_peek fun a ha => h.same _ (by omega)
  rw [candidatePlaintext, candidatePlaintext, applyKeystream_congr _ _ _ _ _ h.counterBlock_eq,
    length_inputMsg, length_inputMsg, h.msglen, State.inputMsg, State.inputMsg, h.msglen,
    take_memRead _ _ (Nat.sub_le ..), take_memRead _ _ (Nat.sub_le ..), hbody]

end DifferInForcedBit

/-- An input is accepted only with the tag of its candidate plaintext. -/
theorem messageTag_of_openMessage {ksz : Bool} {key : KeyBits} {nonce input aad : List Byte}
    (h : openMessage ksz key nonce input aad ≠ none) :
    messageTag ksz key nonce (candidatePlaintext ksz key nonce input) aad = receivedTag input := by
  by_contra hne
  exact h (if_neg hne)

/-- Both inputs have one candidate plaintext, whose tag is at most one of theirs. -/
theorem openMessage_forcedBit {s u : State} (h : DifferInForcedBit s u) {ksz : Bool} {key : KeyBits}
    {nonce aad : List Byte} (hs : openMessage ksz key nonce s.inputMsg aad ≠ none) :
    openMessage ksz key nonce u.inputMsg aad = none := by
  have htag := messageTag_of_openMessage hs
  rw [openMessage, h.candidatePlaintext_eq, htag, if_neg h.receivedTag_ne.symm]

/-- Settles O55: the first was accepted, so its tag is the right one and the other's is not. -/
theorem forcedTagBitIsStillCompared : Obligations.ForcedTagBitIsStillCompared := by
  intro s u t v hs hu hkl hal hml hkey hnonce haad hbytes hlast hst huv htok
  have hdiffer : DifferInForcedBit s u := ⟨hs.hasTag, hml, hbytes, hlast⟩
  have hsame : SameKeyNonceAad s u := ⟨hkl, hal, hkey, hnonce, haad⟩
  have hopen : openMessage s.keyIs32 s.inputKey (s.memRead .noncebuf 0 12) s.inputMsg s.inputAad ≠ none := by
    intro hnone
    obtain rfl := Host.Outcome.next.inj (hst.symm.trans (exec_decrypt_rejected hs hnone))
    rw [endCommand_status] at htok
    exact absurd htok (by decide)
  have hrej := (hsame.openMessage_eq hs.key u.inputMsg).trans (openMessage_forcedBit hdiffer hopen)
  obtain rfl := Host.Outcome.next.inj (huv.symm.trans (exec_decrypt_rejected hu hrej))
  exact endCommand_status ..

/-! ### A command reads its inputs alone (rules R18, R52) -/

/-- The observation of a finished command is its result. -/
theorem observation_endCommand {n : Length} {b : List Byte} (hb : b.length = n.toNat) (v : BitVec 32)
    (s : State) : (endCommand n v (s.memWrite .outmem 0 b)).observation = (v, n, b) := by
  rw [State.observation, endCommand_outlen, memRead_endCommand_memWrite hb, endCommand_status]

theorem observation_endCommand_failure (v : BitVec 32) (s : State) :
    (endCommand 0 v s).observation = (v, 0, []) := rfl

/-- The checks of INIT read the four length registers alone. -/
theorem initError_acceptCommand_congr {s u : State} (d : Bool) (hk : u.keylen = s.keylen)
    (hn : u.noncelen = s.noncelen) (ha : u.aadlen = s.aadlen) (hm : u.msglen = s.msglen) :
    initError (acceptCommand d u) = initError (acceptCommand d s) := by
  rw [initError_acceptCommand, initError_acceptCommand, hk, hn, ha, hm]

theorem keylen_of_initError {s : State} (h : initError s = none) :
    s.keylen.toNat = 16 ∨ s.keylen.toNat = 32 := by
  rw [initError] at h
  split at h
  · cases h
  · split at h
    · cases h
    · split at h
      · cases h
      · omega

theorem runCommand_observation_congr {s u : State} (d : Bool) (h : SameKeyNonceAad s u)
    (hn : u.noncelen = s.noncelen) (hm : u.msglen = s.msglen) (hin : u.inputMsg = s.inputMsg) :
    (runCommand d s).observation = (runCommand d u).observation := by
  have hinit := initError_acceptCommand_congr d h.keylen hn h.aadlen hm
  cases hi : initError (acceptCommand d s) with
  | some k =>
    rw [runCommand_raise hi, runCommand_raise (hinit.trans hi), observation_endCommand_failure,
      observation_endCommand_failure]
  | none =>
    have hu := hinit.trans hi
    have hk : s.keylen.toNat = 16 ∨ s.keylen.toNat = 32 := keylen_of_initError (s := acceptCommand d s) hi
    cases d with
    | false =>
      have hlen : (sealMessage s.keyIs32 s.inputKey (nonceOperand s) s.inputMsg s.inputAad).length =
          (s.msglen + 16).toNat := by
        rw [length_sealMessage, length_inputMsg, toNat_msglen_add_tag hi]
      rw [runCommand_encrypt hi, runCommand_encrypt hu, hm, nonceOperand_eq_memRead u, h.keyIs32, h.inputKey hk,
        h.nonce, h.inputAad, hin, ← nonceOperand_eq_memRead, observation_endCommand hlen,
        observation_endCommand hlen]
    | true =>
      rw [runCommand_decrypt hi, runCommand_decrypt hu, hm, nonceOperand_eq_memRead, nonceOperand_eq_memRead,
        h.openMessage_eq hk, hin]
      split
      · next pt hpt =>
        have hlen : pt.length = (s.msglen - 16).toNat := by
          rw [length_of_openMessage hpt, length_inputMsg, toNat_msglen_sub_tag hi]
        rw [observation_endCommand hlen, observation_endCommand hlen]
      · rfl

/-- Settles O56: the result is a function of the inputs, and the observation is the result. -/
theorem commandReadsOnlyItsInputs : Obligations.CommandReadsOnlyItsInputs := by
  intro s u i hi hs hu hkl hnl hal hml hkey hnonce haad hin
  obtain ⟨d, hd⟩ := exec_command hi
  have hmsg : u.inputMsg = s.inputMsg := by rw [State.inputMsg, hml, hin, State.inputMsg]
  exact ⟨_, _, hd s hs, hd u hu,
    runCommand_observation_congr d ⟨hkl, hal, hkey, hnonce, haad⟩ hnl hml hmsg⟩

end Sys2Proof.Machine
end
